-- ==== Sys2Proof/Config.lean ====
section
/-! DEFINITION. What an implementation of the DDU fixes: the parameters of rule R7 and the small sets of names
(CHUNKS, WIDTHS, GRAMMARS) that the rest of the model is written in. -/

namespace Sys2Proof

/-- AW (R7, U8): the width in bits of an IMEM address and of a length, a parameter of the instance. Open: any width from 6
on, and none below. -/
structure AddrWidth where
  bits : Nat
  atLeastSix : 6 ≤ bits
  deriving DecidableEq, Repr

/-- The default of AW (R7, D8): 32. Only `State.reset` uses it; every other definition takes the width from the state.
DESIGN CHOICE, log entry 1. -/
def Config.addrWidth : AddrWidth := ⟨32, by decide⟩

/-- KERNEL16 (R7, R41, U7): which 16-byte datapath is built. -/
inductive Config.Kernel16 where
  /-- two chained 8-byte SWAR kernels; reads as 0 -/
  | scalar
  /-- a 128-bit compare/multiply-add pipeline; reads as 1 -/
  | vectorized
  deriving DecidableEq, Repr

/-- The default of KERNEL16 (92_eei_decisions.md, open parameters): Scalar. Only `State.reset` uses it; every other
definition takes the build from the state's KSEL. DESIGN CHOICE, log entry 2. -/
def Config.kernel16 : Config.Kernel16 := .scalar

/-- What a byte of IMEM that the host has not put anything in reads as. The spec fixes nothing (R51: the content after
reset is whatever the host has put there). DESIGN CHOICE, log entry 3. -/
def Config.imemBlank : BitVec 8 := 0

/-- WIDTHS (R7): the target bit widths W. -/
inductive Width where
  | w8 | w16 | w32 | w64 | w128
  deriving DecidableEq, Repr

/-- GRAMMARS (R7, R85): unsigned with '+' allowed (gsel 0), unsigned without '+' (gsel 1), signed (gsel 2). -/
inductive Grammar where
  | plus | noPlus | signed
  deriving DecidableEq, Repr

/-- One of the 15 modes of R190: a width and a grammar. The 17 other values of the 5-bit MODE register never occur
(R23, 93_implementation_defined.md part 2), so the type has none of them. -/
structure Mode where
  width   : Width
  grammar : Grammar
  deriving DecidableEq, Repr

/-- CHUNKS (R7, R84): the chunk sizes 1, 2, 4, 8, 16 bytes. As a size tag (CN, LN) a value stands for its log2,
0 to 4; the codes 5, 6, 7 never occur (R30, R32). -/
inductive ChunkSize where
  | b1 | b2 | b4 | b8 | b16
  deriving DecidableEq, Repr

end Sys2Proof
end

