-- ==== Sys2Proof/Word.lean ====
section
/-! DEFINITION. The word types of the DDU (R8, R20). -/

namespace Sys2Proof

/-- A byte of IMEM (R60). -/
abbrev Byte := BitVec 8

/-- An operation word (R80): exactly 8 bits. -/
abbrev OpWord := BitVec 8

/-- The 128-bit data registers ACC, CW, FHI and RES (R28, R29, R33, R37). -/
abbrev Wide := BitVec 128

/-- The 64-bit registers ERR and LOW (R27, R31). -/
abbrev Half := BitVec 64

end Sys2Proof
end

