-- ==== Sys2Proof/Syntax.lean ====
section
/-! DEFINITION. The syntax of the DDU: one constructor for each of the 50 rows of spec/opcode_table.json (R92). No
operation has a free operand field (R93): the size of an S-format word and the mode of an M-format word are part of the
row, so the constructors take no argument. -/

namespace Sys2Proof

/-- The 50 legal operations (R92), in the table's order. -/
inductive Instr where
  /-- `sgn`, word 0x01: consume an optional sign byte (R151) -/
  | sgn
  /-- `nrm`, word 0x02: strip leading zeros, check the length (R153) -/
  | nrm
  /-- `take`, word 0x03: first chunk value into ACC (R141) -/
  | take
  /-- `chk`, word 0x04: the one boundary check (R172) -/
  | chk
  /-- `fin`, word 0x05: encode the result (R176) -/
  | fin
  /-- `rd.1`, word 0x20: read a 1-byte chunk (R101) -/
  | rd1
  /-- `rd.2`, word 0x21: read a 2-byte chunk (R102) -/
  | rd2
  /-- `rd.4`, word 0x22: read a 4-byte chunk (R103) -/
  | rd4
  /-- `rd.8`, word 0x23: read a 8-byte chunk (R104) -/
  | rd8
  /-- `rd.16`, word 0x24: read a 16-byte chunk (R105) -/
  | rd16
  /-- `dec.1`, word 0x40: decode a 1-byte chunk (R120) -/
  | dec1
  /-- `dec.2`, word 0x41: decode a 2-byte chunk (R121) -/
  | dec2
  /-- `dec.4`, word 0x42: decode a 4-byte chunk (R122) -/
  | dec4
  /-- `dec.8`, word 0x43: decode a 8-byte chunk (R123) -/
  | dec8
  /-- `dec.16`, word 0x44: decode a 16-byte chunk (R133) -/
  | dec16
  /-- `fold.1`, word 0x60: fold 1 digits into ACC (R142) -/
  | fold1
  /-- `fold.2`, word 0x61: fold 2 digits into ACC (R143) -/
  | fold2
  /-- `fold.4`, word 0x62: fold 4 digits into ACC (R144) -/
  | fold4
  /-- `fold.8`, word 0x63: fold 8 digits into ACC (R145) -/
  | fold8
  /-- `fold.16`, word 0x64: fold 16 digits into ACC (R146) -/
  | fold16
  /-- `begin.u8`, word 0x80: begin a call in mode u8 (R150) -/
  | beginU8
  /-- `begin.u8np`, word 0x81: begin a call in mode u8np (R150) -/
  | beginU8np
  /-- `begin.i8`, word 0x82: begin a call in mode i8 (R150) -/
  | beginI8
  /-- `begin.u16`, word 0x84: begin a call in mode u16 (R150) -/
  | beginU16
  /-- `begin.u16np`, word 0x85: begin a call in mode u16np (R150) -/
  | beginU16np
  /-- `begin.i16`, word 0x86: begin a call in mode i16 (R150) -/
  | beginI16
  /-- `begin.u32`, word 0x88: begin a call in mode u32 (R150) -/
  | beginU32
  /-- `begin.u32np`, word 0x89: begin a call in mode u32np (R150) -/
  | beginU32np
  /-- `begin.i32`, word 0x8A: begin a call in mode i32 (R150) -/
  | beginI32
  /-- `begin.u64`, word 0x8C: begin a call in mode u64 (R150) -/
  | beginU64
  /-- `begin.u64np`, word 0x8D: begin a call in mode u64np (R150) -/
  | beginU64np
  /-- `begin.i64`, word 0x8E: begin a call in mode i64 (R150) -/
  | beginI64
  /-- `begin.u128`, word 0x90: begin a call in mode u128 (R150) -/
  | beginU128
  /-- `begin.u128np`, word 0x91: begin a call in mode u128np (R150) -/
  | beginU128np
  /-- `begin.i128`, word 0x92: begin a call in mode i128 (R150) -/
  | beginI128
  /-- `parse.u8`, word 0xA0: a whole call in mode u8 (R197) -/
  | parseU8
  /-- `parse.u8np`, word 0xA1: a whole call in mode u8np (R198) -/
  | parseU8np
  /-- `parse.i8`, word 0xA2: a whole call in mode i8 (R199) -/
  | parseI8
  /-- `parse.u16`, word 0xA4: a whole call in mode u16 (R200) -/
  | parseU16
  /-- `parse.u16np`, word 0xA5: a whole call in mode u16np (R201) -/
  | parseU16np
  /-- `parse.i16`, word 0xA6: a whole call in mode i16 (R202) -/
  | parseI16
  /-- `parse.u32`, word 0xA8: a whole call in mode u32 (R203) -/
  | parseU32
  /-- `parse.u32np`, word 0xA9: a whole call in mode u32np (R204) -/
  | parseU32np
  /-- `parse.i32`, word 0xAA: a whole call in mode i32 (R205) -/
  | parseI32
  /-- `parse.u64`, word 0xAC: a whole call in mode u64 (R206) -/
  | parseU64
  /-- `parse.u64np`, word 0xAD: a whole call in mode u64np (R207) -/
  | parseU64np
  /-- `parse.i64`, word 0xAE: a whole call in mode i64 (R208) -/
  | parseI64
  /-- `parse.u128`, word 0xB0: a whole call in mode u128 (R209) -/
  | parseU128
  /-- `parse.u128np`, word 0xB1: a whole call in mode u128np (R210) -/
  | parseU128np
  /-- `parse.i128`, word 0xB2: a whole call in mode i128 (R211) -/
  | parseI128
  deriving DecidableEq, Repr

end Sys2Proof
end

