-- ==== Sys2Proof/WellFormed.lean ====
section
/-! DEFINITION. Which operation words are legal, written from the spec's list of reserved words (R86) and its field
limits (R83 to R85), independently of the decoder of Decode.lean. An `Instr` has no operand, so the raw term that can
be ill-formed is the word; each check below refuses one kind of reserved word. -/

namespace Sys2Proof.WellFormed

/-- Major 0: the minor is 1 to 5; 0x00 and 0x06 to 0x1F are reserved (R83, R86). -/
def minorOk (w : OpWord) : Bool := !(w.toNat < 0x20 && (w.toNat == 0 || 0x06 ≤ w.toNat))

/-- Majors 1, 2, 3: in each block of 32 words every word but the first five is reserved (R84, R86). -/
def sizeOk (w : OpWord) : Bool := !(0x20 ≤ w.toNat && w.toNat < 0x80 && 5 ≤ w.toNat % 0x20)

/-- Majors 4, 5: `op[1:0]` = 3 is reserved (R85, R86). -/
def grammarOk (w : OpWord) : Bool := !(0x80 ≤ w.toNat && w.toNat < 0xC0 && w.toNat % 4 == 3)

/-- Majors 4, 5: `op[4:2]` ≥ 5 is reserved (R85, R86). -/
def widthOk (w : OpWord) : Bool := !(0x80 ≤ w.toNat && w.toNat < 0xC0 && 5 ≤ w.toNat / 4 % 8)

/-- Majors 6, 7 are reserved: 0xC0 to 0xFF (R82, R86). -/
def majorOk (w : OpWord) : Bool := !decide (0xC0 ≤ w.toNat)

/-- The word is one of the 50 and not one of the 206 reserved ones (R86, R87, R92). -/
def legalWord (w : OpWord) : Bool := minorOk w && sizeOk w && grammarOk w && widthOk w && majorOk w

end Sys2Proof.WellFormed
end

