-- ==== Sys2Proof/Decode.lean ====
section
/-! DEFINITION. Decoding an operation word (R91), total and rejecting by name, and the encoder (R81 to R85, R92). -/

namespace Sys2Proof

/-- Why a word is reserved (R83 to R86). Presenting such a word raises F_ILLOP (R222). -/
inductive Reserved where
  /-- major 0, minor 0 or 6 to 31 -/
  | minor
  /-- majors 1 to 3, `op[4:3]` not 0 -/
  | zeroField
  /-- majors 1 to 3, sz = 5, 6 or 7 -/
  | size
  /-- majors 4, 5, wsel = 5, 6 or 7 -/
  | width
  /-- majors 4, 5, gsel = 3 -/
  | grammar
  /-- majors 6 and 7 -/
  | major
  deriving DecidableEq, Repr

/-! ### The fields of a word (R81) -/

/-- `op[7:5]` -/
def opMajor (w : OpWord) : BitVec 3 := w.extractLsb' 5 3
/-- `op[4:0]` of format Z -/
def opMinor (w : OpWord) : BitVec 5 := w.extractLsb' 0 5
/-- `op[4:3]` of format S -/
def opZero (w : OpWord) : BitVec 2 := w.extractLsb' 3 2
/-- `op[2:0]` of format S -/
def opSz (w : OpWord) : BitVec 3 := w.extractLsb' 0 3
/-- `op[4:2]` of format M -/
def opWsel (w : OpWord) : BitVec 3 := w.extractLsb' 2 3
/-- `op[1:0]` of format M -/
def opGsel (w : OpWord) : BitVec 2 := w.extractLsb' 0 2

/-! ### The operands (R84, R85) -/

/-- The size operand: n = 2^sz, sz = 0 to 4 (R84). -/
def sizeOfSz (sz : BitVec 3) : Option ChunkSize :=
  match sz.toNat with
  | 0 => some .b1
  | 1 => some .b2
  | 2 => some .b4
  | 3 => some .b8
  | 4 => some .b16
  | _ => none

/-- The width half of the mode operand: W = 8 * 2^wsel, wsel = 0 to 4 (R85). -/
def widthOfWsel (wsel : BitVec 3) : Option Width :=
  match wsel.toNat with
  | 0 => some .w8
  | 1 => some .w16
  | 2 => some .w32
  | 3 => some .w64
  | 4 => some .w128
  | _ => none

/-- The grammar half of the mode operand, gsel = 0 to 2 (R85). -/
def grammarOfGsel (gsel : BitVec 2) : Option Grammar :=
  match gsel.toNat with
  | 0 => some .plus
  | 1 => some .noPlus
  | 2 => some .signed
  | _ => none

/-! ### The families of operations (R82) -/

/-- `rd.n`, major 1 (R82, R92). -/
def rdOp (n : ChunkSize) : Instr :=
  match n with
  | .b1 => .rd1
  | .b2 => .rd2
  | .b4 => .rd4
  | .b8 => .rd8
  | .b16 => .rd16

/-- `dec.n`, major 2 (R82, R92). -/
def decOp (n : ChunkSize) : Instr :=
  match n with
  | .b1 => .dec1
  | .b2 => .dec2
  | .b4 => .dec4
  | .b8 => .dec8
  | .b16 => .dec16

/-- `fold.k`, major 3 (R82, R92). -/
def foldOp (n : ChunkSize) : Instr :=
  match n with
  | .b1 => .fold1
  | .b2 => .fold2
  | .b4 => .fold4
  | .b8 => .fold8
  | .b16 => .fold16

/-- `begin.m`, major 4 (R82, R92). -/
def beginOp (m : Mode) : Instr :=
  match m with
  | ⟨.w8, .plus⟩ => .beginU8
  | ⟨.w8, .noPlus⟩ => .beginU8np
  | ⟨.w8, .signed⟩ => .beginI8
  | ⟨.w16, .plus⟩ => .beginU16
  | ⟨.w16, .noPlus⟩ => .beginU16np
  | ⟨.w16, .signed⟩ => .beginI16
  | ⟨.w32, .plus⟩ => .beginU32
  | ⟨.w32, .noPlus⟩ => .beginU32np
  | ⟨.w32, .signed⟩ => .beginI32
  | ⟨.w64, .plus⟩ => .beginU64
  | ⟨.w64, .noPlus⟩ => .beginU64np
  | ⟨.w64, .signed⟩ => .beginI64
  | ⟨.w128, .plus⟩ => .beginU128
  | ⟨.w128, .noPlus⟩ => .beginU128np
  | ⟨.w128, .signed⟩ => .beginI128

/-- `parse.m`, major 5 (R82, R92). -/
def parseOp (m : Mode) : Instr :=
  match m with
  | ⟨.w8, .plus⟩ => .parseU8
  | ⟨.w8, .noPlus⟩ => .parseU8np
  | ⟨.w8, .signed⟩ => .parseI8
  | ⟨.w16, .plus⟩ => .parseU16
  | ⟨.w16, .noPlus⟩ => .parseU16np
  | ⟨.w16, .signed⟩ => .parseI16
  | ⟨.w32, .plus⟩ => .parseU32
  | ⟨.w32, .noPlus⟩ => .parseU32np
  | ⟨.w32, .signed⟩ => .parseI32
  | ⟨.w64, .plus⟩ => .parseU64
  | ⟨.w64, .noPlus⟩ => .parseU64np
  | ⟨.w64, .signed⟩ => .parseI64
  | ⟨.w128, .plus⟩ => .parseU128
  | ⟨.w128, .noPlus⟩ => .parseU128np
  | ⟨.w128, .signed⟩ => .parseI128

/-! ### The decoder (R91) -/

/-- Format Z: minors 1 to 5 (R83). -/
def decodeZ (minor : BitVec 5) : Except Reserved Instr :=
  match minor.toNat with
  | 1 => .ok .sgn
  | 2 => .ok .nrm
  | 3 => .ok .take
  | 4 => .ok .chk
  | 5 => .ok .fin
  | _ => .error .minor

/-- Format S: `op[4:3]` must be 0 and sz at most 4 (R84). -/
def decodeS (op : ChunkSize → Instr) (zero : BitVec 2) (sz : BitVec 3) : Except Reserved Instr :=
  if zero ≠ 0 then .error .zeroField
  else
    match sizeOfSz sz with
    | some n => .ok (op n)
    | none => .error .size

/-- Format M: wsel at most 4 and gsel at most 2 (R85). -/
def decodeM (op : Mode → Instr) (wsel : BitVec 3) (gsel : BitVec 2) : Except Reserved Instr :=
  match widthOfWsel wsel, grammarOfGsel gsel with
  | some w, some g => .ok (op ⟨w, g⟩)
  | none, _ => .error .width
  | some _, none => .error .grammar

/-- The decoder, total on the 256 words (R91): the major selects the format and the family (R82). -/
def decode (w : OpWord) : Except Reserved Instr :=
  match (opMajor w).toNat with
  | 0 => decodeZ (opMinor w)
  | 1 => decodeS rdOp (opZero w) (opSz w)
  | 2 => decodeS decOp (opZero w) (opSz w)
  | 3 => decodeS foldOp (opZero w) (opSz w)
  | 4 => decodeM beginOp (opWsel w) (opGsel w)
  | 5 => decodeM parseOp (opWsel w) (opGsel w)
  | _ => .error .major

/-- The host's question about a row of the opcode table: the word is one byte (R80), so a row has 8 bits. -/
def decodeTableWord (nbits w : Nat) : Option Instr :=
  if nbits = 8 ∧ w < 256 then
    match decode (BitVec.ofNat 8 w) with
    | .ok i => some i
    | .error _ => none
  else none

/-! ### The encoder (R81, R92) -/

/-- Format Z: major 0, then the minor. -/
def wordZ (minor : BitVec 5) : OpWord := 0#3 ++ minor
/-- Format S: major, 00, sz. -/
def wordS (major : BitVec 3) (sz : BitVec 3) : OpWord := major ++ 0#2 ++ sz
/-- Format M: major, wsel, gsel. -/
def wordM (major : BitVec 3) (wsel : BitVec 3) (gsel : BitVec 2) : OpWord := major ++ wsel ++ gsel

/-- The word of an operation (R92), put together from the fields of its format. -/
def encode (i : Instr) : OpWord :=
  match i with
  | .sgn => wordZ 1
  | .nrm => wordZ 2
  | .take => wordZ 3
  | .chk => wordZ 4
  | .fin => wordZ 5
  | .rd1 => wordS 1 0
  | .rd2 => wordS 1 1
  | .rd4 => wordS 1 2
  | .rd8 => wordS 1 3
  | .rd16 => wordS 1 4
  | .dec1 => wordS 2 0
  | .dec2 => wordS 2 1
  | .dec4 => wordS 2 2
  | .dec8 => wordS 2 3
  | .dec16 => wordS 2 4
  | .fold1 => wordS 3 0
  | .fold2 => wordS 3 1
  | .fold4 => wordS 3 2
  | .fold8 => wordS 3 3
  | .fold16 => wordS 3 4
  | .beginU8 => wordM 4 0 0
  | .beginU8np => wordM 4 0 1
  | .beginI8 => wordM 4 0 2
  | .beginU16 => wordM 4 1 0
  | .beginU16np => wordM 4 1 1
  | .beginI16 => wordM 4 1 2
  | .beginU32 => wordM 4 2 0
  | .beginU32np => wordM 4 2 1
  | .beginI32 => wordM 4 2 2
  | .beginU64 => wordM 4 3 0
  | .beginU64np => wordM 4 3 1
  | .beginI64 => wordM 4 3 2
  | .beginU128 => wordM 4 4 0
  | .beginU128np => wordM 4 4 1
  | .beginI128 => wordM 4 4 2
  | .parseU8 => wordM 5 0 0
  | .parseU8np => wordM 5 0 1
  | .parseI8 => wordM 5 0 2
  | .parseU16 => wordM 5 1 0
  | .parseU16np => wordM 5 1 1
  | .parseI16 => wordM 5 1 2
  | .parseU32 => wordM 5 2 0
  | .parseU32np => wordM 5 2 1
  | .parseI32 => wordM 5 2 2
  | .parseU64 => wordM 5 3 0
  | .parseU64np => wordM 5 3 1
  | .parseI64 => wordM 5 3 2
  | .parseU128 => wordM 5 4 0
  | .parseU128np => wordM 5 4 1
  | .parseI128 => wordM 5 4 2

end Sys2Proof
end

