-- ==== Sys2Proof/Machine/State.lean ====
section
/-! DEFINITION. The state of one DDU instance (R20), the host's memory and the host's pending actions, the reasons a step
can stop, and the state after reset (R51). -/

namespace Sys2Proof.Machine

/-- PH (R36): the phase of the current call. All eight codes of the 3-bit register are named; a phase's code is its
place in this list. -/
inductive Phase where
  | idle | sign | norm | run | checked | failed | done | halt
  deriving DecidableEq, Repr

/-- FAULT (R39, R220): the code of the first fault taken since reset. The codes 5 to 15 are never written; a code's
number is its place in this list. -/
inductive FaultCode where
  /-- 0: no fault since reset -/
  | none
  /-- 1, F_UNDERRUN: `rd.n` with fewer than n bytes left (R221) -/
  | underrun
  /-- 2, F_ILLOP: a reserved op word (R222) -/
  | illop
  /-- 3, F_SEQ: a legal op out of its phase and tag state (R223) -/
  | seq
  /-- 4, F_SPAN: the span runs past the end of IMEM (R224) -/
  | span
  deriving DecidableEq, Repr

/-- One action of the host (R6, R50, R255). A host read changes nothing (R50) and is no event: `hostRead` answers it. -/
inductive HostEvent where
  /-- a write of `value` to host register `reg` (R46); a write of register 0x0 presents an op word (R90) -/
  | write (reg : BitVec 4) (value : Nat)
  /-- the host puts a byte into its memory (R60, R67) -/
  | poke (addr : Nat) (byte : Byte)
  /-- the host asserts reset (R250) -/
  | reset
  deriving DecidableEq, Repr

/-- The complete state of one instance (R20), and with it the two things of the host's that a step reads: the input
memory and the actions still to come. The register fields stand in R20's order. -/
structure State where
  /-- IPTR (R21): AW bits, held as a number (log entry 1), as are ILEN, SP and SL -/
  iptr  : Nat
  /-- ILEN (R22) -/
  ilen  : Nat
  /-- MODE (R23) -/
  mode  : Mode
  /-- SP (R24) -/
  sp    : Nat
  /-- SL (R25) -/
  sl    : Nat
  /-- NEG (R26) -/
  neg   : Bool
  /-- ERR (R27) -/
  err   : Half
  /-- ACC (R28) -/
  acc   : Wide
  /-- CW (R29) -/
  cw    : Wide
  /-- CN (R30) -/
  cn    : ChunkSize
  /-- CV (R30) -/
  cv    : Bool
  /-- LOW (R31) -/
  low   : Half
  /-- LN (R32) -/
  ln    : ChunkSize
  /-- LV (R32) -/
  lv    : Bool
  /-- FHI (R33) -/
  fhi   : Wide
  /-- FK (R34) -/
  fk    : BitVec 5
  /-- AV (R35) -/
  av    : Bool
  /-- PH (R36) -/
  ph    : Phase
  /-- RES (R37) -/
  res   : Wide
  /-- VALID (R38) -/
  valid : Bool
  /-- FAULT (R39) -/
  fault : FaultCode
  /-- FOP (R39) -/
  fop   : OpWord
  /-- KSEL (R41): the build of this instance; no op writes it -/
  ksel  : Config.Kernel16
  /-- AW (R7): the address width of this instance, a constant of it (R42 (c)); no op and no event writes it. Log entry 1 -/
  aw    : AddrWidth
  /-- IMEM (R60), the host's: strictly rising addresses, no entry that reads as a blank byte does -/
  imem  : List Host.Cell
  /-- The MODEL's own field: the host's actions still to come, oldest first (R42 (b), R90). Log entry 5 -/
  input : List HostEvent
  deriving DecidableEq, Repr

/-- The reasons a step stops the machine: none. The four faults of the DDU (R220) are states of it, entered by `raise`
(R226) and left by reset (R228), and a step into one is a next state; no rule of the spec ends a run. -/
inductive Fault where
  deriving DecidableEq, Repr

/-- The reasons a step is refused. -/
inductive Refusal where
  /-- An instruction without a meaning; raised by exec's refused arms only, of which there are none. Safe. -/
  | notModelled (mnemonic : String)
  deriving DecidableEq, Repr

/-- The registers after reset of an instance built with address width `aw` and 16-byte datapath `build`, the two parameters
that the host provides (R255): all 0 but KSEL (R51, R251). IMEM is blank and no host action is pending (log entries 3 and
5). -/
def State.resetFor (aw : AddrWidth) (build : Config.Kernel16) : State where
  iptr := 0
  ilen := 0
  mode := ⟨.w8, .plus⟩
  sp := 0
  sl := 0
  neg := false
  err := 0
  acc := 0
  cw := 0
  cn := .b1
  cv := false
  low := 0
  ln := .b1
  lv := false
  fhi := 0
  fk := 0
  av := false
  ph := .idle
  res := 0
  valid := false
  fault := .none
  fop := 0
  ksel := build
  aw := aw
  imem := []
  input := []

/-- The machine right after reset (R51, R251), for the default parameters (log entries 1 and 2). -/
def State.reset : State := State.resetFor Config.addrWidth Config.kernel16

end Sys2Proof.Machine
end

