-- ==== Sys2Proof/Machine/Operands.lean ====
section
/-! DEFINITION. The operands: what a size and a mode stand for (R84, R85, R190), the codes the host sees of them, the
chunk plan of the dispatcher (R192), and the bytes and lanes of a chunk word (R10). -/

namespace Sys2Proof.Machine

/-! ### The size operand (R84) -/

/-- n = 2^sz: the bytes of a chunk, or the digits of a fold (R84). -/
def chunkBytes (n : ChunkSize) : Nat :=
  match n with
  | .b1 => 1
  | .b2 => 2
  | .b4 => 4
  | .b8 => 8
  | .b16 => 16

/-- log2 n as CN and LN hold it (R30, R32). -/
def chunkCode (n : ChunkSize) : BitVec 3 :=
  match n with
  | .b1 => 0
  | .b2 => 1
  | .b4 => 2
  | .b8 => 3
  | .b16 => 4

/-! ### The mode operand (R85, R190) -/

/-- W (R190). -/
def widthBits (w : Width) : Nat :=
  match w with
  | .w8 => 8
  | .w16 => 16
  | .w32 => 32
  | .w64 => 64
  | .w128 => 128

/-- wsel (R85). -/
def widthCode (w : Width) : BitVec 3 :=
  match w with
  | .w8 => 0
  | .w16 => 1
  | .w32 => 2
  | .w64 => 3
  | .w128 => 4

/-- gsel (R85). -/
def grammarCode (g : Grammar) : BitVec 2 :=
  match g with
  | .plus => 0
  | .noPlus => 1
  | .signed => 2

/-- MODE as a number, `{wsel, gsel}` (R23, R48). -/
def modeCode (m : Mode) : BitVec 5 := widthCode m.width ++ grammarCode m.grammar

/-- W(MODE) (R190). -/
def modeW (m : Mode) : Nat := widthBits m.width

/-- PW(MODE): 64 for W ≤ 64, 128 for W = 128 (R7, R190). -/
def modePW (m : Mode) : Nat :=
  match m.width with
  | .w128 => 128
  | .w8 | .w16 | .w32 | .w64 => 64

/-- DMAX(MODE): the largest accepted digit count (R152, R190). -/
def modeDmax (m : Mode) : Nat :=
  match m.width, m.grammar with
  | .w8, _ => 3
  | .w16, _ => 5
  | .w32, _ => 10
  | .w64, .signed => 19
  | .w64, _ => 20
  | .w128, _ => 39

/-- LIMIT(MODE, NEG): the largest magnitude the mode accepts (R171). In an unsigned mode NEG is always 0 (R26); there the
limit does not look at it (log entry 13). -/
def modeLimit (m : Mode) (neg : Bool) : Nat :=
  match m.grammar with
  | .plus | .noPlus => 2 ^ modeW m - 1
  | .signed => if neg then 2 ^ (modeW m - 1) else 2 ^ (modeW m - 1) - 1

/-- The mode allows a leading '+': gsel 0 and 2 (R151, C7). -/
def allowsPlus (g : Grammar) : Bool :=
  match g with
  | .plus => true
  | .noPlus => false
  | .signed => true

/-- The mode allows a leading '-': gsel 2 only (R151). -/
def allowsMinus (g : Grammar) : Bool :=
  match g with
  | .plus => false
  | .noPlus => false
  | .signed => true

/-! ### The codes of PH, FAULT and KSEL (R36, R39, R41) -/

/-- PH as a number (R36). -/
def phaseCode (p : Phase) : BitVec 3 :=
  match p with
  | .idle => 0
  | .sign => 1
  | .norm => 2
  | .run => 3
  | .checked => 4
  | .failed => 5
  | .done => 6
  | .halt => 7

/-- FAULT as a number (R220). -/
def faultNumber (c : FaultCode) : BitVec 4 :=
  match c with
  | .none => 0
  | .underrun => 1
  | .illop => 2
  | .seq => 3
  | .span => 4

/-- KSEL as a bit (R41). -/
def kselBit (k : Config.Kernel16) : Bool :=
  match k with
  | .scalar => false
  | .vectorized => true

/-! ### The chunk plan (R192) -/

/-- PLAN(n): as many 16s as fit, then an 8, a 4, a 2 and a 1 by the low four bits of n (R192). -/
def plan (n : Nat) : List ChunkSize :=
  List.replicate (n / 16) .b16
    ++ (if n.testBit 3 then [.b8] else [])
    ++ (if n.testBit 2 then [.b4] else [])
    ++ (if n.testBit 1 then [.b2] else [])
    ++ (if n.testBit 0 then [.b1] else [])

/-! ### Lanes (R9, R10) -/

/-- `rep_n(b)`: the 8n-bit value whose n bytes all equal b (R9). -/
def rep (n : Nat) (b : Byte) : BitVec (8 * n) := b.replicate n

/-- Lane i of a word: bits `[8i+7 : 8i]` (R10). -/
def lane {w : Nat} (v : BitVec w) (i : Nat) : Byte := v.extractLsb' (8 * i) 8

end Sys2Proof.Machine
end

