-- ==== Sys2Proof/Machine/Ops.lean ====
section
/-! DEFINITION. The operations every instruction is made of: reading and writing IMEM (R60, R64, R67), taking a fault
(R226), leaving it by reset (R250, R251), and the frame of an op (R223, R225, R227). -/

namespace Sys2Proof.Machine

/-! ### IMEM: a list of cells in one canonical form -/

/-- The form of an IMEM list: addresses strictly rising and inside the address space (R60), and no entry that equals what
an unlisted address reads as. -/
def imemWf (aw : AddrWidth) : List Host.Cell → Bool
  | [] => true
  | c :: rest =>
    decide (c.1 < 2 ^ aw.bits) && decide (c.2 ≠ Config.imemBlank)
      && rest.all (fun d => decide (c.1 < d.1)) && imemWf aw rest

/-- What the list holds at an address. -/
def imemRead : List Host.Cell → Nat → Byte
  | [], _ => Config.imemBlank
  | c :: rest, a => if c.1 = a then c.2 else imemRead rest a

/-- `IMEM[a]` (R11, R60). An address has AW bits: the number a is taken modulo 2^AW (R9; log entry 7). -/
def imemByte (aw : AddrWidth) (m : List Host.Cell) (a : Nat) : Byte := imemRead m (a % 2 ^ aw.bits)

/-- Remove the entry of an address: it then reads as a blank byte. -/
def imemErase : List Host.Cell → Nat → List Host.Cell
  | [], _ => []
  | c :: rest, a => if c.1 = a then rest else c :: imemErase rest a

/-- Put an entry in its place by address, in place of an entry of that address. -/
def imemInsert : List Host.Cell → Nat → Byte → List Host.Cell
  | [], a, b => [(a, b)]
  | c :: rest, a, b =>
    if a < c.1 then (a, b) :: c :: rest
    else if a = c.1 then (a, b) :: rest
    else c :: imemInsert rest a b

/-- The host puts byte b at address a (R60, R67); a blank byte is not listed. The DDU itself never writes (R61). Of
a wider address the low AW bits are taken (log entry 6). -/
def imemPoke (aw : AddrWidth) (m : List Host.Cell) (a : Nat) (b : Byte) : List Host.Cell :=
  if b = Config.imemBlank then imemErase m (a % 2 ^ aw.bits) else imemInsert m (a % 2 ^ aw.bits) b

/-- `zext_128(MemRead(addr, n))`, n ≤ 16: byte i of the chunk, at address a + i, is lane i of the word (R11, R64). -/
def memRead (aw : AddrWidth) (m : List Host.Cell) (a : Nat) : Nat → Wide
  | 0 => 0
  | n + 1 => (imemByte aw m a).setWidth 128 ||| memRead aw m (a + 1) n <<< 8

/-! ### Taking a fault, and reset -/

/-- `raise F(op)` (R226): FAULT, FOP and PH are written and nothing else. -/
def raise (c : FaultCode) (w : OpWord) (s : State) : State :=
  { s with fault := c, fop := w, ph := .halt }

/-- Reset as the host asserts it (R250, R251): every register takes its reset value, IMEM is untouched, and the host goes
on with its actions. AW and KSEL are the instance's build parameters, which are the values the state holds (R41,
R42; log entry 9). -/
def resetAll (s : State) : State :=
  { State.resetFor s.aw s.ksel with imem := s.imem, input := s.input }

/-! ### The frame of an op -/

/-- What every legal op word does first: at HALT it is ignored (R227); when it is not legal in the phase and tag state it
raises F_SEQ (R223), before any other fault (R225); else it acts. -/
def sequenced (w : OpWord) (legal : Bool) (act : State → State) (s : State) : State :=
  if s.ph = .halt then s
  else if legal then act s
  else raise .seq w s

/-- What a reserved op word does: F_ILLOP in every phase but HALT (R86, R222, R227). -/
def illegalOp (w : OpWord) (s : State) : State :=
  if s.ph = .halt then s else raise .illop w s

/-! ### The span -/

/-- Consume n bytes from the front of a span that holds at least n: SP and SL move by n, SP modulo 2^AW (R9, R24, R25). -/
def advance (n : Nat) (s : State) : State :=
  { s with sp := (s.sp + n) % 2 ^ s.aw.bits, sl := s.sl - n }

/-- The span the host asks for runs past the last address of IMEM (R69, R224): the sum as unbounded integers. -/
def spanWraps (s : State) : Bool := decide (2 ^ s.aw.bits < s.iptr + s.ilen)

end Sys2Proof.Machine
end

