-- ==== Sys2Proof/Machine/Flags.lean ====
section
/-! DEFINITION. The flag computations: the legality conditions over PH and the tags (R223), the error word of the
decoder (R112, R131) and the overflow outcome of the boundary check (R172). -/

namespace Sys2Proof.Machine

/-! ### Legality (R223) -/

/-- `begin.m`, `parse.m`: between calls. -/
def beginLegal (s : State) : Bool := s.ph == .idle || s.ph == .done
/-- `sgn` -/
def sgnLegal (s : State) : Bool := s.ph == .sign
/-- `nrm` -/
def nrmLegal (s : State) : Bool := s.ph == .norm
/-- `rd.n`: the previous chunk, if any, has been decoded. -/
def rdLegal (s : State) : Bool := s.ph == .run && !s.cv
/-- `dec.n`: a chunk of the same size waits, and the previous value has been consumed. -/
def decLegal (n : ChunkSize) (s : State) : Bool := s.ph == .run && s.cv && s.cn == n && !s.lv
/-- `take`: a value waits and none has been taken in this call. -/
def takeLegal (s : State) : Bool := s.ph == .run && s.lv && !s.av
/-- `fold.k`: a value of k digits waits and ACC is loaded. -/
def foldLegal (k : ChunkSize) (s : State) : Bool := s.ph == .run && s.lv && s.ln == k && s.av
/-- `chk`: nothing in flight, something taken, the whole span consumed. -/
def chkLegal (s : State) : Bool := s.ph == .run && !s.cv && !s.lv && s.av && s.sl == 0
/-- `fin`: the check is done, or the length failed. -/
def finLegal (s : State) : Bool := s.ph == .checked || s.ph == .failed

/-! ### The error word of the decoder -/

/-- Step 1 of the kernel, digit extraction: XOR with '0' in every lane (R111). -/
def digitLanes (n : Nat) (w : BitVec (8 * n)) : BitVec (8 * n) := w ^^^ rep n 0x30

/-- `kerr_n(w)`: the validity formula over the whole word, the carries crossing the lanes (R112, C3). -/
def kerr (n : Nat) (w : BitVec (8 * n)) : BitVec (8 * n) :=
  let x := digitLanes n w
  (x ||| (x + rep n 0x06)) &&& rep n 0xF0

/-- The error bits `dec.n` ORs into ERR, zero-extended to 64 bits (R124); for 16 bytes the OR of the two halves' words
(R131). -/
def chunkErr (n : ChunkSize) (cw : Wide) : Half :=
  match n with
  | .b1 => (kerr 1 (cw.extractLsb' 0 8)).setWidth 64
  | .b2 => (kerr 2 (cw.extractLsb' 0 16)).setWidth 64
  | .b4 => (kerr 4 (cw.extractLsb' 0 32)).setWidth 64
  | .b8 => kerr 8 (cw.extractLsb' 0 64)
  | .b16 => kerr 8 (cw.extractLsb' 0 64) ||| kerr 8 (cw.extractLsb' 64 64)

/-! ### The overflow outcome -/

/-- M = FHI * 10^FK + LOW as an unbounded integer (R172); FK = 0 gives FHI + LOW, and FHI is 0 then. -/
def magnitude (s : State) : Nat := s.fhi.toNat * 10 ^ s.fk.toNat + s.low.toNat

/-- ovf: M is above LIMIT(MODE, NEG) (R172). -/
def overflows (s : State) : Bool := decide (modeLimit s.mode s.neg < magnitude s)

end Sys2Proof.Machine
end

