-- ==== Sys2Proof/Machine/Call.lean ====
section
/-! DEFINITION. Call start, sign and normalisation: `begin.m`, `sgn`, `nrm` (R150 to R153). Every `perform` operation
takes the op word that FOP would record: its own when the host presents it, the `parse.m` word when `parse.m` performs
it (R196). -/

namespace Sys2Proof.Machine

/-! ### begin -/

/-- The start values of a call (R45, R150). -/
def startCall (m : Mode) (s : State) : State :=
  { s with
    mode := m, sp := s.iptr, sl := s.ilen, neg := false, err := 0, acc := 0,
    cw := 0, cn := .b1, cv := false, low := 0, ln := .b1, lv := false,
    fhi := 0, fk := 0, av := false, res := 0, valid := false, ph := .sign }

/-- `begin.m` (R150): legal between calls, F_SPAN when the span would wrap (R224). -/
def performBegin (m : Mode) (w : OpWord) (s : State) : State :=
  sequenced w (beginLegal s) (fun s => if spanWraps s then raise .span w s else startCall m s) s

/-! ### sgn -/

/-- Step 1 of the dispatcher (R151): consume one sign byte the mode allows, from the very front. -/
def consumeSign (s : State) : State :=
  if s.sl = 0 then { s with ph := .norm }
  else if imemByte s.aw s.imem s.sp = 0x2D && allowsMinus s.mode.grammar then
    { advance 1 s with neg := true, ph := .norm }
  else if imemByte s.aw s.imem s.sp = 0x2B && allowsPlus s.mode.grammar then
    { advance 1 s with ph := .norm }
  else { s with ph := .norm }

/-- `sgn` (R151). -/
def performSgn (w : OpWord) (s : State) : State := sequenced w (sgnLegal s) consumeSign s

/-! ### nrm -/

/-- How many bytes the loop of `nrm` strips: leading '0' bytes from address a on, at most `excess` of them, `excess` being
by how many bytes the span is longer than DMAX (R153). -/
def leadingZeros (aw : AddrWidth) (m : List Host.Cell) : Nat → Nat → Nat
  | 0, _ => 0
  | excess + 1, a => if imemByte aw m a = 0x30 then leadingZeros aw m excess (a + 1) + 1 else 0

/-- Step 2 of the dispatcher (R153): strip leading zeros while the span is too long, then accept the length or fail. -/
def normalise (s : State) : State :=
  let d := modeDmax s.mode
  let t := advance (leadingZeros s.aw s.imem (s.sl - d) s.sp) s
  { t with ph := if t.sl = 0 ∨ d < t.sl then .failed else .run }

/-- `nrm` (R153). -/
def performNrm (w : OpWord) (s : State) : State := sequenced w (nrmLegal s) normalise s

/-! ### The instructions -/

/-- `sgn`, word 0x01 (R151). -/
def execSgn (s : State) : Host.Outcome State Fault Refusal := .next (performSgn (encode .sgn) s)

/-- `nrm`, word 0x02 (R153). -/
def execNrm (s : State) : Host.Outcome State Fault Refusal := .next (performNrm (encode .nrm) s)

/-- `begin.u8`, word 0x80 (R150). -/
def execBeginU8 (s : State) : Host.Outcome State Fault Refusal := .next (performBegin ⟨.w8, .plus⟩ (encode .beginU8) s)

/-- `begin.u8np`, word 0x81 (R150). -/
def execBeginU8np (s : State) : Host.Outcome State Fault Refusal := .next (performBegin ⟨.w8, .noPlus⟩ (encode .beginU8np) s)

/-- `begin.i8`, word 0x82 (R150). -/
def execBeginI8 (s : State) : Host.Outcome State Fault Refusal := .next (performBegin ⟨.w8, .signed⟩ (encode .beginI8) s)

/-- `begin.u16`, word 0x84 (R150). -/
def execBeginU16 (s : State) : Host.Outcome State Fault Refusal := .next (performBegin ⟨.w16, .plus⟩ (encode .beginU16) s)

/-- `begin.u16np`, word 0x85 (R150). -/
def execBeginU16np (s : State) : Host.Outcome State Fault Refusal := .next (performBegin ⟨.w16, .noPlus⟩ (encode .beginU16np) s)

/-- `begin.i16`, word 0x86 (R150). -/
def execBeginI16 (s : State) : Host.Outcome State Fault Refusal := .next (performBegin ⟨.w16, .signed⟩ (encode .beginI16) s)

/-- `begin.u32`, word 0x88 (R150). -/
def execBeginU32 (s : State) : Host.Outcome State Fault Refusal := .next (performBegin ⟨.w32, .plus⟩ (encode .beginU32) s)

/-- `begin.u32np`, word 0x89 (R150). -/
def execBeginU32np (s : State) : Host.Outcome State Fault Refusal := .next (performBegin ⟨.w32, .noPlus⟩ (encode .beginU32np) s)

/-- `begin.i32`, word 0x8A (R150). -/
def execBeginI32 (s : State) : Host.Outcome State Fault Refusal := .next (performBegin ⟨.w32, .signed⟩ (encode .beginI32) s)

/-- `begin.u64`, word 0x8C (R150). -/
def execBeginU64 (s : State) : Host.Outcome State Fault Refusal := .next (performBegin ⟨.w64, .plus⟩ (encode .beginU64) s)

/-- `begin.u64np`, word 0x8D (R150). -/
def execBeginU64np (s : State) : Host.Outcome State Fault Refusal := .next (performBegin ⟨.w64, .noPlus⟩ (encode .beginU64np) s)

/-- `begin.i64`, word 0x8E (R150). -/
def execBeginI64 (s : State) : Host.Outcome State Fault Refusal := .next (performBegin ⟨.w64, .signed⟩ (encode .beginI64) s)

/-- `begin.u128`, word 0x90 (R150). -/
def execBeginU128 (s : State) : Host.Outcome State Fault Refusal := .next (performBegin ⟨.w128, .plus⟩ (encode .beginU128) s)

/-- `begin.u128np`, word 0x91 (R150). -/
def execBeginU128np (s : State) : Host.Outcome State Fault Refusal := .next (performBegin ⟨.w128, .noPlus⟩ (encode .beginU128np) s)

/-- `begin.i128`, word 0x92 (R150). -/
def execBeginI128 (s : State) : Host.Outcome State Fault Refusal := .next (performBegin ⟨.w128, .signed⟩ (encode .beginI128) s)

end Sys2Proof.Machine
end

