-- ==== Sys2Proof/Machine/Detector.lean ====
section
/-! DEFINITION. The overflow detector and the result: `chk` and `fin` (R170 to R178). -/

namespace Sys2Proof.Machine

/-- The one boundary check: its outcome is ORed into bit 0 of ERR (R172). -/
def checkBound (s : State) : State :=
  { s with err := s.err ||| (BitVec.ofBool (overflows s)).setWidth 64, ph := .checked }

/-- `chk` (R172). -/
def performChk (w : OpWord) (s : State) : State := sequenced w (chkLegal s) checkBound s

/-- The W-bit encoding of the result, zero-extended (R176): XOR of the magnitude with the sign mask, plus 1 when the
mask is all ones, modulo 2^W. -/
def encodeResult (W : Nat) (neg : Bool) (acc : Wide) : Wide :=
  let mag : BitVec W := acc.setWidth W
  let mask : BitVec W := if neg then BitVec.allOnes W else 0
  ((mag ^^^ mask) + (BitVec.ofBool neg).setWidth W).setWidth 128

/-- End the call (R176): a result when the check was reached with ERR = 0, else the one invalid outcome (R178). -/
def finish (s : State) : State :=
  if s.ph = .checked ∧ s.err = 0 then
    { s with res := encodeResult (modeW s.mode) s.neg s.acc, valid := true, ph := .done }
  else { s with res := 0, valid := false, ph := .done }

/-- `fin` (R176): legal at CHECKED and at FAILED. -/
def performFin (w : OpWord) (s : State) : State := sequenced w (finLegal s) finish s

/-- `chk`, word 0x04 (R172). -/
def execChk (s : State) : Host.Outcome State Fault Refusal := .next (performChk (encode .chk) s)

/-- `fin`, word 0x05 (R176). -/
def execFin (s : State) : Host.Outcome State Fault Refusal := .next (performFin (encode .fin) s)

end Sys2Proof.Machine
end

