-- ==== Sys2Proof/Machine/Fold.lean ====
section
/-! DEFINITION. The fold/combine multiplier: `take` and `fold.1` to `fold.16` (R140 to R149). -/

namespace Sys2Proof.Machine

/-- The first chunk's value becomes the partial value; FK = 0 records that nothing was folded (R141). -/
def takeValue (s : State) : State :=
  { s with acc := s.low.setWidth 128, fhi := 0, fk := 0, lv := false, av := true }

/-- `take` (R141). The size of the chunk is not checked. -/
def performTake (w : OpWord) (s : State) : State := sequenced w (takeLegal s) takeValue s

/-- ACC * 10^k + LOW, modulo 2^PW (R147, R149). -/
def foldedAcc (k : ChunkSize) (s : State) : Wide :=
  BitVec.ofNat 128 ((s.acc.toNat * 10 ^ chunkBytes k + s.low.toNat) % 2 ^ modePW s.mode)

/-- Latch the high operand and k for the detector (R148), then fold (R149). -/
def foldValue (k : ChunkSize) (s : State) : State :=
  { s with fhi := s.acc, fk := BitVec.ofNat 5 (chunkBytes k), acc := foldedAcc k s, lv := false }

/-- `fold.k` (R149). -/
def performFold (k : ChunkSize) (w : OpWord) (s : State) : State :=
  sequenced w (foldLegal k s) (foldValue k) s

/-- `take`, word 0x03 (R141). -/
def execTake (s : State) : Host.Outcome State Fault Refusal := .next (performTake (encode .take) s)

/-- `fold.1`, word 0x60 (R142). -/
def execFold1 (s : State) : Host.Outcome State Fault Refusal := .next (performFold .b1 (encode .fold1) s)

/-- `fold.2`, word 0x61 (R143). -/
def execFold2 (s : State) : Host.Outcome State Fault Refusal := .next (performFold .b2 (encode .fold2) s)

/-- `fold.4`, word 0x62 (R144). -/
def execFold4 (s : State) : Host.Outcome State Fault Refusal := .next (performFold .b4 (encode .fold4) s)

/-- `fold.8`, word 0x63 (R145). -/
def execFold8 (s : State) : Host.Outcome State Fault Refusal := .next (performFold .b8 (encode .fold8) s)

/-- `fold.16`, word 0x64 (R146). -/
def execFold16 (s : State) : Host.Outcome State Fault Refusal := .next (performFold .b16 (encode .fold16) s)

end Sys2Proof.Machine
end

