-- ==== Sys2Proof/Machine/Kernel.lean ====
section
/-! DEFINITION. The digit-decode kernels: `dec.1`, `dec.2`, `dec.4`, `dec.8` (R110 to R124) and `dec.16` (R130 to R133).
The value functions are the reference datapath of R115 to R118 and R131, the spec's default also on a word with a
non-digit (R119, U1; log entry 8). -/

namespace Sys2Proof.Machine

/-- `kval_1` (R115). -/
def kval1 (w : BitVec 8) : BitVec 8 := digitLanes 1 w

/-- `kval_2` (R116): modulo 2^16, 2561 = 10 * 2^8 + 1. -/
def kval2 (w : BitVec 16) : BitVec 16 :=
  let x : BitVec 16 := digitLanes 2 w
  (x * 2561) >>> 8

/-- `kval_4` (R117): modulo 2^32, 6553601 = 100 * 2^16 + 1. -/
def kval4 (w : BitVec 32) : BitVec 32 :=
  let x : BitVec 32 := digitLanes 4 w
  let y1 := (x * 2561) >>> 8
  ((y1 &&& 0x00FF00FF) * 6553601) >>> 16

/-- `kval_8` (R118): modulo 2^64, 42949672960001 = 10000 * 2^32 + 1. -/
def kval8 (w : BitVec 64) : BitVec 64 :=
  let x : BitVec 64 := digitLanes 8 w
  let y1 := (x * 2561) >>> 8
  let y2 := ((y1 &&& 0x00FF00FF00FF00FF) * 6553601) >>> 16
  ((y2 &&& 0x0000FFFF0000FFFF) * 42949672960001) >>> 32

/-- `kval_16` (R131): the low half of the word holds the eight most significant digits; 64 bits wide in every mode, and
the same for both builds of the datapath (R132). -/
def kval16 (w : BitVec 128) : BitVec 64 :=
  kval8 (w.extractLsb' 0 64) * 100000000 + kval8 (w.extractLsb' 64 64)

/-- `zext_64(kval_n(CW[8n-1:0]))` (R124). -/
def chunkVal (n : ChunkSize) (cw : Wide) : Half :=
  match n with
  | .b1 => (kval1 (cw.extractLsb' 0 8)).setWidth 64
  | .b2 => (kval2 (cw.extractLsb' 0 16)).setWidth 64
  | .b4 => (kval4 (cw.extractLsb' 0 32)).setWidth 64
  | .b8 => kval8 (cw.extractLsb' 0 64)
  | .b16 => kval16 cw

/-- Decode the chunk in CW: the value to LOW, the error bits ORed into ERR (R124). -/
def decodeChunk (n : ChunkSize) (s : State) : State :=
  { s with low := chunkVal n s.cw, err := s.err ||| chunkErr n s.cw, ln := n, lv := true, cv := false }

/-- `dec.n` (R124, R133): F_SEQ only; never a fault on data. -/
def performDec (n : ChunkSize) (w : OpWord) (s : State) : State :=
  sequenced w (decLegal n s) (decodeChunk n) s

/-- `dec.1`, word 0x40 (R120). -/
def execDec1 (s : State) : Host.Outcome State Fault Refusal := .next (performDec .b1 (encode .dec1) s)

/-- `dec.2`, word 0x41 (R121). -/
def execDec2 (s : State) : Host.Outcome State Fault Refusal := .next (performDec .b2 (encode .dec2) s)

/-- `dec.4`, word 0x42 (R122). -/
def execDec4 (s : State) : Host.Outcome State Fault Refusal := .next (performDec .b4 (encode .dec4) s)

/-- `dec.8`, word 0x43 (R123). -/
def execDec8 (s : State) : Host.Outcome State Fault Refusal := .next (performDec .b8 (encode .dec8) s)

/-- `dec.16`, word 0x44 (R133). -/
def execDec16 (s : State) : Host.Outcome State Fault Refusal := .next (performDec .b16 (encode .dec16) s)

end Sys2Proof.Machine
end

