-- ==== Sys2Proof/Machine/Reader.lean ====
section
/-! DEFINITION. The chunk reader: `rd.1`, `rd.2`, `rd.4`, `rd.8`, `rd.16` (R100 to R106). -/

namespace Sys2Proof.Machine

/-- Load the n bytes at the front of the span into CW, little-endian and zero-extended, and advance the span (R106). -/
def loadChunk (n : ChunkSize) (s : State) : State :=
  { advance (chunkBytes n) s with cw := memRead s.aw s.imem s.sp (chunkBytes n), cn := n, cv := true }

/-- `rd.n` (R106): F_SEQ first, then F_UNDERRUN when fewer than n bytes are left (R221, R225). -/
def performRd (n : ChunkSize) (w : OpWord) (s : State) : State :=
  sequenced w (rdLegal s)
    (fun s => if s.sl < chunkBytes n then raise .underrun w s else loadChunk n s) s

/-- `rd.1`, word 0x20 (R101). -/
def execRd1 (s : State) : Host.Outcome State Fault Refusal := .next (performRd .b1 (encode .rd1) s)

/-- `rd.2`, word 0x21 (R102). -/
def execRd2 (s : State) : Host.Outcome State Fault Refusal := .next (performRd .b2 (encode .rd2) s)

/-- `rd.4`, word 0x22 (R103). -/
def execRd4 (s : State) : Host.Outcome State Fault Refusal := .next (performRd .b4 (encode .rd4) s)

/-- `rd.8`, word 0x23 (R104). -/
def execRd8 (s : State) : Host.Outcome State Fault Refusal := .next (performRd .b8 (encode .rd8) s)

/-- `rd.16`, word 0x24 (R105). -/
def execRd16 (s : State) : Host.Outcome State Fault Refusal := .next (performRd .b16 (encode .rd16) s)

end Sys2Proof.Machine
end

