-- ==== Sys2Proof/Machine/Parse.lean ====
section
/-! DEFINITION. The length dispatcher: `parse.m`, a whole call in one op (R194, R196), in its fifteen modes (R197 to
R211). -/

namespace Sys2Proof.Machine

/-- Parse the first chunk into ACC: `rd.n`, `dec.n`, `take` (R194; the pseudo-op `ldc.n` of R89). -/
def performLoad (n : ChunkSize) (w : OpWord) (s : State) : State :=
  performTake w (performDec n w (performRd n w s))

/-- Parse a further chunk and fold it: `rd.n`, `dec.n`, `fold.n` (R194; the pseudo-op `fld.n` of R89). -/
def performFurther (n : ChunkSize) (w : OpWord) (s : State) : State :=
  performFold n w (performDec n w (performRd n w s))

/-- The chunks of a plan in order: the first is taken, the later ones are folded (R194). -/
def performPlan (w : OpWord) (p : List ChunkSize) (s : State) : State :=
  match p with
  | [] => s
  | n :: rest => rest.foldl (fun s n => performFurther n w s) (performLoad n w s)

/-- The part of `parse.m` after `nrm` (R194): when the length was accepted, the plan of the SL that `nrm` left, then the
check. -/
def performDigits (w : OpWord) (s : State) : State :=
  if s.ph = .run then performChk w (performPlan w (plan s.sl) s) else s

/-- `parse.m` (R194): the constituent ops in order, each applied to the current state. A fault of the `begin` step records
the `parse.m` word and leaves HALT, where every later op is ignored (R196, R227). -/
def performParse (m : Mode) (w : OpWord) (s : State) : State :=
  performFin w (performDigits w (performNrm w (performSgn w (performBegin m w s))))

/-- `parse.u8`, word 0xA0 (R197). -/
def execParseU8 (s : State) : Host.Outcome State Fault Refusal := .next (performParse ⟨.w8, .plus⟩ (encode .parseU8) s)

/-- `parse.u8np`, word 0xA1 (R198). -/
def execParseU8np (s : State) : Host.Outcome State Fault Refusal := .next (performParse ⟨.w8, .noPlus⟩ (encode .parseU8np) s)

/-- `parse.i8`, word 0xA2 (R199). -/
def execParseI8 (s : State) : Host.Outcome State Fault Refusal := .next (performParse ⟨.w8, .signed⟩ (encode .parseI8) s)

/-- `parse.u16`, word 0xA4 (R200). -/
def execParseU16 (s : State) : Host.Outcome State Fault Refusal := .next (performParse ⟨.w16, .plus⟩ (encode .parseU16) s)

/-- `parse.u16np`, word 0xA5 (R201). -/
def execParseU16np (s : State) : Host.Outcome State Fault Refusal := .next (performParse ⟨.w16, .noPlus⟩ (encode .parseU16np) s)

/-- `parse.i16`, word 0xA6 (R202). -/
def execParseI16 (s : State) : Host.Outcome State Fault Refusal := .next (performParse ⟨.w16, .signed⟩ (encode .parseI16) s)

/-- `parse.u32`, word 0xA8 (R203). -/
def execParseU32 (s : State) : Host.Outcome State Fault Refusal := .next (performParse ⟨.w32, .plus⟩ (encode .parseU32) s)

/-- `parse.u32np`, word 0xA9 (R204). -/
def execParseU32np (s : State) : Host.Outcome State Fault Refusal := .next (performParse ⟨.w32, .noPlus⟩ (encode .parseU32np) s)

/-- `parse.i32`, word 0xAA (R205). -/
def execParseI32 (s : State) : Host.Outcome State Fault Refusal := .next (performParse ⟨.w32, .signed⟩ (encode .parseI32) s)

/-- `parse.u64`, word 0xAC (R206). -/
def execParseU64 (s : State) : Host.Outcome State Fault Refusal := .next (performParse ⟨.w64, .plus⟩ (encode .parseU64) s)

/-- `parse.u64np`, word 0xAD (R207). -/
def execParseU64np (s : State) : Host.Outcome State Fault Refusal := .next (performParse ⟨.w64, .noPlus⟩ (encode .parseU64np) s)

/-- `parse.i64`, word 0xAE (R208). -/
def execParseI64 (s : State) : Host.Outcome State Fault Refusal := .next (performParse ⟨.w64, .signed⟩ (encode .parseI64) s)

/-- `parse.u128`, word 0xB0 (R209). -/
def execParseU128 (s : State) : Host.Outcome State Fault Refusal := .next (performParse ⟨.w128, .plus⟩ (encode .parseU128) s)

/-- `parse.u128np`, word 0xB1 (R210). -/
def execParseU128np (s : State) : Host.Outcome State Fault Refusal := .next (performParse ⟨.w128, .noPlus⟩ (encode .parseU128np) s)

/-- `parse.i128`, word 0xB2 (R211). -/
def execParseI128 (s : State) : Host.Outcome State Fault Refusal := .next (performParse ⟨.w128, .signed⟩ (encode .parseI128) s)

end Sys2Proof.Machine
end

