-- ==== Sys2Proof/Machine/Dispatch.lean ====
section
/-! DEFINITION. The dispatch of an instruction to its meaning: one arm per row of the opcode table. -/

namespace Sys2Proof.Machine

def exec (i : Instr) (s : State) : Host.Outcome State Fault Refusal :=
  match i with
  | .sgn => Sys2Proof.Machine.execSgn s
  | .nrm => Sys2Proof.Machine.execNrm s
  | .take => Sys2Proof.Machine.execTake s
  | .chk => Sys2Proof.Machine.execChk s
  | .fin => Sys2Proof.Machine.execFin s
  | .rd1 => Sys2Proof.Machine.execRd1 s
  | .rd2 => Sys2Proof.Machine.execRd2 s
  | .rd4 => Sys2Proof.Machine.execRd4 s
  | .rd8 => Sys2Proof.Machine.execRd8 s
  | .rd16 => Sys2Proof.Machine.execRd16 s
  | .dec1 => Sys2Proof.Machine.execDec1 s
  | .dec2 => Sys2Proof.Machine.execDec2 s
  | .dec4 => Sys2Proof.Machine.execDec4 s
  | .dec8 => Sys2Proof.Machine.execDec8 s
  | .dec16 => Sys2Proof.Machine.execDec16 s
  | .fold1 => Sys2Proof.Machine.execFold1 s
  | .fold2 => Sys2Proof.Machine.execFold2 s
  | .fold4 => Sys2Proof.Machine.execFold4 s
  | .fold8 => Sys2Proof.Machine.execFold8 s
  | .fold16 => Sys2Proof.Machine.execFold16 s
  | .beginU8 => Sys2Proof.Machine.execBeginU8 s
  | .beginU8np => Sys2Proof.Machine.execBeginU8np s
  | .beginI8 => Sys2Proof.Machine.execBeginI8 s
  | .beginU16 => Sys2Proof.Machine.execBeginU16 s
  | .beginU16np => Sys2Proof.Machine.execBeginU16np s
  | .beginI16 => Sys2Proof.Machine.execBeginI16 s
  | .beginU32 => Sys2Proof.Machine.execBeginU32 s
  | .beginU32np => Sys2Proof.Machine.execBeginU32np s
  | .beginI32 => Sys2Proof.Machine.execBeginI32 s
  | .beginU64 => Sys2Proof.Machine.execBeginU64 s
  | .beginU64np => Sys2Proof.Machine.execBeginU64np s
  | .beginI64 => Sys2Proof.Machine.execBeginI64 s
  | .beginU128 => Sys2Proof.Machine.execBeginU128 s
  | .beginU128np => Sys2Proof.Machine.execBeginU128np s
  | .beginI128 => Sys2Proof.Machine.execBeginI128 s
  | .parseU8 => Sys2Proof.Machine.execParseU8 s
  | .parseU8np => Sys2Proof.Machine.execParseU8np s
  | .parseI8 => Sys2Proof.Machine.execParseI8 s
  | .parseU16 => Sys2Proof.Machine.execParseU16 s
  | .parseU16np => Sys2Proof.Machine.execParseU16np s
  | .parseI16 => Sys2Proof.Machine.execParseI16 s
  | .parseU32 => Sys2Proof.Machine.execParseU32 s
  | .parseU32np => Sys2Proof.Machine.execParseU32np s
  | .parseI32 => Sys2Proof.Machine.execParseI32 s
  | .parseU64 => Sys2Proof.Machine.execParseU64 s
  | .parseU64np => Sys2Proof.Machine.execParseU64np s
  | .parseI64 => Sys2Proof.Machine.execParseI64 s
  | .parseU128 => Sys2Proof.Machine.execParseU128 s
  | .parseU128np => Sys2Proof.Machine.execParseU128np s
  | .parseI128 => Sys2Proof.Machine.execParseI128 s

end Sys2Proof.Machine
end

