-- ==== Sys2Proof/Machine/HostPort.lean ====
section
/-! DEFINITION. The host's side: the op port (R90), the register file (R46 to R50), the bytes of IMEM (R60) and reset
(R250). -/

namespace Sys2Proof.Machine

/-! ### The op port -/

/-- The host presents one op word (R90): decode it (R91), then run it; a reserved word raises F_ILLOP (R222). -/
def presentOp (w : OpWord) (s : State) : Host.Outcome State Fault Refusal :=
  match decode w with
  | .ok i => exec i s
  | .error _ => .next (illegalOp w s)

/-! ### The register file -/

/-- STATUS (R47): PH 2:0, VALID 3, NEG 4, CV 5, LV 6, AV 7, FAULT 11:8, KSEL 12, 0 at 15:13, FOP 23:16, 0 at 31:24. -/
def statusView (s : State) : BitVec 32 :=
  0#8 ++ s.fop ++ 0#3 ++ BitVec.ofBool (kselBit s.ksel) ++ faultNumber s.fault ++ BitVec.ofBool s.av
    ++ BitVec.ofBool s.lv ++ BitVec.ofBool s.cv ++ BitVec.ofBool s.neg ++ BitVec.ofBool s.valid ++ phaseCode s.ph

/-- TAGS (R49): CN 2:0, LN 6:4, FK 12:8, the rest 0. -/
def tagsView (s : State) : BitVec 16 :=
  0#3 ++ s.fk ++ 0#1 ++ chunkCode s.ln ++ 0#1 ++ chunkCode s.cn

/-- A host read of a numbered register (R46), as a number. OP is write-only and reads 0; the two reserved registers read 0.
A read has no side effect (R50). -/
def hostRead (s : State) (reg : BitVec 4) : Nat :=
  match reg.toNat with
  | 0x1 => (statusView s).toNat
  | 0x2 => (modeCode s.mode).toNat
  | 0x3 => s.iptr
  | 0x4 => s.ilen
  | 0x5 => s.sp
  | 0x6 => s.sl
  | 0x7 => s.err.toNat
  | 0x8 => s.acc.toNat
  | 0x9 => s.low.toNat
  | 0xA => s.cw.toNat
  | 0xB => s.fhi.toNat
  | 0xC => (tagsView s).toNat
  | 0xD => s.res.toNat
  | _ => 0

/-- A host write (R46, R50): OP presents an op word, IPTR and ILEN take the value, a read-only or reserved register ignores
it. Of a value wider than the register the low bits are taken (log entry 6). -/
def hostWrite (reg : BitVec 4) (value : Nat) (s : State) : Host.Outcome State Fault Refusal :=
  match reg.toNat with
  | 0x0 => presentOp (BitVec.ofNat 8 value) s
  | 0x3 => .next { s with iptr := value % 2 ^ s.aw.bits }
  | 0x4 => .next { s with ilen := value % 2 ^ s.aw.bits }
  | _ => .next s

/-- One action of the host. -/
def applyEvent (e : HostEvent) (s : State) : Host.Outcome State Fault Refusal :=
  match e with
  | .write reg value => hostWrite reg value s
  | .poke addr byte => .next { s with imem := imemPoke s.aw s.imem addr byte }
  | .reset => .next (resetAll s)

/-- The event by which the host presents an op word (R46, R90). -/
def opEvent (w : OpWord) : HostEvent := .write 0 w.toNat

/-- The state with the host's next action taken off the input, and that action; none when the host has none to come. -/
def nextEvent (s : State) : Option (HostEvent × State) :=
  match s.input with
  | [] => none
  | e :: rest => some (e, { s with input := rest })

end Sys2Proof.Machine
end

