-- ==== Sys2Proof/Machine/Step.lean ====
section
/-! DEFINITION. One step of the machine: the next action of the host, which for an op word is one whole op (R90). -/

namespace Sys2Proof.Machine

/-- One step. The DDU fetches nothing from memory (R72): what it runs next is what the host presents next. With no action
to come it waits, its state as it is (R251; log entry 5). -/
def step (s : State) : Host.Outcome State Fault Refusal :=
  match nextEvent s with
  | none => .next s
  | some (e, t) => applyEvent e t

/-- s with the host about to present the op word w: the very next step runs it (log entry 5). -/
def State.withFetchWord (s : State) (_nbits w : Nat) : State :=
  { s with input := opEvent (BitVec.ofNat 8 w) :: s.input }

end Sys2Proof.Machine
end

