-- ==== Sys2Proof/Safety.lean ====
section
/-! DEFINITION. The terms claims are made in: the legality table (R223), lists of ops, the text of a span and its value,
the reference parser (R191, R195), and the invariant of the machine. Nothing here is used by the machine itself; the
legality table and the reference parser are written from the rules a second time, not from the machine's functions. -/

namespace Sys2Proof.Safety

open Sys2Proof.Machine

/-! ### Kinds of op -/

/-- `begin.m` and `parse.m`: the ops that start a call (R82, R150, R194). -/
def startsCall (i : Instr) : Bool := opMajor (encode i) == 4 || opMajor (encode i) == 5

/-- The ops that work on the digits of a call: `rd.n`, `dec.n`, `fold.k` (majors 1 to 3, R82) and `take`. -/
def isDigitOp (i : Instr) : Bool := (1 ≤ opMajor (encode i) && opMajor (encode i) ≤ 3) || encode i == 0x03

/-- The legality table (R223), row by row. -/
def legalIn (i : Instr) (s : State) : Prop :=
  match i with
  | .sgn => s.ph = .sign
  | .nrm => s.ph = .norm
  | .take => s.ph = .run ∧ s.lv = true ∧ s.av = false
  | .chk => s.ph = .run ∧ s.cv = false ∧ s.lv = false ∧ s.av = true ∧ s.sl = 0
  | .fin => s.ph = .checked ∨ s.ph = .failed
  | .rd1 | .rd2 | .rd4 | .rd8 | .rd16 => s.ph = .run ∧ s.cv = false
  | .dec1 => s.ph = .run ∧ s.cv = true ∧ s.cn = .b1 ∧ s.lv = false
  | .dec2 => s.ph = .run ∧ s.cv = true ∧ s.cn = .b2 ∧ s.lv = false
  | .dec4 => s.ph = .run ∧ s.cv = true ∧ s.cn = .b4 ∧ s.lv = false
  | .dec8 => s.ph = .run ∧ s.cv = true ∧ s.cn = .b8 ∧ s.lv = false
  | .dec16 => s.ph = .run ∧ s.cv = true ∧ s.cn = .b16 ∧ s.lv = false
  | .fold1 => s.ph = .run ∧ s.lv = true ∧ s.ln = .b1 ∧ s.av = true
  | .fold2 => s.ph = .run ∧ s.lv = true ∧ s.ln = .b2 ∧ s.av = true
  | .fold4 => s.ph = .run ∧ s.lv = true ∧ s.ln = .b4 ∧ s.av = true
  | .fold8 => s.ph = .run ∧ s.lv = true ∧ s.ln = .b8 ∧ s.av = true
  | .fold16 => s.ph = .run ∧ s.lv = true ∧ s.ln = .b16 ∧ s.av = true
  | .beginU8 | .beginU8np | .beginI8 | .beginU16 | .beginU16np | .beginI16
  | .beginU32 | .beginU32np | .beginI32 | .beginU64 | .beginU64np | .beginI64
  | .beginU128 | .beginU128np | .beginI128
  | .parseU8 | .parseU8np | .parseI8 | .parseU16 | .parseU16np | .parseI16
  | .parseU32 | .parseU32np | .parseI32 | .parseU64 | .parseU64np | .parseI64
  | .parseU128 | .parseU128np | .parseI128 => s.ph = .idle ∨ s.ph = .done

/-- A call may start: the phase is IDLE or DONE (R150) and the span fits below 2^AW (R69). -/
structure CanStart (s : State) : Prop where
  phase : s.ph = .idle ∨ s.ph = .done
  fits  : s.iptr + s.ilen ≤ 2 ^ s.aw.bits

/-! ### Lists of ops -/

/-- The ops of a list one after the other, stopping at the first that does not answer a next state. -/
def runOps : List Instr → State → Host.Outcome State Fault Refusal
  | [], s => .next s
  | i :: rest, s =>
    match exec i s with
    | .next t => runOps rest t
    | .fault f => .fault f
    | .refused r => .refused r

/-- `fld.n` (R89): read, decode and fold n digits. -/
def fldOps (n : ChunkSize) : List Instr := [rdOp n, decOp n, foldOp n]

/-- The ops of a plan: `ldc.n` for its first chunk, `fld.n` for each later one (R89, R194). -/
def planOps : List ChunkSize → List Instr
  | [] => []
  | n :: rest => [rdOp n, decOp n, .take] ++ rest.flatMap fldOps

/-- How many bytes a plan covers. -/
def planBytes (p : List ChunkSize) : Nat := (p.map chunkBytes).sum

/-- The state a presented op word leaves; the state itself if it answered none. -/
def afterWord (s : State) (w : OpWord) : State :=
  match presentOp w s with
  | .next t => t
  | .fault _ => s
  | .refused _ => s

/-! ### Texts and their values -/

/-- The n bytes of IMEM from address a on, first byte first. -/
def textAt (aw : AddrWidth) (m : List Host.Cell) (a : Nat) : Nat → List Byte
  | 0 => []
  | n + 1 => imemByte aw m a :: textAt aw m (a + 1) n

/-- The text the host asks to parse: the ILEN bytes from IPTR on (R60). -/
def inputText (s : State) : List Byte := textAt s.aw s.imem s.iptr s.ilen

/-- The bytes of the span not yet consumed (R24, R25). -/
def spanText (s : State) : List Byte := textAt s.aw s.imem s.sp s.sl

/-- The byte is in '0'..'9' (R8, R111). -/
def isDigit (b : Byte) : Bool := decide (0x30 ≤ b.toNat) && decide (b.toNat ≤ 0x39)

/-- The decimal value of a string of digits, the first the most significant (R10, R114). -/
def digitsValue (t : List Byte) : Nat := t.foldl (fun v b => v * 10 + (b.toNat - 0x30)) 0

/-- The lanes of the first n bytes of a chunk word, lane 0 first (R10). -/
def lanes (n : Nat) (w : Wide) : List Byte := (List.range n).map (fun i => lane w i)

/-! ### The reference parser (R191, R195) -/

/-- Take an optional sign off the front: '+' except in the no-plus grammar, '-' in the signed one; was it a '-'? (R191) -/
def splitSign (g : Grammar) (t : List Byte) : Bool × List Byte :=
  match g, t with
  | _, [] => (false, [])
  | .plus, b :: rest => if b = 0x2B then (false, rest) else (false, b :: rest)
  | .noPlus, b :: rest => (false, b :: rest)
  | .signed, b :: rest =>
    if b = 0x2D then (true, rest) else if b = 0x2B then (false, rest) else (false, b :: rest)

/-- The least and the greatest value of a mode: 0 .. 2^W - 1, or -2^(W-1) .. 2^(W-1) - 1 (R171, R195). -/
def minValue (m : Mode) : Int :=
  match m.grammar with
  | .plus => 0
  | .noPlus => 0
  | .signed => -2 ^ (widthBits m.width - 1)

/-- See `minValue`. -/
def maxValue (m : Mode) : Int :=
  match m.grammar with
  | .plus => 2 ^ widthBits m.width - 1
  | .noPlus => 2 ^ widthBits m.width - 1
  | .signed => 2 ^ (widthBits m.width - 1) - 1

/-- The reference decimal-grammar parser: the value of a text of the mode's language, if it is in the mode's range
(R191, R195). -/
def referenceParse (m : Mode) (t : List Byte) : Option Int :=
  let (negative, ds) := splitSign m.grammar t
  let v : Int := if negative then -(digitsValue ds : Int) else (digitsValue ds : Int)
  if ds ≠ [] ∧ ds.all isDigit = true ∧ minValue m ≤ v ∧ v ≤ maxValue m then some v else none

/-- v mod 2^W, zero-extended: the encoding of a value in RES (R37, R177, R195). -/
def encodedValue (m : Mode) (v : Int) : Wide := BitVec.ofNat 128 (v % 2 ^ widthBits m.width).toNat

/-- The outcome of a call is that of a reference result: VALID = 1 and the value in RES, or VALID = 0 and RES = 0 (R178,
R195). -/
def hasOutcome (m : Mode) (r : Option Int) (t : State) : Prop :=
  match r with
  | some v => t.valid = true ∧ t.res = encodedValue m v
  | none => t.valid = false ∧ t.res = 0

/-- format(v): the shortest decimal text of v, a leading '-' when it is negative, no '+' (R212). -/
def formatInt (v : Int) : List Byte :=
  (if v < 0 then [0x2D] else [])
    ++ (if v = 0 then [0x30] else (Nat.digits 10 v.natAbs).reverse.map (fun d => BitVec.ofNat 8 (0x30 + d)))

/-- The outcome for a digit string under a sign: the string is all digits and its value within LIMIT (R171, R174, R177). -/
def digitOutcome (m : Mode) (neg : Bool) (ds : List Byte) (t : State) : Prop :=
  if ds.all isDigit = true ∧ digitsValue ds ≤ modeLimit m neg then
    t.valid = true
      ∧ t.res.toNat = if neg then (2 ^ modeW m - digitsValue ds) % 2 ^ modeW m else digitsValue ds
  else t.valid = false ∧ t.res = 0

/-- Ready for a plan: `nrm` has accepted the length (R153), NEG is 1 in signed modes only (R26), and nothing has been read
yet in this call. -/
structure ReadyToPlan (s : State) : Prop where
  phase : s.ph = .run
  noChunk : s.cv = false
  noValue : s.lv = false
  noTake : s.av = false
  clean : s.err = 0
  short : s.sl ≤ modeDmax s.mode
  negSigned : s.neg = true → s.mode.grammar = .signed

/-! ### The invariant -/

/-- What the rules promise of every state a run reaches. -/
structure Inv (s : State) : Prop where
  /-- IMEM keeps its canonical form. -/
  imem : imemWf s.aw s.imem = true
  /-- IPTR, ILEN, SP and SL have AW bits (R20). -/
  widths : s.iptr < 2 ^ s.aw.bits ∧ s.ilen < 2 ^ s.aw.bits ∧ s.sp < 2 ^ s.aw.bits ∧ s.sl < 2 ^ s.aw.bits
  /-- FAULT is non-zero if and only if PH = HALT (R39). -/
  halted : s.ph = .halt ↔ s.fault ≠ .none
  /-- FOP is written only by fault entry (R39). -/
  noFop : s.fault = .none → s.fop = 0
  /-- Bits 1, 2, 3 of every byte of ERR and bit 0 of bytes 1 to 7 are never set (R27). -/
  errBits : s.err &&& 0x0F0F0F0F0F0F0F0E = 0
  /-- NEG is 1 in signed modes only (R26). -/
  negSigned : s.neg = true → s.mode.grammar = .signed
  /-- Where PW = 64 the upper halves of ACC and FHI are 0 (R28, R33). -/
  narrow : modePW s.mode = 64 → s.acc.toNat < 2 ^ 64 ∧ s.fhi.toNat < 2 ^ 64
  /-- FK is 0 or a digit count (R34). -/
  foldCount : s.fk.toNat ∈ [0, 1, 2, 4, 8, 16]
  /-- The rest of the span lies inside IMEM (R25, R69). -/
  inside : s.sp + s.sl ≤ 2 ^ s.aw.bits
  /-- At RUN no more than DMAX bytes are left (R153). -/
  short : s.ph = .run → s.sl ≤ modeDmax s.mode
  /-- At CHECKED the whole span has been read, decoded and folded (R172, R223). -/
  consumed : s.ph = .checked → s.sl = 0 ∧ s.cv = false ∧ s.lv = false ∧ s.av = true
  /-- Before DONE, outside HALT, there is no result (R37, R38). -/
  noResult : s.ph ≠ .done → s.ph ≠ .halt → s.res = 0 ∧ s.valid = false
  /-- The invalid outcome carries no partial value (R37). -/
  invalidZero : s.valid = false → s.res = 0
  /-- RES[127:W] is 0 (R37, R177). -/
  resWidth : s.res.toNat < 2 ^ modeW s.mode

end Sys2Proof.Safety
end

