-- ==== Sys2Proof/Certificates/Slice0/Obligations.lean ====
section
/-! DEFINITION. The statements for the provers: what the rules of spec/ say the ops, the faults, the host's port and the
whole machine do. `decode`, `encode`, `exec`, `step` and the registers are the model's; the legality table, the texts, the
reference parser and the invariant are those of Safety.lean. -/

open Sys2Proof Sys2Proof.Machine Sys2Proof.Safety

/-! ### Encoding -/

/-- Decoding the word of an operation gives the operation back (R91, R92). -/
def Obligations.DecodeOfEncode : Prop := ∀ i : Instr, decode (encode i) = .ok i

/-- A word that decodes is the word of what it decodes to: no two words mean one op, and no bit is dropped (R91, R92). -/
def Obligations.EncodeOfDecode : Prop := ∀ (w : OpWord) (i : Instr), decode w = .ok i → encode i = w

/-- R86: the reserved words are the listed ones, they are what the decoder rejects, and presenting one raises F_ILLOP in
every phase except HALT, where it is ignored. -/
def Obligations.ReservedWordsRaiseIllop : Prop :=
  ∀ (w : OpWord) (s : State),
    ((∃ r, decode w = .error r) ↔ WellFormed.legalWord w = false)
      ∧ (WellFormed.legalWord w = false → s.ph ≠ .halt →
          presentOp w s = .next { s with fault := .illop, fop := w, ph := .halt })
      ∧ (WellFormed.legalWord w = false → s.ph = .halt → presentOp w s = .next s)

/-- Words written out from the fields of R81: one for each family. -/
def Obligations.SampleWordsDecode : Prop :=
  decode 0b000_00001#8 = .ok .sgn ∧ decode 0b000_00010#8 = .ok .nrm ∧ decode 0b000_00011#8 = .ok .take
    ∧ decode 0b000_00100#8 = .ok .chk ∧ decode 0b000_00101#8 = .ok .fin
    ∧ decode 0b001_00_100#8 = .ok .rd16 ∧ decode 0b010_00_011#8 = .ok .dec8 ∧ decode 0b011_00_001#8 = .ok .fold2
    ∧ decode 0b100_010_10#8 = .ok .beginI32 ∧ decode 0b101_011_01#8 = .ok .parseU64np

/-- The mode operand `op[4:0]` of `begin.m` and `parse.m` is the MODE the op loads (R85, R48). -/
def Obligations.ModeOperandIsMode : Prop :=
  ∀ m : Mode, (encode (beginOp m)).extractLsb' 0 5 = modeCode m ∧ (encode (parseOp m)).extractLsb' 0 5 = modeCode m

/-! ### The step and the op stream -/

/-- A step runs the decoded instruction: when the host presents a word (a write of host register 0x0) that decodes to i,
the step is exec of i on the state with that action taken off the input. That the host's actions stand in the state, and that
of a value wider than OP the low 8 bits are the word, is the model's (log entries 5 and 6). -/
def Obligations.StepRunsPresentedOp : Prop :=
  ∀ (s : State) (v : Nat) (rest : List HostEvent) (i : Instr),
    s.input = .write 0x0 v :: rest → decode (BitVec.ofNat 8 v) = .ok i →
      step s = exec i { s with input := rest }

/-- R90: the state after an op stream is the fold of the step over the list of its words. The stream is the state's input
(the model's form, log entry 5). -/
def Obligations.StreamIsFoldOfWords : Prop :=
  ∀ (ws : List OpWord) (s : State),
    Host.Core.run core ws.length { s with input := ws.map opEvent }
      = .next (ws.foldl afterWord { s with input := [] })

/-- Every word presented in every state has a next state, and so has every step: no data and no op order stops the
machine (R230, R225, R226, R227). With no action of the host to come a step changes nothing (log entry 5). -/
def Obligations.EveryWordAndStepCompletes : Prop :=
  (∀ (w : OpWord) (s : State), ∃ t, presentOp w s = .next t) ∧ (∀ s : State, ∃ t, step s = .next t)

/-! ### Reset -/

/-- R51: after reset every register is 0 but KSEL, which takes the build parameter, for every address width and both builds.
As the host reads them, and the registers the host sees packed. -/
def Obligations.ResetRegistersAreZero : Prop :=
  ∀ (aw : AddrWidth) (build : Config.Kernel16),
    (∀ r : BitVec 4, hostRead (State.resetFor aw build) r
        = if r = 0x1 ∧ build = .vectorized then 0x1000 else 0)
      ∧ (State.resetFor aw build).ph = .idle ∧ (State.resetFor aw build).fault = .none
      ∧ (State.resetFor aw build).aw = aw ∧ (State.resetFor aw build).fop = 0 ∧ (State.resetFor aw build).ksel = build
      ∧ (State.resetFor aw build).valid = false ∧ (State.resetFor aw build).neg = false
      ∧ (State.resetFor aw build).cv = false ∧ (State.resetFor aw build).lv = false ∧ (State.resetFor aw build).av = false
      ∧ (State.resetFor aw build).cn = .b1 ∧ (State.resetFor aw build).ln = .b1 ∧ (State.resetFor aw build).fk = 0

/-- Reset by the host in any state, HALT and mid-call included: every register takes its reset value, AW, KSEL and
IMEM stay (R250, R251; that AW and KSEL stay what they are, the build parameters of the instance, is log entry 9, DEDUCED). -/
def Obligations.ResetEventRestoresReset : Prop :=
  ∀ (s : State) (rest : List HostEvent), s.input = .reset :: rest →
    step s = .next
      { iptr := 0, ilen := 0, mode := ⟨.w8, .plus⟩, sp := 0, sl := 0, neg := false, err := 0, acc := 0,
        cw := 0, cn := .b1, cv := false, low := 0, ln := .b1, lv := false, fhi := 0, fk := 0, av := false,
        ph := .idle, res := 0, valid := false, fault := .none, fop := 0, ksel := s.ksel, aw := s.aw,
        imem := s.imem, input := rest }

/-! ### Each op where it is legal -/

/-- `begin.m` in its fifteen modes (beginU8 … beginI128): between calls, with a span that fits, every call-local register
takes its start value and the phase is SIGN (R150). The equation is the whole next state: nothing else changes. -/
def Obligations.BeginStartsCall : Prop :=
  ∀ (m : Mode) (s : State), CanStart s →
    exec (beginOp m) s = .next
      { s with
        mode := m, sp := s.iptr, sl := s.ilen, neg := false, err := 0, acc := 0, cw := 0, cn := .b1, cv := false,
        low := 0, ln := .b1, lv := false, fhi := 0, fk := 0, av := false, res := 0, valid := false, ph := .sign }

/-- `sgn`: the sign the grammar allows, and no more than that, is taken off the front of the span; a '-' sets NEG; the end
of the span does not move; nothing but NEG, SP, SL and PH changes (R151, R191). -/
def Obligations.SgnTakesOneAllowedSign : Prop :=
  ∀ s : State, s.ph = .sign →
    ∃ t, exec .sgn s = .next t
      ∧ spanText t = (splitSign s.mode.grammar (spanText s)).2
      ∧ t.neg = ((splitSign s.mode.grammar (spanText s)).1 || s.neg)
      ∧ (t.sp + t.sl) % 2 ^ s.aw.bits = (s.sp + s.sl) % 2 ^ s.aw.bits
      ∧ t = { s with neg := t.neg, sp := t.sp, sl := t.sl, ph := .norm }

/-- `nrm`: of the bytes by which the span is longer than DMAX, the leading '0's are stripped; RUN when the length that is
left is 1 to DMAX, else FAILED; nothing but SP, SL and PH changes (R153). -/
def Obligations.NrmStripsLeadingZeros : Prop :=
  ∀ (s : State) (j : Nat), s.ph = .norm →
    j = (((spanText s).take (s.sl - modeDmax s.mode)).takeWhile (fun b => b == 0x30)).length →
      exec .nrm s = .next
        { s with
          sp := (s.sp + j) % 2 ^ s.aw.bits, sl := s.sl - j,
          ph := if s.sl = 0 ∨ modeDmax s.mode < s.sl - j then .failed else .run }

/-- `rd.1`, `rd.2`, `rd.4`, `rd.8`, `rd.16` (rd1 … rd16): the byte at SP + i goes to lane i of CW, the lanes above the
chunk are 0, the span advances by n, the tags say which chunk waits; any address, any byte values, nothing else changes
(R64, R66, R106). That SP + i is taken modulo 2^AW matters in no state of a run (R69); log entry 7. -/
def Obligations.RdLoadsLittleEndianChunk : Prop :=
  ∀ (n : ChunkSize) (s : State), s.ph = .run → s.cv = false → chunkBytes n ≤ s.sl →
    ∃ t, exec (rdOp n) s = .next t
      ∧ (∀ i < 16, lane t.cw i
          = if i < chunkBytes n then imemByte s.aw s.imem (s.sp + i) else 0)
      ∧ t = { s with
          sp := (s.sp + chunkBytes n) % 2 ^ s.aw.bits, sl := s.sl - chunkBytes n,
          cw := t.cw, cn := n, cv := true }

/-- `dec.1` … `dec.16` (dec1 … dec16) on any chunk: the value to LOW, the error bits ORed into ERR, the tags moved on;
nothing else changes (R124, R133). On a chunk with a non-digit the value is the reference datapath's, the spec's default
(R119, U1; log entry 8, DESIGN CHOICE). -/
def Obligations.DecWritesValueAndError : Prop :=
  ∀ (n : ChunkSize) (s : State), s.ph = .run → s.cv = true → s.cn = n → s.lv = false →
    exec (decOp n) s = .next
      { s with low := chunkVal n s.cw, err := s.err ||| chunkErr n s.cw, ln := n, lv := true, cv := false }

/-- `dec.1` … `dec.16` on a chunk of digits: LOW is their decimal value, the first byte the most significant digit, and it
is below 10^n; ERR stays (R113, R114, R134). -/
def Obligations.DecOfDigitsIsDecimalValue : Prop :=
  ∀ (n : ChunkSize) (s : State), s.ph = .run → s.cv = true → s.cn = n → s.lv = false →
    (lanes (chunkBytes n) s.cw).all isDigit = true →
      exec (decOp n) s = .next
          { s with
            low := BitVec.ofNat 64 (digitsValue (lanes (chunkBytes n) s.cw)), ln := n, lv := true, cv := false }
        ∧ digitsValue (lanes (chunkBytes n) s.cw) < 10 ^ chunkBytes n

/-- `dec.1` … `dec.16` on any chunk: every byte that is no digit leaves a bit among bits 4 to 7 of its own byte of ERR (of
byte i - 8 for the second half of a 16-byte chunk), and ERR gains a bit only if some byte is no digit (R113, R131, R134). -/
def Obligations.DecFlagsEveryNonDigit : Prop :=
  ∀ (n : ChunkSize) (s : State), s.ph = .run → s.cv = true → s.cn = n → s.lv = false →
    ∃ t, exec (decOp n) s = .next t
      ∧ (∀ i < chunkBytes n, isDigit (lane s.cw i) = false → lane t.err (i % 8) &&& 0xF0 ≠ 0)
      ∧ (t.err ≠ s.err → ∃ i < chunkBytes n, isDigit (lane s.cw i) = false)

/-- `take`: the waiting value becomes ACC, whatever the size of its chunk; FHI = 0 and FK = 0; nothing else but LV and AV
changes (R141). -/
def Obligations.TakeLoadsFirstValue : Prop :=
  ∀ s : State, s.ph = .run → s.lv = true → s.av = false →
    exec .take s = .next { s with acc := s.low.setWidth 128, fhi := 0, fk := 0, lv := false, av := true }

/-- `fold.1` … `fold.16` (fold1 … fold16): ACC * 10^k + LOW modulo 2^PW, the old ACC and k latched in FHI and FK, LV
cleared; nothing else changes, ERR and LOW included (R147, R148, R149). -/
def Obligations.FoldAppendsDigits : Prop :=
  ∀ (k : ChunkSize) (s : State), s.ph = .run → s.lv = true → s.ln = k → s.av = true →
    exec (foldOp k) s = .next
      { s with
        fhi := s.acc, fk := BitVec.ofNat 5 (chunkBytes k), lv := false,
        acc := BitVec.ofNat 128 ((s.acc.toNat * 10 ^ chunkBytes k + s.low.toNat) % 2 ^ modePW s.mode) }

/-- `chk`: bit 0 of ERR is set exactly when FHI * 10^FK + LOW, as an unbounded integer, is above the limit; nothing else
but PH changes (R172). In an unsigned mode with NEG = 1, which no run reaches, the limit is the model's (log entry 13). -/
def Obligations.ChkComparesUnboundedMagnitude : Prop :=
  ∀ s : State, s.ph = .run → s.cv = false → s.lv = false → s.av = true → s.sl = 0 →
    exec .chk s = .next
      { s with
        err := s.err ||| (if modeLimit s.mode s.neg < s.fhi.toNat * 10 ^ s.fk.toNat + s.low.toNat then 1 else 0),
        ph := .checked }

/-- `fin` after a clean check: VALID, and in RES the W-bit two's complement of the magnitude, the bits above W being 0;
nothing else but PH changes (R176, R177). -/
def Obligations.FinEncodesTwosComplement : Prop :=
  ∀ s : State, s.ph = .checked → s.err = 0 →
    ∃ t, exec .fin s = .next t
      ∧ t.res.toNat = (if s.neg = true then (2 ^ modeW s.mode - s.acc.toNat % 2 ^ modeW s.mode) % 2 ^ modeW s.mode
          else s.acc.toNat % 2 ^ modeW s.mode)
      ∧ t = { s with res := t.res, valid := true, ph := .done }

/-- `fin` after an error or a failed length: the one invalid outcome, no partial value (R176, R178). -/
def Obligations.FinReportsInvalid : Prop :=
  ∀ s : State, (s.ph = .checked ∧ s.err ≠ 0) ∨ s.ph = .failed →
    exec .fin s = .next { s with res := 0, valid := false, ph := .done }

/-! ### parse -/

/-- R195, for the fifteen modes (parseU8 … parseI128): whatever the text, `parse.m` ends at DONE, VALID is 1 exactly when
the text is in the mode's language with a value in the mode's range, and RES is then that value modulo 2^W, else 0. No
fault is taken. -/
def Obligations.ParseAgreesWithReferenceParser : Prop :=
  ∀ (m : Mode) (s : State), CanStart s →
    ∃ t, exec (parseOp m) s = .next t ∧ t.ph = .done ∧ t.fault = s.fault
      ∧ hasOutcome m (referenceParse m (inputText s)) t

/-- R194: `parse.m` leaves the state that its constituent ops leave when the host presents them one by one: `begin.m`,
`sgn`, `nrm`; then, if the length was accepted, the plan of the SL that `nrm` left, `chk` and `fin`; else `fin`. -/
def Obligations.ParseIsItsOpsInOrder : Prop :=
  ∀ (m : Mode) (s : State), CanStart s →
    ∃ u, runOps [beginOp m, .sgn, .nrm] s = .next u
      ∧ ((u.ph = .run ∧ exec (parseOp m) s = runOps (planOps (plan u.sl) ++ [.chk, .fin]) u)
        ∨ (u.ph = .failed ∧ exec (parseOp m) s = runOps [.fin] u))

/-- R212: the shortest decimal text of a representable value parses back to the value. -/
def Obligations.ParseOfFormattedValue : Prop :=
  ∀ (m : Mode) (v : Int) (s : State), CanStart s → minValue m ≤ v → v ≤ maxValue m → inputText s = formatInt v →
    ∃ t, exec (parseOp m) s = .next t ∧ t.ph = .done ∧ t.valid = true ∧ t.res = encodedValue m v

/-- R154: any number of '0's between the sign, if there is one, and the digits changes neither VALID nor RES. -/
def Obligations.LeadingZerosDoNotMatter : Prop :=
  ∀ (m : Mode) (s s' : State) (sign ds : List Byte) (k : Nat), CanStart s → CanStart s' →
    sign = [] ∨ sign = [0x2B] ∨ sign = [0x2D] → ds ≠ [] → ds.all isDigit = true →
    inputText s = sign ++ ds → inputText s' = sign ++ List.replicate k 0x30 ++ ds →
      ∃ t t', exec (parseOp m) s = .next t ∧ exec (parseOp m) s' = .next t' ∧ t'.valid = t.valid ∧ t'.res = t.res

/-- What a call leaves depends on the host's pointer, length and the bytes of the span, and on nothing else: no register
of an earlier call (R45), no byte outside the span (R62), not the build (R132), reaches its result. -/
def Obligations.CallDependsOnlyOnItsSpan : Prop :=
  ∀ (m : Mode) (s s' : State), CanStart s → CanStart s' →
    s'.aw = s.aw → s'.iptr = s.iptr → s'.ilen = s.ilen → inputText s' = inputText s →
      ∃ t, exec (parseOp m) s = .next t
        ∧ exec (parseOp m) s' = .next
            { t with fault := s'.fault, fop := s'.fop, ksel := s'.ksel, imem := s'.imem, input := s'.input }

/-- `begin.m` forgets the call before it: two states that differ in call-local and result registers only are one state
after it (R45, R150). -/
def Obligations.BeginForgetsEarlierCall : Prop :=
  ∀ (m : Mode) (s s' : State), CanStart s → CanStart s' → s'.aw = s.aw → s'.iptr = s.iptr → s'.ilen = s.ilen →
    s'.fault = s.fault → s'.fop = s.fop → s'.ksel = s.ksel → s'.imem = s.imem → s'.input = s.input →
      exec (beginOp m) s' = exec (beginOp m) s

/-! ### Plans the host issues -/

/-- Every plan that covers the span, the dispatcher's or the host's own, ends at DONE with the exact outcome of the digit
string: valid when all bytes are digits and the value is within LIMIT, the value then encoded under the sign (R174, R177,
R178). -/
def Obligations.EveryPlanGivesExactOutcome : Prop :=
  ∀ (p : List ChunkSize) (s : State), ReadyToPlan s → p ≠ [] → planBytes p = s.sl →
    ∃ t, runOps (planOps p ++ [.chk, .fin]) s = .next t ∧ t.ph = .done
      ∧ digitOutcome s.mode s.neg (spanText s) t

/-- R174: after any sequence of `rd`, `dec`, `take`, `fold` ops, in whatever order they are legal, that brings a call from
`nrm` to a state where `chk` is legal, over a span of digits, the magnitude the detector forms is the value of the digits as
an unbounded integer, and the detector fires exactly when that value is above LIMIT. -/
def Obligations.DetectorIsExactForEveryLegalSequence : Prop :=
  ∀ (ops : List Instr) (s t : State), ReadyToPlan s → (∀ i ∈ ops, isDigitOp i = true) → runOps ops s = .next t →
    legalIn .chk t → (spanText s).all isDigit = true →
      t.fhi.toNat * 10 ^ t.fk.toNat + t.low.toNat = digitsValue (spanText s)
        ∧ (overflows t = true ↔ modeLimit s.mode s.neg < digitsValue (spanText s))

/-- R147: after the chunks of any plan over digits, ACC is the value of all digits consumed so far, modulo 2^PW, whatever
the chunk sizes were. -/
def Obligations.AccIsValueOfDigitsModPW : Prop :=
  ∀ (p : List ChunkSize) (s : State), ReadyToPlan s → p ≠ [] → planBytes p ≤ s.sl →
    ((spanText s).take (planBytes p)).all isDigit = true →
      ∃ t, runOps (planOps p) s = .next t
        ∧ t.acc.toNat = digitsValue ((spanText s).take (planBytes p)) % 2 ^ modePW s.mode

/-- R44: at CHECKED, reached from `nrm` by any ops on the digits and `chk`, in whatever order they are legal, ERR = 0 if and
only if every byte of the span, all of which went through a kernel, was a digit and the magnitude was within the limit. -/
def Obligations.ErrIsZeroIffCleanAndInRange : Prop :=
  ∀ (ops : List Instr) (s t : State), ReadyToPlan s → (∀ i ∈ ops, isDigitOp i = true) →
    runOps (ops ++ [.chk]) s = .next t → t.ph = .checked →
      (t.err = 0 ↔ (spanText s).all isDigit = true ∧ digitsValue (spanText s) ≤ modeLimit s.mode s.neg)

/-- R192: the chunk sizes of PLAN(n) sum to n, stand in non-increasing order, are as many 16s as fit and then at most one
of each smaller size, and are at most 5 for the lengths a mode can have. -/
def Obligations.PlanIsGreedy : Prop :=
  ∀ n : Nat, planBytes (plan n) = n ∧ ((plan n).map chunkBytes).Pairwise (fun a b => b ≤ a)
    ∧ (plan n).count .b16 = n / 16 ∧ (∀ c : ChunkSize, c ≠ .b16 → (plan n).count c ≤ 1)
    ∧ (n ≤ 39 → (plan n).length ≤ 5)

/-- R253: `parse.m` performs at most 3 + 3 * 5 + 2 = 20 internal ops. The sequence of R194 has at most 20 ops for every
length up to DMAX; and from every state in which a call may start `parse.m` leaves what `begin.m`, `sgn`, `nrm` and then
either the ops of the plan of such a length, `chk` and `fin`, or `fin` alone leave, at most 20 ops in all. -/
def Obligations.ParseIsBounded : Prop :=
  (∀ (m : Mode) (n : Nat), n ≤ modeDmax m →
    ([beginOp m, Instr.sgn, Instr.nrm] ++ planOps (plan n) ++ [Instr.chk, Instr.fin]).length ≤ 20)
    ∧ ∀ (m : Mode) (s : State), CanStart s →
      ∃ rest : List Instr,
        ((∃ n, 0 < n ∧ n ≤ modeDmax m ∧ rest = planOps (plan n) ++ [Instr.chk, Instr.fin]) ∨ rest = [Instr.fin])
          ∧ ([beginOp m, Instr.sgn, Instr.nrm] ++ rest).length ≤ 20
          ∧ exec (parseOp m) s = runOps ([beginOp m, Instr.sgn, Instr.nrm] ++ rest) s

/-! ### The detector -/

/-- R173: with LOW below 10^FK the comparison of `chk` is the one of FHI with LIMIT div 10^FK and of LOW with LIMIT mod
10^FK; with FK = 0 (and FHI = 0) it is that of LOW with LIMIT. -/
def Obligations.DetectorWithoutWideArithmetic : Prop :=
  ∀ s : State,
    (s.fk ≠ 0 → s.low.toNat < 10 ^ s.fk.toNat →
      (overflows s = true ↔
        modeLimit s.mode s.neg / 10 ^ s.fk.toNat < s.fhi.toNat
          ∨ (s.fhi.toNat = modeLimit s.mode s.neg / 10 ^ s.fk.toNat
            ∧ modeLimit s.mode s.neg % 10 ^ s.fk.toNat < s.low.toNat)))
      ∧ (s.fk = 0 → s.fhi = 0 → (overflows s = true ↔ modeLimit s.mode s.neg < s.low.toNat))

/-- R175: in mode u64 the last folds of 10^19 and of 10^19 + 2^64 leave one and the same ACC; the detector accepts the
first and rejects the second. -/
def Obligations.DetectorSeesThroughWrap : Prop :=
  ∀ s : State, s.ph = .run → s.lv = true → s.ln = .b4 → s.av = true → s.mode = ⟨.w64, .plus⟩ → s.neg = false →
    ∃ t u, exec .fold4 { s with acc := 1000000000000000, low := 0 } = .next t
      ∧ exec .fold4 { s with acc := 2844674407370955, low := 1616 } = .next u
      ∧ t.acc = 0x8AC7230489E80000 ∧ u.acc = 0x8AC7230489E80000
      ∧ overflows t = false ∧ overflows u = true

/-- R190: the constants of the fifteen modes, MODE, W, PW, DMAX, LIMIT with NEG = 0, and for the signed ones LIMIT with
NEG = 1; and R152: DMAX is the number of decimal digits of the largest magnitude. -/
def Obligations.ModeConstants : Prop :=
  (([⟨.w8, .plus⟩, ⟨.w8, .noPlus⟩, ⟨.w8, .signed⟩, ⟨.w16, .plus⟩, ⟨.w16, .noPlus⟩, ⟨.w16, .signed⟩,
      ⟨.w32, .plus⟩, ⟨.w32, .noPlus⟩, ⟨.w32, .signed⟩, ⟨.w64, .plus⟩, ⟨.w64, .noPlus⟩, ⟨.w64, .signed⟩,
      ⟨.w128, .plus⟩, ⟨.w128, .noPlus⟩, ⟨.w128, .signed⟩] : List Mode).map
    (fun m => ((modeCode m).toNat, modeW m, modePW m, modeDmax m, modeLimit m false)))
    = [(0x00, 8, 64, 3, 255), (0x01, 8, 64, 3, 255), (0x02, 8, 64, 3, 127),
      (0x04, 16, 64, 5, 65535), (0x05, 16, 64, 5, 65535), (0x06, 16, 64, 5, 32767),
      (0x08, 32, 64, 10, 4294967295), (0x09, 32, 64, 10, 4294967295), (0x0A, 32, 64, 10, 2147483647),
      (0x0C, 64, 64, 20, 18446744073709551615), (0x0D, 64, 64, 20, 18446744073709551615),
      (0x0E, 64, 64, 19, 9223372036854775807),
      (0x10, 128, 128, 39, 340282366920938463463374607431768211455),
      (0x11, 128, 128, 39, 340282366920938463463374607431768211455),
      (0x12, 128, 128, 39, 170141183460469231731687303715884105727)]
    ∧ ([.w8, .w16, .w32, .w64, .w128] : List Width).map (fun w => modeLimit ⟨w, .signed⟩ true)
      = [128, 32768, 2147483648, 9223372036854775808, 170141183460469231731687303715884105728]
    ∧ ∀ (m : Mode) (neg : Bool), (neg = true → m.grammar = .signed) →
        10 ^ (modeDmax m - 1) ≤ modeLimit m neg ∧ modeLimit m neg < 10 ^ modeDmax m

/-! ### Faults -/

/-- R223, for every op: outside its row of the legality table, and not at HALT, it raises F_SEQ and does nothing else. -/
def Obligations.IllegalOrderRaisesSeq : Prop :=
  ∀ (i : Instr) (s : State), s.ph ≠ .halt → ¬ legalIn i s →
    exec i s = .next { s with fault := .seq, fop := encode i, ph := .halt }

/-- `rd.n` with fewer than n bytes left: F_UNDERRUN; no byte is read, SP, SL and CW stay (R221). -/
def Obligations.ShortReadRaisesUnderrun : Prop :=
  ∀ (n : ChunkSize) (s : State), s.ph = .run → s.cv = false → s.sl < chunkBytes n →
    exec (rdOp n) s = .next { s with fault := .underrun, fop := encode (rdOp n), ph := .halt }

/-- R224: `begin.m` and `parse.m` with a span that runs past the last address raise F_SPAN and start no call. -/
def Obligations.WrappingSpanRaisesSpan : Prop :=
  ∀ (m : Mode) (s : State), s.ph = .idle ∨ s.ph = .done → 2 ^ s.aw.bits < s.iptr + s.ilen →
    exec (beginOp m) s = .next { s with fault := .span, fop := encode (beginOp m), ph := .halt }
      ∧ exec (parseOp m) s = .next { s with fault := .span, fop := encode (parseOp m), ph := .halt }

/-- R226, for every word, `parse.m` included: an op that enters HALT has changed nothing but FAULT, FOP and PH; FAULT is
not 0 and FOP is the word the host presented. -/
def Obligations.FaultsArePrecise : Prop :=
  ∀ (w : OpWord) (s t : State), s.ph ≠ .halt → presentOp w s = .next t → t.ph = .halt →
    ∃ c : FaultCode, c ≠ .none ∧ t = { s with fault := c, fop := w, ph := .halt }

/-- R227: at HALT every word, legal or reserved, is ignored. -/
def Obligations.HaltIgnoresEveryWord : Prop :=
  ∀ (w : OpWord) (s : State), s.ph = .halt → presentOp w s = .next s

/-- R228: whatever the host does, only reset leaves HALT; until then FAULT, FOP, RES, VALID and every register the host does
not write stay. With no action of the host to come a step changes nothing (log entry 5). -/
def Obligations.OnlyResetLeavesHalt : Prop :=
  ∀ s t : State, s.ph = .halt → s.input.head? ≠ some .reset → step s = .next t →
    t = { s with iptr := t.iptr, ilen := t.ilen, imem := t.imem, input := t.input }

/-! ### What no op does -/

/-- For every op: no byte of IMEM changes (R61); nor do the host's registers IPTR and ILEN (R20, R21, R22), KSEL (R41) and
AW (R42); nor the host's input, a field of the model's own (log entry 5, DESIGN CHOICE). -/
def Obligations.OpsNeverWriteMemory : Prop :=
  ∀ (i : Instr) (s t : State), exec i s = .next t →
    t.imem = s.imem ∧ (∀ a : Nat, imemByte t.aw t.imem a = imemByte s.aw s.imem a)
      ∧ t.iptr = s.iptr ∧ t.ilen = s.ilen ∧ t.ksel = s.ksel ∧ t.aw = s.aw ∧ t.input = s.input

/-- R25, for every op: the end of the span, modulo 2^AW (R24), never moves within a call and the span only shrinks; an op
that starts a call sets it to the end of the host's text. -/
def Obligations.SpanShrinksFromTheFront : Prop :=
  ∀ (i : Instr) (s t : State), exec i s = .next t →
    (startsCall i = false →
        (t.sp + t.sl) % 2 ^ s.aw.bits = (s.sp + s.sl) % 2 ^ s.aw.bits ∧ t.sl ≤ s.sl)
      ∧ (startsCall i = true → CanStart s →
        (t.sp + t.sl) % 2 ^ s.aw.bits = (s.iptr + s.ilen) % 2 ^ s.aw.bits)

/-- R27, for every op but those that start a call: no set bit of ERR is cleared. -/
def Obligations.ErrIsNeverCleared : Prop :=
  ∀ (i : Instr) (s t : State), startsCall i = false → exec i s = .next t → t.err &&& s.err = s.err

/-- R132, R41, for every op: what it does to every other register does not depend on which 16-byte datapath is built. -/
def Obligations.BuildIsInvisibleToOps : Prop :=
  ∀ (i : Instr) (s t : State) (build : Config.Kernel16), exec i s = .next t →
    exec i { s with ksel := build } = .next { t with ksel := build }

/-! ### The invariant -/

/-- The state after reset has the invariant, for every address width and both builds. -/
def Obligations.ResetHasInvariant : Prop := ∀ (aw : AddrWidth) (build : Config.Kernel16), Inv (State.resetFor aw build)

/-- Every step, whatever the host does, keeps the invariant. The canonical form of IMEM in it is the model's (log entry 4),
and so is that the host's actions are steps (log entry 5). -/
def Obligations.StepKeepsInvariant : Prop := ∀ s t : State, Inv s → step s = .next t → Inv t

/-! ### The host's port -/

/-- R47: STATUS is PH, VALID, NEG, CV, LV, AV, FAULT, KSEL and FOP at their bits, every other bit 0; with the numbers of the
eight phases (R36) and of the fault codes (R220). -/
def Obligations.StatusLayout : Prop :=
  (∀ s : State, hostRead s 0x1
    = (phaseCode s.ph).toNat + 2 ^ 3 * s.valid.toNat + 2 ^ 4 * s.neg.toNat + 2 ^ 5 * s.cv.toNat
      + 2 ^ 6 * s.lv.toNat + 2 ^ 7 * s.av.toNat + 2 ^ 8 * (faultNumber s.fault).toNat
      + 2 ^ 12 * (if s.ksel = .vectorized then 1 else 0) + 2 ^ 16 * s.fop.toNat)
    ∧ ([.idle, .sign, .norm, .run, .checked, .failed, .done, .halt] : List Phase).map (fun p => (phaseCode p).toNat)
      = [0, 1, 2, 3, 4, 5, 6, 7]
    ∧ ([.none, .underrun, .illop, .seq, .span] : List FaultCode).map (fun c => (faultNumber c).toNat) = [0, 1, 2, 3, 4]

/-- R49: TAGS is CN, LN and FK at their bits, every other bit 0; with the numbers of the chunk sizes, log2 n (R30, R32). -/
def Obligations.TagsLayout : Prop :=
  (∀ s : State, hostRead s 0xC = (chunkCode s.cn).toNat + 2 ^ 4 * (chunkCode s.ln).toNat + 2 ^ 8 * s.fk.toNat)
    ∧ ([.b1, .b2, .b4, .b8, .b16] : List ChunkSize).map (fun n => (chunkBytes n, (chunkCode n).toNat))
      = [(1, 0), (2, 1), (4, 2), (8, 3), (16, 4)]

/-- R46, R48: the other host registers as the host reads them; with the numbers of the widths and the grammars (R23). -/
def Obligations.HostRegisterFile : Prop :=
  (∀ s : State,
    hostRead s 0x0 = 0
      ∧ hostRead s 0x2 = 2 ^ 2 * (widthCode s.mode.width).toNat + (grammarCode s.mode.grammar).toNat
      ∧ hostRead s 0x3 = s.iptr ∧ hostRead s 0x4 = s.ilen ∧ hostRead s 0x5 = s.sp ∧ hostRead s 0x6 = s.sl
      ∧ hostRead s 0x7 = s.err.toNat ∧ hostRead s 0x8 = s.acc.toNat ∧ hostRead s 0x9 = s.low.toNat
      ∧ hostRead s 0xA = s.cw.toNat ∧ hostRead s 0xB = s.fhi.toNat ∧ hostRead s 0xD = s.res.toNat
      ∧ hostRead s 0xE = 0 ∧ hostRead s 0xF = 0)
    ∧ ([.w8, .w16, .w32, .w64, .w128] : List Width).map (fun w => (widthBits w, (widthCode w).toNat))
      = [(8, 0), (16, 1), (32, 2), (64, 3), (128, 4)]
    ∧ ([.plus, .noPlus, .signed] : List Grammar).map (fun g => (grammarCode g).toNat) = [0, 1, 2]

/-- R50: a host write of IPTR or ILEN takes effect at once and changes nothing else, in every phase; a write of any other
register but OP is ignored. Of a wider value the low AW bits are taken (log entry 6, DEDUCED). -/
def Obligations.HostWritesOnlyItsInputs : Prop :=
  ∀ (s : State) (r : BitVec 4) (v : Nat) (rest : List HostEvent), s.input = .write r v :: rest →
    (r = 0x3 → step s = .next { s with iptr := v % 2 ^ s.aw.bits, input := rest })
      ∧ (r = 0x4 → step s = .next { s with ilen := v % 2 ^ s.aw.bits, input := rest })
      ∧ (r ≠ 0x0 → r ≠ 0x3 → r ≠ 0x4 → step s = .next { s with input := rest })

/-- R67: after the host has put a byte, reading its address gives that byte and every other address what it gave; no
register changes. Numbers with the same low AW bits are one address (log entries 6 and 7, DEDUCED). -/
def Obligations.HostByteReadsBack : Prop :=
  ∀ (s : State) (a : Nat) (b : Byte) (rest : List HostEvent), imemWf s.aw s.imem = true →
    s.input = .poke a b :: rest →
      ∃ t, step s = .next t ∧ t = { s with imem := t.imem, input := rest }
        ∧ ∀ c : Nat, imemByte s.aw t.imem c
            = if c % 2 ^ s.aw.bits = a % 2 ^ s.aw.bits then b else imemByte s.aw s.imem c
end

