-- ==== Sys2Proof/Laws/Kernels.lean ====
section
/-! SUPPORT. The decoder's error word, lane by lane (R112, R113), and the value of the kernels on words of digits
(R114). -/

namespace Sys2Proof.Machine

/-! ### Lanes -/

theorem lane_toNat {w : Nat} (v : BitVec w) (i : Nat) : (lane v i).toNat = v.toNat / 2 ^ (8 * i) % 256 := by
  simp [lane, BitVec.extractLsb'_toNat, Nat.shiftRight_eq_div_pow]

@[simp] theorem lane_xor {w : Nat} (u v : BitVec w) (i : Nat) : lane (u ^^^ v) i = lane u i ^^^ lane v i := by
  simp [lane, BitVec.extractLsb'_xor]

@[simp] theorem lane_and {w : Nat} (u v : BitVec w) (i : Nat) : lane (u &&& v) i = lane u i &&& lane v i := by
  simp [lane, BitVec.extractLsb'_and]

@[simp] theorem lane_or {w : Nat} (u v : BitVec w) (i : Nat) : lane (u ||| v) i = lane u i ||| lane v i := by
  simp [lane, BitVec.extractLsb'_or]

@[simp] theorem lane_zero {w : Nat} (i : Nat) : lane (0 : BitVec w) i = 0 := by
  apply BitVec.eq_of_toNat_eq
  simp [lane_toNat]

theorem lane_rep {n : Nat} (b : Byte) {i : Nat} (h : i < n) : lane (rep n b) i = b := by
  apply BitVec.eq_of_getLsbD_eq
  intro j hj
  have h1 : 8 * i + j < 8 * n := by omega
  have h2 : (8 * i + j) % 8 = j := by omega
  simp [lane, rep, hj, h1, h2]

/-- Two words of n bytes with the same lanes are equal. -/
theorem eq_of_lanes {n : Nat} {u v : BitVec (8 * n)} (h : ∀ i < n, lane u i = lane v i) : u = v := by
  apply BitVec.eq_of_getLsbD_eq
  intro k hk
  have hi : k / 8 < n := by omega
  have := congrArg (fun b => b.getLsbD (k % 8)) (h (k / 8) hi)
  have hk8 : k % 8 < 8 := Nat.mod_lt _ (by decide)
  have e : 8 * (k / 8) + k % 8 = k := by omega
  simpa [lane, BitVec.getLsbD_extractLsb', hk8, e] using this

/-- Lane i of a sum is the sum of the lanes and the carry from below, modulo 256 (R113). -/
theorem lane_add {n : Nat} (u v : BitVec (8 * n)) {i : Nat} (h : i < n) :
    (lane (u + v) i).toNat
      = ((lane u i).toNat + (lane v i).toNat
          + (if 2 ^ (8 * i) ≤ u.toNat % 2 ^ (8 * i) + v.toNat % 2 ^ (8 * i) then 1 else 0)) % 256 := by
  have hpos : 0 < 2 ^ (8 * i) := Nat.two_pow_pos _
  have e : 2 ^ (8 * n) = 2 ^ (8 * i) * (256 * 2 ^ (8 * (n - i - 1))) := by
    rw [show (256 : Nat) = 2 ^ 8 from rfl, ← Nat.pow_add, ← Nat.pow_add]
    congr 1
    omega
  have hmod : (u.toNat + v.toNat) % 2 ^ (8 * n) / 2 ^ (8 * i) % 256
      = (u.toNat + v.toNat) / 2 ^ (8 * i) % 256 := by
    rw [e, Nat.mod_mul_right_div_self, Nat.mod_mul_right_mod]
  rw [lane_toNat, lane_toNat, lane_toNat, BitVec.toNat_add, hmod, Nat.add_div hpos]
  rw [Nat.add_mod, Nat.add_mod (u.toNat / _) (v.toNat / _)]
  simp [Nat.add_mod]

/-- Lanes below i that leave room for each other carry nothing into lane i (R113 (a)). -/
theorem no_carry {n : Nat} (u v : BitVec (8 * n)) (i : Nat)
    (h : ∀ j < i, (lane u j).toNat + (lane v j).toNat < 256) :
    u.toNat % 2 ^ (8 * i) + v.toNat % 2 ^ (8 * i) < 2 ^ (8 * i) := by
  induction i with
  | zero => simp [Nat.mod_one]
  | succ i ih =>
    have ih := ih fun j hj => h j (by omega)
    have hi := h i (by omega)
    rw [lane_toNat, lane_toNat] at hi
    have e : 2 ^ (8 * (i + 1)) = 2 ^ (8 * i) * 256 := by rw [Nat.mul_succ, Nat.pow_add]
    rw [e, Nat.mod_mul, Nat.mod_mul]
    have : 2 ^ (8 * i) * (u.toNat / 2 ^ (8 * i) % 256 + v.toNat / 2 ^ (8 * i) % 256 + 1) ≤ 2 ^ (8 * i) * 256 :=
      Nat.mul_le_mul_left _ hi
    rw [Nat.mul_add, Nat.mul_add] at this
    omega

/-! ### The error word -/

/-- The digit value of a byte in '0'..'9' is what digit extraction leaves in its lane (R111). -/
theorem byte_xor_digit : ∀ b : Byte,
    (0x30 ≤ b.toNat ∧ b.toNat ≤ 0x39) ↔ (b ^^^ 0x30).toNat ≤ 9 := by decide

theorem byte_xor_value : ∀ b : Byte, (b ^^^ 0x30).toNat ≤ 9 → (b ^^^ 0x30).toNat = b.toNat - 0x30 := by decide

theorem byte_err_of_digit : ∀ x : Byte, x.toNat ≤ 9 → (x ||| (x + 6)) &&& 0xF0 = 0 := by decide

theorem byte_err_of_not_digit : ∀ x : Byte, ¬ x.toNat ≤ 9 →
    (x ||| (x + 6)) &&& 0xF0 ≠ 0 ∧ (x ||| (x + 6 + 1)) &&& 0xF0 ≠ 0 := by decide

theorem lane_digitLanes {n : Nat} (w : BitVec (8 * n)) {i : Nat} (h : i < n) :
    lane (digitLanes n w) i = lane w i ^^^ 0x30 := by
  rw [digitLanes, lane_xor, lane_rep _ h]

/-- Lane i of the error word is the per-byte formula with a carry of 0 or 1 from below, and the carry is 0 when every
lane below holds a digit (R112, R113). -/
theorem lane_kerr {n : Nat} (w : BitVec (8 * n)) {i : Nat} (h : i < n) :
    ∃ c : Bool, lane (kerr n w) i
        = ((lane w i ^^^ 0x30) ||| ((lane w i ^^^ 0x30) + 6 + (if c then 1 else 0))) &&& 0xF0
      ∧ ((∀ j < i, (lane w j ^^^ 0x30).toNat ≤ 9) → c = false) := by
  refine ⟨decide (2 ^ (8 * i) ≤ (digitLanes n w).toNat % 2 ^ (8 * i) + (rep n 0x06).toNat % 2 ^ (8 * i)), ?_, ?_⟩
  · have hadd : (lane (digitLanes n w + rep n 0x06) i).toNat = _ := lane_add _ _ h
    simp only [kerr, lane_and, lane_or, lane_rep _ h, lane_digitLanes _ h] at hadd ⊢
    congr 2
    apply BitVec.eq_of_toNat_eq
    rw [hadd]
    by_cases hc : 2 ^ (8 * i) ≤ (digitLanes n w).toNat % 2 ^ (8 * i) + (rep n 0x06).toNat % 2 ^ (8 * i)
    · rw [if_pos hc, if_pos (decide_eq_true hc)]
      simp [BitVec.toNat_add]
    · rw [if_neg hc, if_neg (by simpa using hc)]
      simp [BitVec.toNat_add]
  · intro hd
    refine decide_eq_false (Nat.not_le.mpr (no_carry _ _ _ fun j hj => ?_))
    have hj' : j < n := by omega
    rw [lane_digitLanes _ hj', lane_rep _ hj']
    have := hd j hj
    have : (6 : Byte).toNat = 6 := rfl
    omega

/-- An invalid lane always sets a bit in its own lane (R113). -/
theorem lane_kerr_ne_zero {n : Nat} (w : BitVec (8 * n)) {i : Nat} (h : i < n)
    (hb : ¬ (lane w i ^^^ 0x30).toNat ≤ 9) : lane (kerr n w) i ≠ 0 := by
  obtain ⟨c, hc, -⟩ := lane_kerr w h
  have := byte_err_of_not_digit _ hb
  rw [hc]
  cases c
  · simpa using this.1
  · simpa using this.2

/-- The validity guarantee: the error word is zero exactly when every lane holds a digit (R113). -/
theorem kerr_eq_zero_iff {n : Nat} (w : BitVec (8 * n)) :
    kerr n w = 0 ↔ ∀ i < n, (lane w i ^^^ 0x30).toNat ≤ 9 := by
  constructor
  · intro h0 i hi
    by_contra hb
    exact lane_kerr_ne_zero w hi hb (by rw [h0, lane_zero])
  · intro hd
    refine eq_of_lanes fun i hi => ?_
    obtain ⟨c, hc, hz⟩ := lane_kerr w hi
    rw [hc, hz fun j hj => hd j (by omega), lane_zero]
    simpa using byte_err_of_digit _ (hd i hi)

/-- The error word sets only bits 4 to 7 of each lane (R112). -/
theorem kerr_mask {n : Nat} (w : BitVec (8 * n)) : kerr n w &&& rep n 0x0F = 0 := by
  refine eq_of_lanes fun i hi => ?_
  simp only [kerr, lane_and, lane_or, lane_rep _ hi, lane_zero, BitVec.and_assoc]
  simp

/-! ### The value of the kernels on digits -/

theorem toNat_eq_lanes2 (x : BitVec 16) : x.toNat = (lane x 0).toNat + 256 * (lane x 1).toNat := by
  have := x.isLt
  simp only [lane_toNat]
  omega

theorem toNat_eq_lanes4 (x : BitVec 32) : x.toNat =
    (lane x 0).toNat + 256 * (lane x 1).toNat + 65536 * (lane x 2).toNat + 16777216 * (lane x 3).toNat := by
  have := x.isLt
  simp only [lane_toNat]
  omega

theorem toNat_eq_lanes8 (x : BitVec 64) : x.toNat =
    (lane x 0).toNat + 256 * (lane x 1).toNat + 65536 * (lane x 2).toNat + 16777216 * (lane x 3).toNat
      + 4294967296 * (lane x 4).toNat + 1099511627776 * (lane x 5).toNat + 281474976710656 * (lane x 6).toNat
      + 72057594037927936 * (lane x 7).toNat := by
  have := x.isLt
  simp only [lane_toNat]
  omega

/-- A field of a number put together from fields: above the part r, below the part t. -/
theorem field_eq {y r p t a b : Nat} (h : y = r + a * (p + b * t)) (hr : r < a) (hp : p < b) : y / a % b = p := by
  have ha : 0 < a := by omega
  rw [h, Nat.add_mul_div_left _ _ ha, Nat.div_eq_of_lt hr, Nat.zero_add, Nat.add_mul_mod_self_left,
    Nat.mod_eq_of_lt hp]

/-- The same for a product cut to a * b and shifted down by a. -/
theorem field_of_mod {y r p t a b : Nat} (h : y = r + a * (p + b * t)) (hr : r < a) (hp : p < b) :
    y % (a * b) / a = p := by
  rw [Nat.mod_mul_right_div_self, field_eq h hr hp]

theorem byte_and_ff : ∀ b : Byte, b &&& 0xFF = b := by decide

theorem byte_and_zero : ∀ b : Byte, b &&& 0x00 = 0 := by decide

/-- The mask 0x00FF00FF keeps the bytes 0 and 2 (R117). -/
theorem and_bytes_even4 (y : BitVec 32) :
    (y &&& 0x00FF00FF).toNat = (lane y 0).toNat + 65536 * (lane y 2).toNat := by
  rw [toNat_eq_lanes4]
  simp only [lane_and (w := 32),
    show lane (0x00FF00FF : BitVec 32) 0 = 0xFF from rfl, show lane (0x00FF00FF : BitVec 32) 1 = 0x00 from rfl,
    show lane (0x00FF00FF : BitVec 32) 2 = 0xFF from rfl, show lane (0x00FF00FF : BitVec 32) 3 = 0x00 from rfl,
    byte_and_ff, byte_and_zero]
  simp

/-- The mask 0x00FF00FF00FF00FF keeps the even bytes (R118). -/
theorem and_bytes_even8 (y : BitVec 64) :
    (y &&& 0x00FF00FF00FF00FF).toNat
      = (lane y 0).toNat + 65536 * (lane y 2).toNat + 4294967296 * (lane y 4).toNat + 281474976710656 * (lane y 6).toNat := by
  rw [toNat_eq_lanes8]
  simp only [lane_and (w := 64),
    show lane (0x00FF00FF00FF00FF : BitVec 64) 0 = 0xFF from rfl,
    show lane (0x00FF00FF00FF00FF : BitVec 64) 1 = 0x00 from rfl,
    show lane (0x00FF00FF00FF00FF : BitVec 64) 2 = 0xFF from rfl,
    show lane (0x00FF00FF00FF00FF : BitVec 64) 3 = 0x00 from rfl,
    show lane (0x00FF00FF00FF00FF : BitVec 64) 4 = 0xFF from rfl,
    show lane (0x00FF00FF00FF00FF : BitVec 64) 5 = 0x00 from rfl,
    show lane (0x00FF00FF00FF00FF : BitVec 64) 6 = 0xFF from rfl,
    show lane (0x00FF00FF00FF00FF : BitVec 64) 7 = 0x00 from rfl, byte_and_ff, byte_and_zero]
  simp

/-- The mask 0x0000FFFF0000FFFF keeps the 16-bit fields 0 and 2 (R118). -/
theorem and_fields_even8 (y : BitVec 64) :
    (y &&& 0x0000FFFF0000FFFF).toNat = y.toNat % 2 ^ 16 + 4294967296 * (y.toNat / 2 ^ 32 % 2 ^ 16) := by
  rw [toNat_eq_lanes8]
  simp only [lane_and (w := 64),
    show lane (0x0000FFFF0000FFFF : BitVec 64) 0 = 0xFF from rfl,
    show lane (0x0000FFFF0000FFFF : BitVec 64) 1 = 0xFF from rfl,
    show lane (0x0000FFFF0000FFFF : BitVec 64) 2 = 0x00 from rfl,
    show lane (0x0000FFFF0000FFFF : BitVec 64) 3 = 0x00 from rfl,
    show lane (0x0000FFFF0000FFFF : BitVec 64) 4 = 0xFF from rfl,
    show lane (0x0000FFFF0000FFFF : BitVec 64) 5 = 0xFF from rfl,
    show lane (0x0000FFFF0000FFFF : BitVec 64) 6 = 0x00 from rfl,
    show lane (0x0000FFFF0000FFFF : BitVec 64) 7 = 0x00 from rfl, byte_and_ff, byte_and_zero, lane_toNat]
  simp
  omega

/-- The digit in lane i of a word of n bytes. -/
def laneDigit {w : Nat} (v : BitVec w) (i : Nat) : Nat := (lane v i ^^^ 0x30).toNat

theorem kval1_digits (w : BitVec 8) : (kval1 w).toNat = laneDigit w 0 := by
  have : kval1 w = lane w 0 ^^^ 0x30 := by
    simp [kval1, digitLanes, rep, lane]
  rw [this, laneDigit]

/-- One multiply, cut and shift of the datapath: the product read as low part, result and overflow. -/
theorem toNat_mul_shift {n k q : Nat} (x c : BitVec n) (r t : Nat) (hk : k ≤ n)
    (h : x.toNat * c.toNat = r + 2 ^ k * (q + 2 ^ (n - k) * t)) (hr : r < 2 ^ k) (hq : q < 2 ^ (n - k)) :
    ((x * c) >>> k).toNat = q := by
  have e : 2 ^ n = 2 ^ k * 2 ^ (n - k) := by rw [← Nat.pow_add, Nat.add_sub_cancel' hk]
  rw [BitVec.toNat_ushiftRight, BitVec.toNat_mul, Nat.shiftRight_eq_div_pow, e]
  exact field_of_mod h hr hq

/-- Lane i of a word put together from fields. -/
theorem lane_eq {n i p : Nat} (x : BitVec n) (r t : Nat) (h : x.toNat = r + 2 ^ (8 * i) * (p + 256 * t))
    (hr : r < 2 ^ (8 * i)) (hp : p < 256) : (lane x i).toNat = p := by
  rw [lane_toNat]
  exact field_eq h hr hp

/-- The datapath of `kval_2` on digits (R116). -/
theorem swar2 (x : BitVec 16) (d0 d1 : Nat) (h0 : d0 ≤ 9) (h1 : d1 ≤ 9) (hx : x.toNat = d0 + 256 * d1) :
    ((x * 2561) >>> 8).toNat = d0 * 10 + d1 := by
  have c : (2561 : BitVec 16).toNat = 2561 := rfl
  exact toNat_mul_shift x _ d0 (d1 * 10) (by omega) (by rw [hx, c]; omega) (by omega) (by omega)

/-- The datapath of `kval_4` on digits (R117). -/
theorem swar4 (x : BitVec 32) (d0 d1 d2 d3 : Nat) (h0 : d0 ≤ 9) (h1 : d1 ≤ 9) (h2 : d2 ≤ 9) (h3 : d3 ≤ 9)
    (hx : x.toNat = d0 + 256 * d1 + 65536 * d2 + 16777216 * d3) :
    (((((x * 2561) >>> 8) &&& 0x00FF00FF) * 6553601) >>> 16).toNat = d0 * 1000 + d1 * 100 + d2 * 10 + d3 := by
  have c1 : (2561 : BitVec 32).toNat = 2561 := rfl
  have c2 : (6553601 : BitVec 32).toNat = 6553601 := rfl
  have hy : ((x * 2561) >>> 8).toNat = (d0 * 10 + d1) + 256 * (d1 * 10 + d2) + 65536 * (d2 * 10 + d3) :=
    toNat_mul_shift x _ d0 (d3 * 10) (by omega) (by rw [hx, c1]; omega) (by omega) (by omega)
  generalize (x * 2561) >>> 8 = y at hy ⊢
  have l0 : (lane y 0).toNat = d0 * 10 + d1 :=
    lane_eq y 0 ((d1 * 10 + d2) + 256 * (d2 * 10 + d3)) (by rw [hy]; omega) (by omega) (by omega)
  have l2 : (lane y 2).toNat = d2 * 10 + d3 :=
    lane_eq y ((d0 * 10 + d1) + 256 * (d1 * 10 + d2)) 0 (by rw [hy]; omega) (by omega) (by omega)
  have hm : (y &&& 0x00FF00FF).toNat = (d0 * 10 + d1) + 65536 * (d2 * 10 + d3) := by
    rw [and_bytes_even4, l0, l2]
  generalize y &&& 0x00FF00FF = z at hm ⊢
  exact toNat_mul_shift z _ (d0 * 10 + d1) ((d2 * 10 + d3) * 100) (by omega) (by rw [hm, c2]; omega) (by omega)
    (by omega)

theorem pair_lt {a b : Nat} (ha : a ≤ 9) (hb : b ≤ 9) : a * 10 + b < 100 := by omega

theorem quad_lt {a b : Nat} (ha : a < 100) (hb : b < 100) : a * 100 + b < 10000 := by omega

/-- Pair values in bytes stay below the byte above them. -/
theorem bytes_lt {p0 p1 p2 p3 p4 p5 p6 : Nat} (h0 : p0 < 100) (h1 : p1 < 100) (h2 : p2 < 100) (h3 : p3 < 100)
    (h4 : p4 < 100) (h5 : p5 < 100) (h6 : p6 < 100) :
    p0 + 256 * p1 < 2 ^ 16 ∧ p0 + 256 * p1 + 65536 * p2 + 16777216 * p3 < 2 ^ 32
      ∧ p0 + 256 * p1 + 65536 * p2 + 16777216 * p3 + 4294967296 * p4 + 1099511627776 * p5 < 2 ^ 48
      ∧ p0 + 256 * p1 + 65536 * p2 + 16777216 * p3 + 4294967296 * p4 + 1099511627776 * p5
        + 281474976710656 * p6 < 2 ^ 56 := by
  refine ⟨?_, ?_, ?_, ?_⟩ <;> omega

/-- Even bytes of a word of pair values (R118). -/
theorem even_bytes (y : BitVec 64) {p0 p1 p2 p3 p4 p5 p6 : Nat} (h0 : p0 < 100) (h1 : p1 < 100) (h2 : p2 < 100)
    (h3 : p3 < 100) (h4 : p4 < 100) (h5 : p5 < 100) (h6 : p6 < 100)
    (hy : y.toNat = p0 + 256 * p1 + 65536 * p2 + 16777216 * p3 + 4294967296 * p4 + 1099511627776 * p5
      + 281474976710656 * p6) :
    (y &&& 0x00FF00FF00FF00FF).toNat = p0 + 65536 * p2 + 4294967296 * p4 + 281474976710656 * p6 := by
  obtain ⟨b2, b4, b6, -⟩ := bytes_lt h0 h1 h2 h3 h4 h5 h6
  have big : ∀ {p : Nat}, p < 100 → p < 256 := fun h => Nat.lt_trans h (by decide)
  have l0 : (lane y 0).toNat = p0 :=
    lane_eq y 0 (p1 + 256 * p2 + 65536 * p3 + 16777216 * p4 + 4294967296 * p5 + 1099511627776 * p6)
      (by rw [hy]; ring) (by decide) (big h0)
  have l2 : (lane y 2).toNat = p2 :=
    lane_eq y (p0 + 256 * p1) (p3 + 256 * p4 + 65536 * p5 + 16777216 * p6) (by rw [hy]; ring) b2 (big h2)
  have l4 : (lane y 4).toNat = p4 :=
    lane_eq y (p0 + 256 * p1 + 65536 * p2 + 16777216 * p3) (p5 + 256 * p6) (by rw [hy]; ring) b4 (big h4)
  have l6 : (lane y 6).toNat = p6 :=
    lane_eq y (p0 + 256 * p1 + 65536 * p2 + 16777216 * p3 + 4294967296 * p4 + 1099511627776 * p5) 0
      (by rw [hy]; ring) b6 (big h6)
  rw [and_bytes_even8, l0, l2, l4, l6]

/-- The first stage of `kval_8` on digits: the digit pairs (R118). -/
theorem swar8_pairs (x : BitVec 64) {d0 d1 d2 d3 d4 d5 d6 d7 : Nat} (h0 : d0 ≤ 9) (h1 : d1 ≤ 9) (h2 : d2 ≤ 9)
    (h3 : d3 ≤ 9) (h4 : d4 ≤ 9) (h5 : d5 ≤ 9) (h6 : d6 ≤ 9) (h7 : d7 ≤ 9)
    (hx : x.toNat = d0 + 256 * d1 + 65536 * d2 + 16777216 * d3 + 4294967296 * d4 + 1099511627776 * d5
      + 281474976710656 * d6 + 72057594037927936 * d7) :
    (((x * 2561) >>> 8) &&& 0x00FF00FF00FF00FF).toNat
      = (d0 * 10 + d1) + 65536 * (d2 * 10 + d3) + 4294967296 * (d4 * 10 + d5) + 281474976710656 * (d6 * 10 + d7) := by
  have c1 : (2561 : BitVec 64).toNat = 2561 := rfl
  have p0 := pair_lt h0 h1
  have p1 := pair_lt h1 h2
  have p2 := pair_lt h2 h3
  have p3 := pair_lt h3 h4
  have p4 := pair_lt h4 h5
  have p5 := pair_lt h5 h6
  have p6 := pair_lt h6 h7
  refine even_bytes _ p0 p1 p2 p3 p4 p5 p6 (toNat_mul_shift x _ d0 (d7 * 10) (by decide) ?_ ?_ ?_)
  · rw [hx, c1]; ring
  · exact Nat.lt_of_le_of_lt h0 (by decide)
  · exact (bytes_lt p0 p1 p2 p3 p4 p5 p6).2.2.2

/-- Fields of four digits in 16 bits stay below the field above them. -/
theorem fields_lt {q0 q1 q2 : Nat} (h0 : q0 < 10000) (h1 : q1 < 10000) (h2 : q2 < 10000) :
    q0 < 2 ^ 16 ∧ q2 < 2 ^ 16 ∧ q0 + 65536 * q1 < 2 ^ 32 ∧ q0 + 65536 * q1 + 4294967296 * q2 < 2 ^ 48
      ∧ q0 * 10000 + q2 < 2 ^ 32 := by
  refine ⟨?_, ?_, ?_, ?_, ?_⟩ <;> omega

/-- The second stage of `kval_8` on pair values: the 4-digit values in fields 0 and 2 (R118). -/
theorem swar8_quads (z : BitVec 64) {p0 p2 p4 p6 : Nat} (h0 : p0 < 100) (h2 : p2 < 100) (h4 : p4 < 100)
    (h6 : p6 < 100) (hz : z.toNat = p0 + 65536 * p2 + 4294967296 * p4 + 281474976710656 * p6) :
    (((z * 6553601) >>> 16) &&& 0x0000FFFF0000FFFF).toNat = (p0 * 100 + p2) + 4294967296 * (p4 * 100 + p6) := by
  have c2 : (6553601 : BitVec 64).toNat = 6553601 := rfl
  obtain ⟨b0, b2, b02, b012, -⟩ := fields_lt (quad_lt h0 h2) (quad_lt h2 h4) (quad_lt h4 h6)
  have hy : ((z * 6553601) >>> 16).toNat
      = (p0 * 100 + p2) + 65536 * (p2 * 100 + p4) + 4294967296 * (p4 * 100 + p6) :=
    toNat_mul_shift z _ p0 (p6 * 100) (by decide) (by rw [hz, c2]; ring) (Nat.lt_trans h0 (by decide)) b012
  generalize (z * 6553601) >>> 16 = y at hy ⊢
  have f0 : y.toNat / 1 % 2 ^ 16 = p0 * 100 + p2 :=
    field_eq (r := 0) (t := (p2 * 100 + p4) + 65536 * (p4 * 100 + p6)) (by rw [hy]; ring) (by decide) b0
  have f2 : y.toNat / 2 ^ 32 % 2 ^ 16 = p4 * 100 + p6 :=
    field_eq (r := (p0 * 100 + p2) + 65536 * (p2 * 100 + p4)) (t := 0) (by rw [hy]; ring) b02 b2
  rw [Nat.div_one] at f0
  rw [and_fields_even8, f0, f2]

/-- The last stage of `kval_8` on two 4-digit values (R118). -/
theorem swar8_join (v : BitVec 64) {q0 q2 : Nat} (h0 : q0 < 10000) (h2 : q2 < 10000)
    (hv : v.toNat = q0 + 4294967296 * q2) :
    ((v * 42949672960001) >>> 32).toNat = q0 * 10000 + q2 := by
  have c3 : (42949672960001 : BitVec 64).toNat = 42949672960001 := rfl
  exact toNat_mul_shift v _ q0 (q2 * 10000) (by decide) (by rw [hv, c3]; ring) (Nat.lt_trans h0 (by decide))
    (fields_lt h0 h0 h2).2.2.2.2

/-- On two digits `kval_2` is their value (R114, R116). -/
theorem kval2_digits (w : BitVec 16) (h : ∀ i < 2, laneDigit w i ≤ 9) :
    (kval2 w).toNat = laneDigit w 0 * 10 + laneDigit w 1 := by
  have l (i : Nat) (hi : i < 2) : (lane (digitLanes 2 w) i).toNat = laneDigit w i := by
    rw [lane_digitLanes (n := 2) w hi, laneDigit]
  refine swar2 _ _ _ (h 0 (by decide)) (h 1 (by decide)) ?_
  rw [← l 0 (by decide), ← l 1 (by decide)]
  exact toNat_eq_lanes2 _

/-- On four digits `kval_4` is their value (R114, R117). -/
theorem kval4_digits (w : BitVec 32) (h : ∀ i < 4, laneDigit w i ≤ 9) :
    (kval4 w).toNat = laneDigit w 0 * 1000 + laneDigit w 1 * 100 + laneDigit w 2 * 10 + laneDigit w 3 := by
  have l (i : Nat) (hi : i < 4) : (lane (digitLanes 4 w) i).toNat = laneDigit w i := by
    rw [lane_digitLanes (n := 4) w hi, laneDigit]
  refine swar4 _ _ _ _ _ (h 0 (by decide)) (h 1 (by decide)) (h 2 (by decide)) (h 3 (by decide)) ?_
  rw [← l 0 (by decide), ← l 1 (by decide), ← l 2 (by decide), ← l 3 (by decide)]
  exact toNat_eq_lanes4 _

/-- On eight digits `kval_8` is their value (R114, R118). -/
theorem kval8_digits (w : BitVec 64) (h : ∀ i < 8, laneDigit w i ≤ 9) :
    (kval8 w).toNat = laneDigit w 0 * 10000000 + laneDigit w 1 * 1000000 + laneDigit w 2 * 100000
      + laneDigit w 3 * 10000 + laneDigit w 4 * 1000 + laneDigit w 5 * 100 + laneDigit w 6 * 10 + laneDigit w 7 := by
  have l (i : Nat) (hi : i < 8) : (lane (digitLanes 8 w) i).toNat = laneDigit w i := by
    rw [lane_digitLanes (n := 8) w hi, laneDigit]
  have h0 := h 0 (by decide)
  have h1 := h 1 (by decide)
  have h2 := h 2 (by decide)
  have h3 := h 3 (by decide)
  have h4 := h 4 (by decide)
  have h5 := h 5 (by decide)
  have h6 := h 6 (by decide)
  have h7 := h 7 (by decide)
  have hx : (digitLanes 8 w : BitVec 64).toNat = laneDigit w 0 + 256 * laneDigit w 1 + 65536 * laneDigit w 2
      + 16777216 * laneDigit w 3 + 4294967296 * laneDigit w 4 + 1099511627776 * laneDigit w 5
      + 281474976710656 * laneDigit w 6 + 72057594037927936 * laneDigit w 7 := by
    rw [← l 0 (by decide), ← l 1 (by decide), ← l 2 (by decide), ← l 3 (by decide), ← l 4 (by decide),
      ← l 5 (by decide), ← l 6 (by decide), ← l 7 (by decide)]
    exact toNat_eq_lanes8 _
  have hp := swar8_pairs _ h0 h1 h2 h3 h4 h5 h6 h7 hx
  have hq := swar8_quads _ (pair_lt h0 h1) (pair_lt h2 h3) (pair_lt h4 h5) (pair_lt h6 h7) hp
  refine Eq.trans (swar8_join _ (quad_lt (pair_lt h0 h1) (pair_lt h2 h3)) (quad_lt (pair_lt h4 h5) (pair_lt h6 h7))
    hq) ?_
  ring

/-! ### The chunk word -/

/-- Lane i of a field that starts at lane k is lane k + i of the word. -/
theorem lane_extract (w : Wide) {k m i : Nat} (h : i < m) : lane (w.extractLsb' (8 * k) (8 * m)) i = lane w (k + i) := by
  apply BitVec.eq_of_getLsbD_eq
  intro j hj
  have h1 : 8 * i + j < 8 * m := by omega
  have e : 8 * k + (8 * i + j) = 8 * (k + i) + j := by omega
  simp [lane, hj, h1, e]

theorem laneDigit_low (w : Wide) {m i : Nat} (h : i < m) : laneDigit (w.extractLsb' 0 (8 * m)) i = laneDigit w i := by
  have := lane_extract w (k := 0) h
  rw [Nat.mul_zero, Nat.zero_add] at this
  rw [laneDigit, laneDigit, this]

theorem laneDigit_high (w : Wide) {i : Nat} (h : i < 8) :
    laneDigit (w.extractLsb' 64 64) i = laneDigit w (8 + i) := by
  rw [laneDigit, laneDigit]
  exact congrArg (fun b : Byte => (b ^^^ 0x30).toNat) (lane_extract w (k := 8) (m := 8) h)

theorem kerr_low (w : Wide) (m : Nat) :
    kerr m (w.extractLsb' 0 (8 * m)) = 0 ↔ ∀ i < m, laneDigit w i ≤ 9 := by
  rw [kerr_eq_zero_iff]
  refine forall₂_congr fun i hi => ?_
  rw [← laneDigit_low w hi, laneDigit]

theorem kerr_high (w : Wide) : kerr 8 (w.extractLsb' 64 64) = 0 ↔ ∀ i < 8, laneDigit w (8 + i) ≤ 9 := by
  rw [kerr_eq_zero_iff (n := 8)]
  refine forall₂_congr fun i hi => ?_
  rw [← laneDigit_high w hi, laneDigit]

theorem setWidth_eq_zero_iff {n m : Nat} (h : n ≤ m) (v : BitVec n) : v.setWidth m = 0 ↔ v = 0 := by
  have hv : v.toNat < 2 ^ m := Nat.lt_of_lt_of_le v.isLt (Nat.pow_le_pow_right (by decide) h)
  rw [← BitVec.toNat_inj, ← BitVec.toNat_inj, BitVec.toNat_setWidth, Nat.mod_eq_of_lt hv]
  simp

theorem or_eq_zero_iff {n : Nat} (u v : BitVec n) : u ||| v = 0 ↔ u = 0 ∧ v = 0 := by
  constructor
  · intro h
    constructor <;> apply BitVec.eq_of_getLsbD_eq <;> intro i hi <;>
      · have := congrArg (fun b => b.getLsbD i) h
        simp at this
        simp [this]
  · rintro ⟨rfl, rfl⟩
    simp

/-- The error bits of a chunk are zero exactly when every one of its bytes is a digit (R113, R134). -/
theorem chunkErr_eq_zero_iff (n : ChunkSize) (cw : Wide) :
    chunkErr n cw = 0 ↔ ∀ i < chunkBytes n, laneDigit cw i ≤ 9 := by
  cases n
  · exact (setWidth_eq_zero_iff (by decide) _).trans (kerr_low cw 1)
  · exact (setWidth_eq_zero_iff (by decide) _).trans (kerr_low cw 2)
  · exact (setWidth_eq_zero_iff (by decide) _).trans (kerr_low cw 4)
  · exact kerr_low cw 8
  · refine (or_eq_zero_iff _ _).trans ((and_congr (kerr_low cw 8) (kerr_high cw)).trans ?_)
    constructor
    · rintro ⟨hl, hh⟩ i hi
      have hi : i < 16 := hi
      rcases Nat.lt_or_ge i 8 with h | h
      · exact hl i h
      · have := hh (i - 8) (by omega)
        rwa [show 8 + (i - 8) = i by omega] at this
    · intro h
      exact ⟨fun i hi => h i (Nat.lt_trans hi (by decide)), fun i hi => h (8 + i) (by show 8 + i < 16; omega)⟩

/-- The decimal value of the digits in the first n lanes, lane 0 the most significant (R10, R114). -/
def lanesValue (n : Nat) (w : Wide) : Nat := (List.range n).foldl (fun v i => v * 10 + laneDigit w i) 0

/-- On a chunk of digits the kernel's value is their decimal value (R114, R134). -/
theorem chunkVal_digits (n : ChunkSize) (cw : Wide) (h : ∀ i < chunkBytes n, laneDigit cw i ≤ 9) :
    (chunkVal n cw).toNat = lanesValue (chunkBytes n) cw := by
  cases n
  · have h : ∀ i < 1, laneDigit cw i ≤ 9 := h
    have k := kval1_digits (cw.extractLsb' 0 8)
    rw [laneDigit_low cw (m := 1) (by decide)] at k
    show ((kval1 (cw.extractLsb' 0 8)).setWidth 64).toNat = lanesValue 1 cw
    rw [BitVec.toNat_setWidth, k, Nat.mod_eq_of_lt (Nat.lt_of_le_of_lt (h 0 (by decide)) (by decide))]
    simp [lanesValue, List.range_succ]
  · have h : ∀ i < 2, laneDigit cw i ≤ 9 := h
    have k := kval2_digits (cw.extractLsb' 0 16) fun i hi => by
      rw [laneDigit_low cw (m := 2) hi]; exact h i hi
    rw [laneDigit_low cw (m := 2) (by decide), laneDigit_low cw (m := 2) (by decide)] at k
    show ((kval2 (cw.extractLsb' 0 16)).setWidth 64).toNat = lanesValue 2 cw
    have h0 := h 0 (by decide)
    have h1 := h 1 (by decide)
    rw [BitVec.toNat_setWidth, k, Nat.mod_eq_of_lt (by omega)]
    simp [lanesValue, List.range_succ]
  · have h : ∀ i < 4, laneDigit cw i ≤ 9 := h
    have k := kval4_digits (cw.extractLsb' 0 32) fun i hi => by
      rw [laneDigit_low cw (m := 4) hi]; exact h i hi
    rw [laneDigit_low cw (m := 4) (by decide), laneDigit_low cw (m := 4) (by decide),
      laneDigit_low cw (m := 4) (by decide), laneDigit_low cw (m := 4) (by decide)] at k
    show ((kval4 (cw.extractLsb' 0 32)).setWidth 64).toNat = lanesValue 4 cw
    have h0 := h 0 (by decide)
    have h1 := h 1 (by decide)
    have h2 := h 2 (by decide)
    have h3 := h 3 (by decide)
    rw [BitVec.toNat_setWidth, k, Nat.mod_eq_of_lt (by omega)]
    simp [lanesValue, List.range_succ]
    ring
  · have h : ∀ i < 8, laneDigit cw i ≤ 9 := h
    have k := kval8_digits (cw.extractLsb' 0 64) fun i hi => by
      rw [laneDigit_low cw (m := 8) hi]; exact h i hi
    have l (i : Nat) (hi : i < 8) := laneDigit_low cw (m := 8) hi
    simp only [l 0 (by decide), l 1 (by decide), l 2 (by decide), l 3 (by decide), l 4 (by decide),
      l 5 (by decide), l 6 (by decide), l 7 (by decide)] at k
    show (kval8 (cw.extractLsb' 0 64)).toNat = lanesValue 8 cw
    rw [k]
    simp [lanesValue, List.range_succ]
    ring
  · have h : ∀ i < 16, laneDigit cw i ≤ 9 := h
    have kl := kval8_digits (cw.extractLsb' 0 64) fun i hi => by
      rw [laneDigit_low cw (m := 8) hi]; exact h i (by omega)
    have kh := kval8_digits (cw.extractLsb' 64 64) fun i hi => by
      rw [laneDigit_high cw hi]; exact h (8 + i) (by omega)
    have l (i : Nat) (hi : i < 8) := laneDigit_low cw (m := 8) hi
    have u (i : Nat) (hi : i < 8) := laneDigit_high cw hi
    simp only [l 0 (by decide), l 1 (by decide), l 2 (by decide), l 3 (by decide), l 4 (by decide),
      l 5 (by decide), l 6 (by decide), l 7 (by decide)] at kl
    simp only [u 0 (by decide), u 1 (by decide), u 2 (by decide), u 3 (by decide), u 4 (by decide),
      u 5 (by decide), u 6 (by decide), u 7 (by decide)] at kh
    have bl : (kval8 (cw.extractLsb' 0 64)).toNat < 100000000 := by
      rw [kl]
      have h0 := h 0 (by decide)
      have h1 := h 1 (by decide)
      have h2 := h 2 (by decide)
      have h3 := h 3 (by decide)
      have h4 := h 4 (by decide)
      have h5 := h 5 (by decide)
      have h6 := h 6 (by decide)
      have h7 := h 7 (by decide)
      clear kl kh l u h
      omega
    have bh : (kval8 (cw.extractLsb' 64 64)).toNat < 100000000 := by
      rw [kh]
      have h0 := h (8 + 0) (by decide)
      have h1 := h (8 + 1) (by decide)
      have h2 := h (8 + 2) (by decide)
      have h3 := h (8 + 3) (by decide)
      have h4 := h (8 + 4) (by decide)
      have h5 := h (8 + 5) (by decide)
      have h6 := h (8 + 6) (by decide)
      have h7 := h (8 + 7) (by decide)
      clear kl kh l u h
      omega
    show (kval8 (cw.extractLsb' 0 64) * 100000000 + kval8 (cw.extractLsb' 64 64)).toNat = lanesValue 16 cw
    have c : (100000000 : BitVec 64).toNat = 100000000 := rfl
    have e : (kval8 (cw.extractLsb' 0 64) * 100000000 + kval8 (cw.extractLsb' 64 64)).toNat
        = (kval8 (cw.extractLsb' 0 64)).toNat * 100000000 + (kval8 (cw.extractLsb' 64 64)).toNat := by
      rw [BitVec.toNat_add, BitVec.toNat_mul, c, Nat.mod_add_mod]
      exact Nat.mod_eq_of_lt (by omega)
    rw [e, kl, kh]
    simp [lanesValue, List.range_succ]
    ring

end Sys2Proof.Machine
end

