-- ==== Sys2Proof/Laws/Memory.lean ====
section
/-! SUPPORT. IMEM: reading after the host has put a byte, and the canonical form, which every operation keeps. -/

namespace Sys2Proof.Machine

variable {aw : AddrWidth}

@[simp] theorem imemRead_nil (a : Nat) : imemRead [] a = Config.imemBlank := rfl

theorem imemRead_cons (c : Host.Cell) (m : List Host.Cell) (a : Nat) :
    imemRead (c :: m) a = if c.1 = a then c.2 else imemRead m a := rfl

/-- The canonical form of a list is that of its head before all of its tail, and of its tail. -/
theorem imemWf_cons (aw : AddrWidth) (c : Host.Cell) (m : List Host.Cell) :
    imemWf aw (c :: m) = true ↔
      c.1 < 2 ^ aw.bits ∧ c.2 ≠ Config.imemBlank ∧ (∀ d ∈ m, c.1 < d.1) ∧ imemWf aw m = true := by
  simp only [imemWf, Bool.and_eq_true, decide_eq_true_eq, List.all_eq_true, and_assoc]

/-- An address before every entry is not listed. -/
theorem imemRead_of_lt {m : List Host.Cell} {a : Nat} (h : ∀ d ∈ m, a < d.1) :
    imemRead m a = Config.imemBlank := by
  induction m with
  | nil => rfl
  | cons c m ih =>
    have hc := h c (by simp)
    rw [imemRead_cons, if_neg (by omega)]
    exact ih fun d hd => h d (by simp [hd])

theorem mem_imemErase {m : List Host.Cell} {a : Nat} {d : Host.Cell} (h : d ∈ imemErase m a) : d ∈ m := by
  induction m with
  | nil => simp [imemErase] at h
  | cons c m ih =>
    unfold imemErase at h
    split at h
    · simp [h]
    · rcases List.mem_cons.mp h with rfl | h
      · simp
      · simp [ih h]

theorem mem_imemInsert {m : List Host.Cell} {a : Nat} {b : Byte} {d : Host.Cell} (h : d ∈ imemInsert m a b) :
    d = (a, b) ∨ d ∈ m := by
  induction m with
  | nil => simpa [imemInsert] using h
  | cons c m ih =>
    unfold imemInsert at h
    split at h
    · simpa using h
    · split at h
      · rcases List.mem_cons.mp h with rfl | h
        · simp
        · simp [h]
      · rcases List.mem_cons.mp h with rfl | h
        · simp
        · rcases ih h with rfl | h
          · simp
          · simp [h]

theorem imemErase_wf {m : List Host.Cell} (a : Nat) (h : imemWf aw m = true) : imemWf aw (imemErase m a) = true := by
  induction m with
  | nil => rfl
  | cons c m ih =>
    obtain ⟨h1, h2, h3, h4⟩ := (imemWf_cons aw c m).mp h
    unfold imemErase
    split
    · exact h4
    · exact (imemWf_cons _ _ _).mpr ⟨h1, h2, fun d hd => h3 d (mem_imemErase hd), ih h4⟩

theorem imemInsert_wf {m : List Host.Cell} {a : Nat} {b : Byte} (ha : a < 2 ^ aw.bits)
    (hb : b ≠ Config.imemBlank) (h : imemWf aw m = true) : imemWf aw (imemInsert m a b) = true := by
  induction m with
  | nil => simp [imemInsert, imemWf, hb]; simpa using ha
  | cons c m ih =>
    obtain ⟨h1, h2, h3, h4⟩ := (imemWf_cons aw c m).mp h
    unfold imemInsert
    split
    · rename_i hlt
      refine (imemWf_cons _ _ _).mpr ⟨ha, hb, fun d hd => ?_, h⟩
      rcases List.mem_cons.mp hd with rfl | hd
      · exact hlt
      · exact Nat.lt_trans hlt (h3 d hd)
    · split
      · rename_i _ heq
        subst heq
        exact (imemWf_cons _ _ _).mpr ⟨ha, hb, h3, h4⟩
      · rename_i hge hne
        refine (imemWf_cons _ _ _).mpr ⟨h1, h2, fun d hd => ?_, ih h4⟩
        rcases mem_imemInsert hd with rfl | hd
        · show c.1 < a; omega
        · exact h3 d hd

/-- The host's write keeps the canonical form. -/
theorem imemPoke_wf {m : List Host.Cell} (a : Nat) (b : Byte) (h : imemWf aw m = true) :
    imemWf aw (imemPoke aw m a b) = true := by
  unfold imemPoke
  split
  · exact imemErase_wf _ h
  · exact imemInsert_wf (Nat.mod_lt _ (Nat.two_pow_pos _)) ‹_› h

theorem imemRead_imemErase {m : List Host.Cell} (a c : Nat) (h : imemWf aw m = true) :
    imemRead (imemErase m a) c = if c = a then Config.imemBlank else imemRead m c := by
  induction m with
  | nil => simp [imemErase]
  | cons d m ih =>
    obtain ⟨-, -, h3, h4⟩ := (imemWf_cons aw d m).mp h
    unfold imemErase
    split
    · rename_i hd
      subst hd
      split
      · subst_vars; exact imemRead_of_lt h3
      · rw [imemRead_cons, if_neg (by omega)]
    · rename_i hd
      rw [imemRead_cons, imemRead_cons, ih h4]
      by_cases hc : d.1 = c
      · simp [hc, show c ≠ a by omega]
      · simp [hc]

theorem imemRead_imemInsert (m : List Host.Cell) (a c : Nat) (b : Byte) :
    imemRead (imemInsert m a b) c = if c = a then b else imemRead m c := by
  induction m with
  | nil => simp [imemInsert, imemRead_cons, eq_comm]
  | cons d m ih =>
    unfold imemInsert
    split
    · rw [imemRead_cons]
      simp [eq_comm]
    · split
      · rename_i _ hd
        subst hd
        rw [imemRead_cons, imemRead_cons]
        by_cases hc : c = d.1
        · simp [hc]
        · simp [Ne.symm hc, hc]
      · rename_i _ hd
        rw [imemRead_cons, imemRead_cons, ih]
        by_cases hc : d.1 = c
        · simp [hc, show c ≠ a by omega]
        · simp [hc]

/-- Two numbers with the same low AW bits are one address (R9, R60). -/
theorem imemByte_mod (aw : AddrWidth) (m : List Host.Cell) (a : Nat) :
    imemByte aw m (a % 2 ^ aw.bits) = imemByte aw m a := by
  rw [imemByte, imemByte, Nat.mod_mod]

/-- An address of AW bits is read as it stands. -/
theorem imemByte_of_lt {m : List Host.Cell} {a : Nat} (h : a < 2 ^ aw.bits) : imemByte aw m a = imemRead m a := by
  rw [imemByte, Nat.mod_eq_of_lt h]

/-- Read after write: the byte the host has put, and every other byte as before (R67). -/
theorem imemByte_imemPoke {m : List Host.Cell} (a c : Nat) (b : Byte) (h : imemWf aw m = true) :
    imemByte aw (imemPoke aw m a b) c
      = if c % 2 ^ aw.bits = a % 2 ^ aw.bits then b else imemByte aw m c := by
  unfold imemByte imemPoke
  split
  · rename_i hb
    rw [imemRead_imemErase _ _ h, hb]
  · exact imemRead_imemInsert _ _ _ _

end Sys2Proof.Machine
end

