-- ==== Sys2Proof/Laws/State.lean ====
section
/-! SUPPORT. The named updates of the state, field by field: for each update and each field, what the field holds after
it. With these in the simp set no proof unfolds a record update. -/

namespace Sys2Proof.Machine

/-! ### raise -/

@[simp] theorem raise_iptr (c : FaultCode) (w : OpWord) (s : State) : (raise c w s).iptr = s.iptr := rfl
@[simp] theorem raise_ilen (c : FaultCode) (w : OpWord) (s : State) : (raise c w s).ilen = s.ilen := rfl
@[simp] theorem raise_mode (c : FaultCode) (w : OpWord) (s : State) : (raise c w s).mode = s.mode := rfl
@[simp] theorem raise_sp (c : FaultCode) (w : OpWord) (s : State) : (raise c w s).sp = s.sp := rfl
@[simp] theorem raise_sl (c : FaultCode) (w : OpWord) (s : State) : (raise c w s).sl = s.sl := rfl
@[simp] theorem raise_neg (c : FaultCode) (w : OpWord) (s : State) : (raise c w s).neg = s.neg := rfl
@[simp] theorem raise_err (c : FaultCode) (w : OpWord) (s : State) : (raise c w s).err = s.err := rfl
@[simp] theorem raise_acc (c : FaultCode) (w : OpWord) (s : State) : (raise c w s).acc = s.acc := rfl
@[simp] theorem raise_cw (c : FaultCode) (w : OpWord) (s : State) : (raise c w s).cw = s.cw := rfl
@[simp] theorem raise_cn (c : FaultCode) (w : OpWord) (s : State) : (raise c w s).cn = s.cn := rfl
@[simp] theorem raise_cv (c : FaultCode) (w : OpWord) (s : State) : (raise c w s).cv = s.cv := rfl
@[simp] theorem raise_low (c : FaultCode) (w : OpWord) (s : State) : (raise c w s).low = s.low := rfl
@[simp] theorem raise_ln (c : FaultCode) (w : OpWord) (s : State) : (raise c w s).ln = s.ln := rfl
@[simp] theorem raise_lv (c : FaultCode) (w : OpWord) (s : State) : (raise c w s).lv = s.lv := rfl
@[simp] theorem raise_fhi (c : FaultCode) (w : OpWord) (s : State) : (raise c w s).fhi = s.fhi := rfl
@[simp] theorem raise_fk (c : FaultCode) (w : OpWord) (s : State) : (raise c w s).fk = s.fk := rfl
@[simp] theorem raise_av (c : FaultCode) (w : OpWord) (s : State) : (raise c w s).av = s.av := rfl
@[simp] theorem raise_ph (c : FaultCode) (w : OpWord) (s : State) : (raise c w s).ph = .halt := rfl
@[simp] theorem raise_res (c : FaultCode) (w : OpWord) (s : State) : (raise c w s).res = s.res := rfl
@[simp] theorem raise_valid (c : FaultCode) (w : OpWord) (s : State) : (raise c w s).valid = s.valid := rfl
@[simp] theorem raise_fault (c : FaultCode) (w : OpWord) (s : State) : (raise c w s).fault = c := rfl
@[simp] theorem raise_fop (c : FaultCode) (w : OpWord) (s : State) : (raise c w s).fop = w := rfl
@[simp] theorem raise_ksel (c : FaultCode) (w : OpWord) (s : State) : (raise c w s).ksel = s.ksel := rfl
@[simp] theorem raise_aw (c : FaultCode) (w : OpWord) (s : State) : (raise c w s).aw = s.aw := rfl
@[simp] theorem raise_imem (c : FaultCode) (w : OpWord) (s : State) : (raise c w s).imem = s.imem := rfl
@[simp] theorem raise_input (c : FaultCode) (w : OpWord) (s : State) : (raise c w s).input = s.input := rfl

/-! ### advance -/

@[simp] theorem advance_iptr (n : Nat) (s : State) : (advance n s).iptr = s.iptr := rfl
@[simp] theorem advance_ilen (n : Nat) (s : State) : (advance n s).ilen = s.ilen := rfl
@[simp] theorem advance_mode (n : Nat) (s : State) : (advance n s).mode = s.mode := rfl
@[simp] theorem advance_sp (n : Nat) (s : State) : (advance n s).sp = (s.sp + n) % 2 ^ s.aw.bits := rfl
@[simp] theorem advance_sl (n : Nat) (s : State) : (advance n s).sl = s.sl - n := rfl
@[simp] theorem advance_neg (n : Nat) (s : State) : (advance n s).neg = s.neg := rfl
@[simp] theorem advance_err (n : Nat) (s : State) : (advance n s).err = s.err := rfl
@[simp] theorem advance_acc (n : Nat) (s : State) : (advance n s).acc = s.acc := rfl
@[simp] theorem advance_cw (n : Nat) (s : State) : (advance n s).cw = s.cw := rfl
@[simp] theorem advance_cn (n : Nat) (s : State) : (advance n s).cn = s.cn := rfl
@[simp] theorem advance_cv (n : Nat) (s : State) : (advance n s).cv = s.cv := rfl
@[simp] theorem advance_low (n : Nat) (s : State) : (advance n s).low = s.low := rfl
@[simp] theorem advance_ln (n : Nat) (s : State) : (advance n s).ln = s.ln := rfl
@[simp] theorem advance_lv (n : Nat) (s : State) : (advance n s).lv = s.lv := rfl
@[simp] theorem advance_fhi (n : Nat) (s : State) : (advance n s).fhi = s.fhi := rfl
@[simp] theorem advance_fk (n : Nat) (s : State) : (advance n s).fk = s.fk := rfl
@[simp] theorem advance_av (n : Nat) (s : State) : (advance n s).av = s.av := rfl
@[simp] theorem advance_ph (n : Nat) (s : State) : (advance n s).ph = s.ph := rfl
@[simp] theorem advance_res (n : Nat) (s : State) : (advance n s).res = s.res := rfl
@[simp] theorem advance_valid (n : Nat) (s : State) : (advance n s).valid = s.valid := rfl
@[simp] theorem advance_fault (n : Nat) (s : State) : (advance n s).fault = s.fault := rfl
@[simp] theorem advance_fop (n : Nat) (s : State) : (advance n s).fop = s.fop := rfl
@[simp] theorem advance_ksel (n : Nat) (s : State) : (advance n s).ksel = s.ksel := rfl
@[simp] theorem advance_aw (n : Nat) (s : State) : (advance n s).aw = s.aw := rfl
@[simp] theorem advance_imem (n : Nat) (s : State) : (advance n s).imem = s.imem := rfl
@[simp] theorem advance_input (n : Nat) (s : State) : (advance n s).input = s.input := rfl

/-! ### startCall -/

@[simp] theorem startCall_iptr (m : Mode) (s : State) : (startCall m s).iptr = s.iptr := rfl
@[simp] theorem startCall_ilen (m : Mode) (s : State) : (startCall m s).ilen = s.ilen := rfl
@[simp] theorem startCall_mode (m : Mode) (s : State) : (startCall m s).mode = m := rfl
@[simp] theorem startCall_sp (m : Mode) (s : State) : (startCall m s).sp = s.iptr := rfl
@[simp] theorem startCall_sl (m : Mode) (s : State) : (startCall m s).sl = s.ilen := rfl
@[simp] theorem startCall_neg (m : Mode) (s : State) : (startCall m s).neg = false := rfl
@[simp] theorem startCall_err (m : Mode) (s : State) : (startCall m s).err = 0 := rfl
@[simp] theorem startCall_acc (m : Mode) (s : State) : (startCall m s).acc = 0 := rfl
@[simp] theorem startCall_cw (m : Mode) (s : State) : (startCall m s).cw = 0 := rfl
@[simp] theorem startCall_cn (m : Mode) (s : State) : (startCall m s).cn = .b1 := rfl
@[simp] theorem startCall_cv (m : Mode) (s : State) : (startCall m s).cv = false := rfl
@[simp] theorem startCall_low (m : Mode) (s : State) : (startCall m s).low = 0 := rfl
@[simp] theorem startCall_ln (m : Mode) (s : State) : (startCall m s).ln = .b1 := rfl
@[simp] theorem startCall_lv (m : Mode) (s : State) : (startCall m s).lv = false := rfl
@[simp] theorem startCall_fhi (m : Mode) (s : State) : (startCall m s).fhi = 0 := rfl
@[simp] theorem startCall_fk (m : Mode) (s : State) : (startCall m s).fk = 0 := rfl
@[simp] theorem startCall_av (m : Mode) (s : State) : (startCall m s).av = false := rfl
@[simp] theorem startCall_ph (m : Mode) (s : State) : (startCall m s).ph = .sign := rfl
@[simp] theorem startCall_res (m : Mode) (s : State) : (startCall m s).res = 0 := rfl
@[simp] theorem startCall_valid (m : Mode) (s : State) : (startCall m s).valid = false := rfl
@[simp] theorem startCall_fault (m : Mode) (s : State) : (startCall m s).fault = s.fault := rfl
@[simp] theorem startCall_fop (m : Mode) (s : State) : (startCall m s).fop = s.fop := rfl
@[simp] theorem startCall_ksel (m : Mode) (s : State) : (startCall m s).ksel = s.ksel := rfl
@[simp] theorem startCall_aw (m : Mode) (s : State) : (startCall m s).aw = s.aw := rfl
@[simp] theorem startCall_imem (m : Mode) (s : State) : (startCall m s).imem = s.imem := rfl
@[simp] theorem startCall_input (m : Mode) (s : State) : (startCall m s).input = s.input := rfl

/-! ### loadChunk -/

@[simp] theorem loadChunk_iptr (n : ChunkSize) (s : State) : (loadChunk n s).iptr = s.iptr := rfl
@[simp] theorem loadChunk_ilen (n : ChunkSize) (s : State) : (loadChunk n s).ilen = s.ilen := rfl
@[simp] theorem loadChunk_mode (n : ChunkSize) (s : State) : (loadChunk n s).mode = s.mode := rfl
@[simp] theorem loadChunk_sp (n : ChunkSize) (s : State) : (loadChunk n s).sp = (s.sp + chunkBytes n) % 2 ^ s.aw.bits := rfl
@[simp] theorem loadChunk_sl (n : ChunkSize) (s : State) : (loadChunk n s).sl = s.sl - chunkBytes n := rfl
@[simp] theorem loadChunk_neg (n : ChunkSize) (s : State) : (loadChunk n s).neg = s.neg := rfl
@[simp] theorem loadChunk_err (n : ChunkSize) (s : State) : (loadChunk n s).err = s.err := rfl
@[simp] theorem loadChunk_acc (n : ChunkSize) (s : State) : (loadChunk n s).acc = s.acc := rfl
@[simp] theorem loadChunk_cw (n : ChunkSize) (s : State) : (loadChunk n s).cw = memRead s.aw s.imem s.sp (chunkBytes n) := rfl
@[simp] theorem loadChunk_cn (n : ChunkSize) (s : State) : (loadChunk n s).cn = n := rfl
@[simp] theorem loadChunk_cv (n : ChunkSize) (s : State) : (loadChunk n s).cv = true := rfl
@[simp] theorem loadChunk_low (n : ChunkSize) (s : State) : (loadChunk n s).low = s.low := rfl
@[simp] theorem loadChunk_ln (n : ChunkSize) (s : State) : (loadChunk n s).ln = s.ln := rfl
@[simp] theorem loadChunk_lv (n : ChunkSize) (s : State) : (loadChunk n s).lv = s.lv := rfl
@[simp] theorem loadChunk_fhi (n : ChunkSize) (s : State) : (loadChunk n s).fhi = s.fhi := rfl
@[simp] theorem loadChunk_fk (n : ChunkSize) (s : State) : (loadChunk n s).fk = s.fk := rfl
@[simp] theorem loadChunk_av (n : ChunkSize) (s : State) : (loadChunk n s).av = s.av := rfl
@[simp] theorem loadChunk_ph (n : ChunkSize) (s : State) : (loadChunk n s).ph = s.ph := rfl
@[simp] theorem loadChunk_res (n : ChunkSize) (s : State) : (loadChunk n s).res = s.res := rfl
@[simp] theorem loadChunk_valid (n : ChunkSize) (s : State) : (loadChunk n s).valid = s.valid := rfl
@[simp] theorem loadChunk_fault (n : ChunkSize) (s : State) : (loadChunk n s).fault = s.fault := rfl
@[simp] theorem loadChunk_fop (n : ChunkSize) (s : State) : (loadChunk n s).fop = s.fop := rfl
@[simp] theorem loadChunk_ksel (n : ChunkSize) (s : State) : (loadChunk n s).ksel = s.ksel := rfl
@[simp] theorem loadChunk_aw (n : ChunkSize) (s : State) : (loadChunk n s).aw = s.aw := rfl
@[simp] theorem loadChunk_imem (n : ChunkSize) (s : State) : (loadChunk n s).imem = s.imem := rfl
@[simp] theorem loadChunk_input (n : ChunkSize) (s : State) : (loadChunk n s).input = s.input := rfl

/-! ### decodeChunk -/

@[simp] theorem decodeChunk_iptr (n : ChunkSize) (s : State) : (decodeChunk n s).iptr = s.iptr := rfl
@[simp] theorem decodeChunk_ilen (n : ChunkSize) (s : State) : (decodeChunk n s).ilen = s.ilen := rfl
@[simp] theorem decodeChunk_mode (n : ChunkSize) (s : State) : (decodeChunk n s).mode = s.mode := rfl
@[simp] theorem decodeChunk_sp (n : ChunkSize) (s : State) : (decodeChunk n s).sp = s.sp := rfl
@[simp] theorem decodeChunk_sl (n : ChunkSize) (s : State) : (decodeChunk n s).sl = s.sl := rfl
@[simp] theorem decodeChunk_neg (n : ChunkSize) (s : State) : (decodeChunk n s).neg = s.neg := rfl
@[simp] theorem decodeChunk_err (n : ChunkSize) (s : State) : (decodeChunk n s).err = s.err ||| chunkErr n s.cw := rfl
@[simp] theorem decodeChunk_acc (n : ChunkSize) (s : State) : (decodeChunk n s).acc = s.acc := rfl
@[simp] theorem decodeChunk_cw (n : ChunkSize) (s : State) : (decodeChunk n s).cw = s.cw := rfl
@[simp] theorem decodeChunk_cn (n : ChunkSize) (s : State) : (decodeChunk n s).cn = s.cn := rfl
@[simp] theorem decodeChunk_cv (n : ChunkSize) (s : State) : (decodeChunk n s).cv = false := rfl
@[simp] theorem decodeChunk_low (n : ChunkSize) (s : State) : (decodeChunk n s).low = chunkVal n s.cw := rfl
@[simp] theorem decodeChunk_ln (n : ChunkSize) (s : State) : (decodeChunk n s).ln = n := rfl
@[simp] theorem decodeChunk_lv (n : ChunkSize) (s : State) : (decodeChunk n s).lv = true := rfl
@[simp] theorem decodeChunk_fhi (n : ChunkSize) (s : State) : (decodeChunk n s).fhi = s.fhi := rfl
@[simp] theorem decodeChunk_fk (n : ChunkSize) (s : State) : (decodeChunk n s).fk = s.fk := rfl
@[simp] theorem decodeChunk_av (n : ChunkSize) (s : State) : (decodeChunk n s).av = s.av := rfl
@[simp] theorem decodeChunk_ph (n : ChunkSize) (s : State) : (decodeChunk n s).ph = s.ph := rfl
@[simp] theorem decodeChunk_res (n : ChunkSize) (s : State) : (decodeChunk n s).res = s.res := rfl
@[simp] theorem decodeChunk_valid (n : ChunkSize) (s : State) : (decodeChunk n s).valid = s.valid := rfl
@[simp] theorem decodeChunk_fault (n : ChunkSize) (s : State) : (decodeChunk n s).fault = s.fault := rfl
@[simp] theorem decodeChunk_fop (n : ChunkSize) (s : State) : (decodeChunk n s).fop = s.fop := rfl
@[simp] theorem decodeChunk_ksel (n : ChunkSize) (s : State) : (decodeChunk n s).ksel = s.ksel := rfl
@[simp] theorem decodeChunk_aw (n : ChunkSize) (s : State) : (decodeChunk n s).aw = s.aw := rfl
@[simp] theorem decodeChunk_imem (n : ChunkSize) (s : State) : (decodeChunk n s).imem = s.imem := rfl
@[simp] theorem decodeChunk_input (n : ChunkSize) (s : State) : (decodeChunk n s).input = s.input := rfl

/-! ### takeValue -/

@[simp] theorem takeValue_iptr (s : State) : (takeValue s).iptr = s.iptr := rfl
@[simp] theorem takeValue_ilen (s : State) : (takeValue s).ilen = s.ilen := rfl
@[simp] theorem takeValue_mode (s : State) : (takeValue s).mode = s.mode := rfl
@[simp] theorem takeValue_sp (s : State) : (takeValue s).sp = s.sp := rfl
@[simp] theorem takeValue_sl (s : State) : (takeValue s).sl = s.sl := rfl
@[simp] theorem takeValue_neg (s : State) : (takeValue s).neg = s.neg := rfl
@[simp] theorem takeValue_err (s : State) : (takeValue s).err = s.err := rfl
@[simp] theorem takeValue_acc (s : State) : (takeValue s).acc = s.low.setWidth 128 := rfl
@[simp] theorem takeValue_cw (s : State) : (takeValue s).cw = s.cw := rfl
@[simp] theorem takeValue_cn (s : State) : (takeValue s).cn = s.cn := rfl
@[simp] theorem takeValue_cv (s : State) : (takeValue s).cv = s.cv := rfl
@[simp] theorem takeValue_low (s : State) : (takeValue s).low = s.low := rfl
@[simp] theorem takeValue_ln (s : State) : (takeValue s).ln = s.ln := rfl
@[simp] theorem takeValue_lv (s : State) : (takeValue s).lv = false := rfl
@[simp] theorem takeValue_fhi (s : State) : (takeValue s).fhi = 0 := rfl
@[simp] theorem takeValue_fk (s : State) : (takeValue s).fk = 0 := rfl
@[simp] theorem takeValue_av (s : State) : (takeValue s).av = true := rfl
@[simp] theorem takeValue_ph (s : State) : (takeValue s).ph = s.ph := rfl
@[simp] theorem takeValue_res (s : State) : (takeValue s).res = s.res := rfl
@[simp] theorem takeValue_valid (s : State) : (takeValue s).valid = s.valid := rfl
@[simp] theorem takeValue_fault (s : State) : (takeValue s).fault = s.fault := rfl
@[simp] theorem takeValue_fop (s : State) : (takeValue s).fop = s.fop := rfl
@[simp] theorem takeValue_ksel (s : State) : (takeValue s).ksel = s.ksel := rfl
@[simp] theorem takeValue_aw (s : State) : (takeValue s).aw = s.aw := rfl
@[simp] theorem takeValue_imem (s : State) : (takeValue s).imem = s.imem := rfl
@[simp] theorem takeValue_input (s : State) : (takeValue s).input = s.input := rfl

/-! ### foldValue -/

@[simp] theorem foldValue_iptr (k : ChunkSize) (s : State) : (foldValue k s).iptr = s.iptr := rfl
@[simp] theorem foldValue_ilen (k : ChunkSize) (s : State) : (foldValue k s).ilen = s.ilen := rfl
@[simp] theorem foldValue_mode (k : ChunkSize) (s : State) : (foldValue k s).mode = s.mode := rfl
@[simp] theorem foldValue_sp (k : ChunkSize) (s : State) : (foldValue k s).sp = s.sp := rfl
@[simp] theorem foldValue_sl (k : ChunkSize) (s : State) : (foldValue k s).sl = s.sl := rfl
@[simp] theorem foldValue_neg (k : ChunkSize) (s : State) : (foldValue k s).neg = s.neg := rfl
@[simp] theorem foldValue_err (k : ChunkSize) (s : State) : (foldValue k s).err = s.err := rfl
@[simp] theorem foldValue_acc (k : ChunkSize) (s : State) : (foldValue k s).acc = foldedAcc k s := rfl
@[simp] theorem foldValue_cw (k : ChunkSize) (s : State) : (foldValue k s).cw = s.cw := rfl
@[simp] theorem foldValue_cn (k : ChunkSize) (s : State) : (foldValue k s).cn = s.cn := rfl
@[simp] theorem foldValue_cv (k : ChunkSize) (s : State) : (foldValue k s).cv = s.cv := rfl
@[simp] theorem foldValue_low (k : ChunkSize) (s : State) : (foldValue k s).low = s.low := rfl
@[simp] theorem foldValue_ln (k : ChunkSize) (s : State) : (foldValue k s).ln = s.ln := rfl
@[simp] theorem foldValue_lv (k : ChunkSize) (s : State) : (foldValue k s).lv = false := rfl
@[simp] theorem foldValue_fhi (k : ChunkSize) (s : State) : (foldValue k s).fhi = s.acc := rfl
@[simp] theorem foldValue_fk (k : ChunkSize) (s : State) : (foldValue k s).fk = BitVec.ofNat 5 (chunkBytes k) := rfl
@[simp] theorem foldValue_av (k : ChunkSize) (s : State) : (foldValue k s).av = s.av := rfl
@[simp] theorem foldValue_ph (k : ChunkSize) (s : State) : (foldValue k s).ph = s.ph := rfl
@[simp] theorem foldValue_res (k : ChunkSize) (s : State) : (foldValue k s).res = s.res := rfl
@[simp] theorem foldValue_valid (k : ChunkSize) (s : State) : (foldValue k s).valid = s.valid := rfl
@[simp] theorem foldValue_fault (k : ChunkSize) (s : State) : (foldValue k s).fault = s.fault := rfl
@[simp] theorem foldValue_fop (k : ChunkSize) (s : State) : (foldValue k s).fop = s.fop := rfl
@[simp] theorem foldValue_ksel (k : ChunkSize) (s : State) : (foldValue k s).ksel = s.ksel := rfl
@[simp] theorem foldValue_aw (k : ChunkSize) (s : State) : (foldValue k s).aw = s.aw := rfl
@[simp] theorem foldValue_imem (k : ChunkSize) (s : State) : (foldValue k s).imem = s.imem := rfl
@[simp] theorem foldValue_input (k : ChunkSize) (s : State) : (foldValue k s).input = s.input := rfl

/-! ### checkBound -/

@[simp] theorem checkBound_iptr (s : State) : (checkBound s).iptr = s.iptr := rfl
@[simp] theorem checkBound_ilen (s : State) : (checkBound s).ilen = s.ilen := rfl
@[simp] theorem checkBound_mode (s : State) : (checkBound s).mode = s.mode := rfl
@[simp] theorem checkBound_sp (s : State) : (checkBound s).sp = s.sp := rfl
@[simp] theorem checkBound_sl (s : State) : (checkBound s).sl = s.sl := rfl
@[simp] theorem checkBound_neg (s : State) : (checkBound s).neg = s.neg := rfl
@[simp] theorem checkBound_err (s : State) : (checkBound s).err = s.err ||| (BitVec.ofBool (overflows s)).setWidth 64 := rfl
@[simp] theorem checkBound_acc (s : State) : (checkBound s).acc = s.acc := rfl
@[simp] theorem checkBound_cw (s : State) : (checkBound s).cw = s.cw := rfl
@[simp] theorem checkBound_cn (s : State) : (checkBound s).cn = s.cn := rfl
@[simp] theorem checkBound_cv (s : State) : (checkBound s).cv = s.cv := rfl
@[simp] theorem checkBound_low (s : State) : (checkBound s).low = s.low := rfl
@[simp] theorem checkBound_ln (s : State) : (checkBound s).ln = s.ln := rfl
@[simp] theorem checkBound_lv (s : State) : (checkBound s).lv = s.lv := rfl
@[simp] theorem checkBound_fhi (s : State) : (checkBound s).fhi = s.fhi := rfl
@[simp] theorem checkBound_fk (s : State) : (checkBound s).fk = s.fk := rfl
@[simp] theorem checkBound_av (s : State) : (checkBound s).av = s.av := rfl
@[simp] theorem checkBound_ph (s : State) : (checkBound s).ph = .checked := rfl
@[simp] theorem checkBound_res (s : State) : (checkBound s).res = s.res := rfl
@[simp] theorem checkBound_valid (s : State) : (checkBound s).valid = s.valid := rfl
@[simp] theorem checkBound_fault (s : State) : (checkBound s).fault = s.fault := rfl
@[simp] theorem checkBound_fop (s : State) : (checkBound s).fop = s.fop := rfl
@[simp] theorem checkBound_ksel (s : State) : (checkBound s).ksel = s.ksel := rfl
@[simp] theorem checkBound_aw (s : State) : (checkBound s).aw = s.aw := rfl
@[simp] theorem checkBound_imem (s : State) : (checkBound s).imem = s.imem := rfl
@[simp] theorem checkBound_input (s : State) : (checkBound s).input = s.input := rfl

end Sys2Proof.Machine
end

