-- ==== Sys2Proof/Laws/Ops.lean ====
section
/-! SUPPORT. What each shared operation can do, said once: its cases, and which bytes and lanes it touches. -/

namespace Sys2Proof.Machine

/-! ### The frame of an op -/

theorem sequenced_of_halt {w : OpWord} {legal : Bool} {act : State → State} {s : State} (h : s.ph = .halt) :
    sequenced w legal act s = s := by rw [sequenced, if_pos h]

theorem sequenced_of_legal {w : OpWord} {legal : Bool} {act : State → State} {s : State} (h : s.ph ≠ .halt)
    (hl : legal = true) : sequenced w legal act s = act s := by rw [sequenced, if_neg h, if_pos hl]

theorem sequenced_of_illegal {w : OpWord} {legal : Bool} {act : State → State} {s : State} (h : s.ph ≠ .halt)
    (hl : legal = false) : sequenced w legal act s = raise .seq w s := by
  rw [sequenced, if_neg h, if_neg (by simp [hl])]

/-- Everything an op can do: nothing at HALT, its own effect where it is legal, F_SEQ elsewhere (R223, R227). -/
theorem sequenced_cases (w : OpWord) (legal : Bool) (act : State → State) (s : State) :
    (s.ph = .halt ∧ sequenced w legal act s = s)
      ∨ (s.ph ≠ .halt ∧ legal = true ∧ sequenced w legal act s = act s)
      ∨ (s.ph ≠ .halt ∧ legal = false ∧ sequenced w legal act s = raise .seq w s) := by
  by_cases h : s.ph = .halt
  · exact .inl ⟨h, sequenced_of_halt h⟩
  · cases hl : legal
    · exact .inr (.inr ⟨h, rfl, sequenced_of_illegal h rfl⟩)
    · exact .inr (.inl ⟨h, rfl, sequenced_of_legal h rfl⟩)

theorem illegalOp_cases (w : OpWord) (s : State) :
    (s.ph = .halt ∧ illegalOp w s = s) ∨ (s.ph ≠ .halt ∧ illegalOp w s = raise .illop w s) := by
  by_cases h : s.ph = .halt
  · exact .inl ⟨h, if_pos h⟩
  · exact .inr ⟨h, if_neg h⟩

/-! ### Legality, condition by condition (R223) -/

theorem beginLegal_iff (s : State) : beginLegal s = true ↔ s.ph = .idle ∨ s.ph = .done := by simp [beginLegal]
theorem sgnLegal_iff (s : State) : sgnLegal s = true ↔ s.ph = .sign := by simp [sgnLegal]
theorem nrmLegal_iff (s : State) : nrmLegal s = true ↔ s.ph = .norm := by simp [nrmLegal]
theorem rdLegal_iff (s : State) : rdLegal s = true ↔ s.ph = .run ∧ s.cv = false := by simp [rdLegal]
theorem decLegal_iff (n : ChunkSize) (s : State) :
    decLegal n s = true ↔ s.ph = .run ∧ s.cv = true ∧ s.cn = n ∧ s.lv = false := by simp [decLegal, and_assoc]
theorem takeLegal_iff (s : State) : takeLegal s = true ↔ s.ph = .run ∧ s.lv = true ∧ s.av = false := by
  simp [takeLegal, and_assoc]
theorem foldLegal_iff (k : ChunkSize) (s : State) :
    foldLegal k s = true ↔ s.ph = .run ∧ s.lv = true ∧ s.ln = k ∧ s.av = true := by simp [foldLegal, and_assoc]
theorem chkLegal_iff (s : State) :
    chkLegal s = true ↔ s.ph = .run ∧ s.cv = false ∧ s.lv = false ∧ s.av = true ∧ s.sl = 0 := by
  simp [chkLegal, and_assoc]
theorem finLegal_iff (s : State) : finLegal s = true ↔ s.ph = .checked ∨ s.ph = .failed := by simp [finLegal]

/-! ### The operations -/

/-- `begin.m`: ignored, F_SEQ, F_SPAN or the start of a call (R150). -/
theorem performBegin_cases (m : Mode) (w : OpWord) (s : State) :
    (s.ph = .halt ∧ performBegin m w s = s)
      ∨ (s.ph ≠ .halt ∧ beginLegal s = false ∧ performBegin m w s = raise .seq w s)
      ∨ (beginLegal s = true ∧ spanWraps s = true ∧ performBegin m w s = raise .span w s)
      ∨ (beginLegal s = true ∧ spanWraps s = false ∧ performBegin m w s = startCall m s) := by
  rcases sequenced_cases w (beginLegal s) (fun s => if spanWraps s then raise .span w s else startCall m s) s with
    ⟨h, e⟩ | ⟨h, hl, e⟩ | ⟨h, hl, e⟩
  · exact .inl ⟨h, e⟩
  · cases hs : spanWraps s
    · exact .inr (.inr (.inr ⟨hl, rfl, Eq.trans e (by simp [hs])⟩))
    · exact .inr (.inr (.inl ⟨hl, rfl, Eq.trans e (by simp [hs])⟩))
  · exact .inr (.inl ⟨h, hl, e⟩)

/-- `rd.n`: ignored, F_SEQ, F_UNDERRUN or a chunk loaded (R106). -/
theorem performRd_cases (n : ChunkSize) (w : OpWord) (s : State) :
    (s.ph = .halt ∧ performRd n w s = s)
      ∨ (s.ph ≠ .halt ∧ rdLegal s = false ∧ performRd n w s = raise .seq w s)
      ∨ (rdLegal s = true ∧ s.sl < chunkBytes n ∧ performRd n w s = raise .underrun w s)
      ∨ (rdLegal s = true ∧ chunkBytes n ≤ s.sl ∧ performRd n w s = loadChunk n s) := by
  rcases sequenced_cases w (rdLegal s)
      (fun s => if s.sl < chunkBytes n then raise .underrun w s else loadChunk n s) s with
    ⟨h, e⟩ | ⟨h, hl, e⟩ | ⟨h, hl, e⟩
  · exact .inl ⟨h, e⟩
  · by_cases hs : s.sl < chunkBytes n
    · exact .inr (.inr (.inl ⟨hl, hs, Eq.trans e (by simp [hs])⟩))
    · exact .inr (.inr (.inr ⟨hl, by omega, Eq.trans e (by simp [hs])⟩))
  · exact .inr (.inl ⟨h, hl, e⟩)

/-- What `sgn` consumes: nothing, a '-' or a '+' (R151). -/
theorem consumeSign_cases (s : State) :
    (consumeSign s = { s with ph := .norm }
        ∧ (s.sl = 0
          ∨ (s.sl ≠ 0 ∧ ¬ (imemByte s.aw s.imem s.sp = 0x2D ∧ allowsMinus s.mode.grammar = true)
              ∧ ¬ (imemByte s.aw s.imem s.sp = 0x2B ∧ allowsPlus s.mode.grammar = true))))
      ∨ (s.sl ≠ 0 ∧ imemByte s.aw s.imem s.sp = 0x2D ∧ allowsMinus s.mode.grammar = true
        ∧ consumeSign s = { advance 1 s with neg := true, ph := .norm })
      ∨ (s.sl ≠ 0 ∧ imemByte s.aw s.imem s.sp = 0x2B ∧ allowsPlus s.mode.grammar = true
        ∧ consumeSign s = { advance 1 s with ph := .norm }) := by
  unfold consumeSign
  by_cases h0 : s.sl = 0
  · exact .inl ⟨by rw [if_pos h0], .inl h0⟩
  · rw [if_neg h0]
    by_cases hm : imemByte s.aw s.imem s.sp = 0x2D ∧ allowsMinus s.mode.grammar = true
    · exact .inr (.inl ⟨h0, hm.1, hm.2, by simp [hm.1, hm.2]⟩)
    · by_cases hp : imemByte s.aw s.imem s.sp = 0x2B ∧ allowsPlus s.mode.grammar = true
      · refine .inr (.inr ⟨h0, hp.1, hp.2, ?_⟩)
        simp [hp.1, hp.2]
      · refine .inl ⟨?_, .inr ⟨h0, hm, hp⟩⟩
        rw [if_neg (by simpa using hm), if_neg (by simpa using hp)]

/-- `nrm` strips no more bytes than the span is too long by (R153). -/
theorem leadingZeros_le (aw : AddrWidth) (m : List Host.Cell) (excess a : Nat) : leadingZeros aw m excess a ≤ excess := by
  induction excess generalizing a with
  | zero => exact Nat.le_refl _
  | succ e ih =>
    unfold leadingZeros
    split
    · exact Nat.succ_le_succ (ih _)
    · exact Nat.zero_le _

/-- Everything `nrm` can do where it is legal: SP and SL move by the zeros stripped, and the phase says whether the length
was accepted (R153). -/
theorem normalise_cases (s : State) :
    ∃ j, j = leadingZeros s.aw s.imem (s.sl - modeDmax s.mode) s.sp ∧ j ≤ s.sl - modeDmax s.mode
      ∧ ((normalise s = { advance j s with ph := .run } ∧ 0 < (advance j s).sl
            ∧ (advance j s).sl ≤ modeDmax s.mode)
        ∨ (normalise s = { advance j s with ph := .failed }
            ∧ ((advance j s).sl = 0 ∨ modeDmax s.mode < (advance j s).sl))) := by
  refine ⟨_, rfl, leadingZeros_le _ _ _ _, ?_⟩
  by_cases h : (advance (leadingZeros s.aw s.imem (s.sl - modeDmax s.mode) s.sp) s).sl = 0
      ∨ modeDmax s.mode < (advance (leadingZeros s.aw s.imem (s.sl - modeDmax s.mode) s.sp) s).sl
  · exact .inr ⟨by simp only [normalise, if_pos h], h⟩
  · refine .inl ⟨by simp only [normalise, if_neg h], ?_, ?_⟩ <;> omega

/-- What `fin` leaves: a result at CHECKED with ERR = 0, the invalid outcome otherwise (R176). -/
theorem finish_cases (s : State) :
    (s.ph = .checked ∧ s.err = 0 ∧ finish s
        = { s with res := encodeResult (modeW s.mode) s.neg s.acc, valid := true, ph := .done })
      ∨ (¬ (s.ph = .checked ∧ s.err = 0) ∧ finish s = { s with res := 0, valid := false, ph := .done }) := by
  unfold finish
  by_cases h : s.ph = .checked ∧ s.err = 0
  · exact .inl ⟨h.1, h.2, if_pos h⟩
  · exact .inr ⟨h, if_neg h⟩

/-! ### Chunk reads -/

theorem lane_setWidth_byte (b : Byte) (i : Nat) : lane (b.setWidth 128) i = if i = 0 then b else 0 := by
  apply BitVec.eq_of_getLsbD_eq
  intro j hj
  by_cases h : i = 0
  · subst h
    simp [lane, hj, show j < 128 by omega]
  · simp [lane, h, hj, BitVec.getLsbD_setWidth]
    intro _
    exact BitVec.getLsbD_of_ge _ _ (by omega)

theorem lane_shiftLeft (v : Wide) (i : Nat) (hi : i < 16) :
    lane (v <<< 8) i = if i = 0 then 0 else lane v (i - 1) := by
  apply BitVec.eq_of_getLsbD_eq
  intro j hj
  by_cases h : i = 0
  · subst h
    simp [lane, hj]
  · simp only [lane, h, if_false, BitVec.getLsbD_extractLsb', BitVec.getLsbD_shiftLeft, hj]
    rw [show 8 * i + j - 8 = 8 * (i - 1) + j by omega]
    simp [show 8 * i + j < 128 by omega]
    intro h'
    omega

/-- Lane i of a chunk read is the byte at address a + i, the lanes above the chunk are 0 (R10, R64). -/
theorem lane_memRead (aw : AddrWidth) (m : List Host.Cell) (a n i : Nat) (hi : i < 16) :
    lane (memRead aw m a n) i = if i < n then imemByte aw m (a + i) else 0 := by
  induction n generalizing a i with
  | zero => exact lane_zero i
  | succ n ih =>
    rw [memRead, lane_or, lane_setWidth_byte, lane_shiftLeft _ _ hi]
    by_cases h : i = 0
    · subst h
      simp
    · rw [if_neg h, if_neg h, ih _ _ (by omega), show a + 1 + (i - 1) = a + i by omega]
      by_cases hn : i - 1 < n
      · rw [if_pos hn, if_pos (by omega)]
        simp
      · rw [if_neg hn, if_neg (by omega)]
        simp

/-! ### The instructions, family by family -/

/-- Every instruction is one of ten kinds. -/
theorem instr_cases (i : Instr) :
    i = .sgn ∨ i = .nrm ∨ i = .take ∨ i = .chk ∨ i = .fin ∨ (∃ n, i = rdOp n) ∨ (∃ n, i = decOp n)
      ∨ (∃ n, i = foldOp n) ∨ (∃ m, i = beginOp m) ∨ (∃ m, i = parseOp m) := by
  cases i
  case sgn => simp
  case nrm => simp
  case take => simp
  case chk => simp
  case fin => simp
  case rd1 => exact .inr (.inr (.inr (.inr (.inr (.inl ⟨.b1, rfl⟩)))))
  case rd2 => exact .inr (.inr (.inr (.inr (.inr (.inl ⟨.b2, rfl⟩)))))
  case rd4 => exact .inr (.inr (.inr (.inr (.inr (.inl ⟨.b4, rfl⟩)))))
  case rd8 => exact .inr (.inr (.inr (.inr (.inr (.inl ⟨.b8, rfl⟩)))))
  case rd16 => exact .inr (.inr (.inr (.inr (.inr (.inl ⟨.b16, rfl⟩)))))
  case dec1 => exact .inr (.inr (.inr (.inr (.inr (.inr (.inl ⟨.b1, rfl⟩))))))
  case dec2 => exact .inr (.inr (.inr (.inr (.inr (.inr (.inl ⟨.b2, rfl⟩))))))
  case dec4 => exact .inr (.inr (.inr (.inr (.inr (.inr (.inl ⟨.b4, rfl⟩))))))
  case dec8 => exact .inr (.inr (.inr (.inr (.inr (.inr (.inl ⟨.b8, rfl⟩))))))
  case dec16 => exact .inr (.inr (.inr (.inr (.inr (.inr (.inl ⟨.b16, rfl⟩))))))
  case fold1 => exact .inr (.inr (.inr (.inr (.inr (.inr (.inr (.inl ⟨.b1, rfl⟩)))))))
  case fold2 => exact .inr (.inr (.inr (.inr (.inr (.inr (.inr (.inl ⟨.b2, rfl⟩)))))))
  case fold4 => exact .inr (.inr (.inr (.inr (.inr (.inr (.inr (.inl ⟨.b4, rfl⟩)))))))
  case fold8 => exact .inr (.inr (.inr (.inr (.inr (.inr (.inr (.inl ⟨.b8, rfl⟩)))))))
  case fold16 => exact .inr (.inr (.inr (.inr (.inr (.inr (.inr (.inl ⟨.b16, rfl⟩)))))))
  case beginU8 => exact .inr (.inr (.inr (.inr (.inr (.inr (.inr (.inr (.inl ⟨⟨.w8, .plus⟩, rfl⟩))))))))
  case beginU8np => exact .inr (.inr (.inr (.inr (.inr (.inr (.inr (.inr (.inl ⟨⟨.w8, .noPlus⟩, rfl⟩))))))))
  case beginI8 => exact .inr (.inr (.inr (.inr (.inr (.inr (.inr (.inr (.inl ⟨⟨.w8, .signed⟩, rfl⟩))))))))
  case beginU16 => exact .inr (.inr (.inr (.inr (.inr (.inr (.inr (.inr (.inl ⟨⟨.w16, .plus⟩, rfl⟩))))))))
  case beginU16np => exact .inr (.inr (.inr (.inr (.inr (.inr (.inr (.inr (.inl ⟨⟨.w16, .noPlus⟩, rfl⟩))))))))
  case beginI16 => exact .inr (.inr (.inr (.inr (.inr (.inr (.inr (.inr (.inl ⟨⟨.w16, .signed⟩, rfl⟩))))))))
  case beginU32 => exact .inr (.inr (.inr (.inr (.inr (.inr (.inr (.inr (.inl ⟨⟨.w32, .plus⟩, rfl⟩))))))))
  case beginU32np => exact .inr (.inr (.inr (.inr (.inr (.inr (.inr (.inr (.inl ⟨⟨.w32, .noPlus⟩, rfl⟩))))))))
  case beginI32 => exact .inr (.inr (.inr (.inr (.inr (.inr (.inr (.inr (.inl ⟨⟨.w32, .signed⟩, rfl⟩))))))))
  case beginU64 => exact .inr (.inr (.inr (.inr (.inr (.inr (.inr (.inr (.inl ⟨⟨.w64, .plus⟩, rfl⟩))))))))
  case beginU64np => exact .inr (.inr (.inr (.inr (.inr (.inr (.inr (.inr (.inl ⟨⟨.w64, .noPlus⟩, rfl⟩))))))))
  case beginI64 => exact .inr (.inr (.inr (.inr (.inr (.inr (.inr (.inr (.inl ⟨⟨.w64, .signed⟩, rfl⟩))))))))
  case beginU128 => exact .inr (.inr (.inr (.inr (.inr (.inr (.inr (.inr (.inl ⟨⟨.w128, .plus⟩, rfl⟩))))))))
  case beginU128np => exact .inr (.inr (.inr (.inr (.inr (.inr (.inr (.inr (.inl ⟨⟨.w128, .noPlus⟩, rfl⟩))))))))
  case beginI128 => exact .inr (.inr (.inr (.inr (.inr (.inr (.inr (.inr (.inl ⟨⟨.w128, .signed⟩, rfl⟩))))))))
  case parseU8 => exact .inr (.inr (.inr (.inr (.inr (.inr (.inr (.inr (.inr (⟨⟨.w8, .plus⟩, rfl⟩)))))))))
  case parseU8np => exact .inr (.inr (.inr (.inr (.inr (.inr (.inr (.inr (.inr (⟨⟨.w8, .noPlus⟩, rfl⟩)))))))))
  case parseI8 => exact .inr (.inr (.inr (.inr (.inr (.inr (.inr (.inr (.inr (⟨⟨.w8, .signed⟩, rfl⟩)))))))))
  case parseU16 => exact .inr (.inr (.inr (.inr (.inr (.inr (.inr (.inr (.inr (⟨⟨.w16, .plus⟩, rfl⟩)))))))))
  case parseU16np => exact .inr (.inr (.inr (.inr (.inr (.inr (.inr (.inr (.inr (⟨⟨.w16, .noPlus⟩, rfl⟩)))))))))
  case parseI16 => exact .inr (.inr (.inr (.inr (.inr (.inr (.inr (.inr (.inr (⟨⟨.w16, .signed⟩, rfl⟩)))))))))
  case parseU32 => exact .inr (.inr (.inr (.inr (.inr (.inr (.inr (.inr (.inr (⟨⟨.w32, .plus⟩, rfl⟩)))))))))
  case parseU32np => exact .inr (.inr (.inr (.inr (.inr (.inr (.inr (.inr (.inr (⟨⟨.w32, .noPlus⟩, rfl⟩)))))))))
  case parseI32 => exact .inr (.inr (.inr (.inr (.inr (.inr (.inr (.inr (.inr (⟨⟨.w32, .signed⟩, rfl⟩)))))))))
  case parseU64 => exact .inr (.inr (.inr (.inr (.inr (.inr (.inr (.inr (.inr (⟨⟨.w64, .plus⟩, rfl⟩)))))))))
  case parseU64np => exact .inr (.inr (.inr (.inr (.inr (.inr (.inr (.inr (.inr (⟨⟨.w64, .noPlus⟩, rfl⟩)))))))))
  case parseI64 => exact .inr (.inr (.inr (.inr (.inr (.inr (.inr (.inr (.inr (⟨⟨.w64, .signed⟩, rfl⟩)))))))))
  case parseU128 => exact .inr (.inr (.inr (.inr (.inr (.inr (.inr (.inr (.inr (⟨⟨.w128, .plus⟩, rfl⟩)))))))))
  case parseU128np => exact .inr (.inr (.inr (.inr (.inr (.inr (.inr (.inr (.inr (⟨⟨.w128, .noPlus⟩, rfl⟩)))))))))
  case parseI128 => exact .inr (.inr (.inr (.inr (.inr (.inr (.inr (.inr (.inr (⟨⟨.w128, .signed⟩, rfl⟩)))))))))

theorem exec_sgn (s : State) : exec .sgn s = .next (performSgn (encode .sgn) s) := rfl
theorem exec_nrm (s : State) : exec .nrm s = .next (performNrm (encode .nrm) s) := rfl
theorem exec_take (s : State) : exec .take s = .next (performTake (encode .take) s) := rfl
theorem exec_chk (s : State) : exec .chk s = .next (performChk (encode .chk) s) := rfl
theorem exec_fin (s : State) : exec .fin s = .next (performFin (encode .fin) s) := rfl
theorem exec_rd (n : ChunkSize) (s : State) : exec (rdOp n) s = .next (performRd n (encode (rdOp n)) s) := by
  cases n <;> rfl
theorem exec_dec (n : ChunkSize) (s : State) : exec (decOp n) s = .next (performDec n (encode (decOp n)) s) := by
  cases n <;> rfl
theorem exec_fold (n : ChunkSize) (s : State) : exec (foldOp n) s = .next (performFold n (encode (foldOp n)) s) := by
  cases n <;> rfl
theorem exec_begin (m : Mode) (s : State) : exec (beginOp m) s = .next (performBegin m (encode (beginOp m)) s) := by
  obtain ⟨w, g⟩ := m
  cases w <;> cases g <;> rfl
theorem exec_parse (m : Mode) (s : State) : exec (parseOp m) s = .next (performParse m (encode (parseOp m)) s) := by
  obtain ⟨w, g⟩ := m
  cases w <;> cases g <;> rfl

end Sys2Proof.Machine
end

