-- ==== Sys2Proof/Laws/PerInstr.lean ====
section
/-! SUPPORT. What holds of every instruction as syntax, one lemma per constructor of `Instr`. -/

namespace Sys2Proof.Laws

/-- The word of the instruction is none of the 206 reserved words (R86, R92). -/
def WordIsLegal.Statement (i : Instr) : Prop := WellFormed.legalWord (encode i) = true

theorem WordIsLegal.sgn : WordIsLegal.Statement .sgn := by unfold WordIsLegal.Statement; decide
theorem WordIsLegal.nrm : WordIsLegal.Statement .nrm := by unfold WordIsLegal.Statement; decide
theorem WordIsLegal.take : WordIsLegal.Statement .take := by unfold WordIsLegal.Statement; decide
theorem WordIsLegal.chk : WordIsLegal.Statement .chk := by unfold WordIsLegal.Statement; decide
theorem WordIsLegal.fin : WordIsLegal.Statement .fin := by unfold WordIsLegal.Statement; decide
theorem WordIsLegal.rd1 : WordIsLegal.Statement .rd1 := by unfold WordIsLegal.Statement; decide
theorem WordIsLegal.rd2 : WordIsLegal.Statement .rd2 := by unfold WordIsLegal.Statement; decide
theorem WordIsLegal.rd4 : WordIsLegal.Statement .rd4 := by unfold WordIsLegal.Statement; decide
theorem WordIsLegal.rd8 : WordIsLegal.Statement .rd8 := by unfold WordIsLegal.Statement; decide
theorem WordIsLegal.rd16 : WordIsLegal.Statement .rd16 := by unfold WordIsLegal.Statement; decide
theorem WordIsLegal.dec1 : WordIsLegal.Statement .dec1 := by unfold WordIsLegal.Statement; decide
theorem WordIsLegal.dec2 : WordIsLegal.Statement .dec2 := by unfold WordIsLegal.Statement; decide
theorem WordIsLegal.dec4 : WordIsLegal.Statement .dec4 := by unfold WordIsLegal.Statement; decide
theorem WordIsLegal.dec8 : WordIsLegal.Statement .dec8 := by unfold WordIsLegal.Statement; decide
theorem WordIsLegal.dec16 : WordIsLegal.Statement .dec16 := by unfold WordIsLegal.Statement; decide
theorem WordIsLegal.fold1 : WordIsLegal.Statement .fold1 := by unfold WordIsLegal.Statement; decide
theorem WordIsLegal.fold2 : WordIsLegal.Statement .fold2 := by unfold WordIsLegal.Statement; decide
theorem WordIsLegal.fold4 : WordIsLegal.Statement .fold4 := by unfold WordIsLegal.Statement; decide
theorem WordIsLegal.fold8 : WordIsLegal.Statement .fold8 := by unfold WordIsLegal.Statement; decide
theorem WordIsLegal.fold16 : WordIsLegal.Statement .fold16 := by unfold WordIsLegal.Statement; decide
theorem WordIsLegal.beginU8 : WordIsLegal.Statement .beginU8 := by unfold WordIsLegal.Statement; decide
theorem WordIsLegal.beginU8np : WordIsLegal.Statement .beginU8np := by unfold WordIsLegal.Statement; decide
theorem WordIsLegal.beginI8 : WordIsLegal.Statement .beginI8 := by unfold WordIsLegal.Statement; decide
theorem WordIsLegal.beginU16 : WordIsLegal.Statement .beginU16 := by unfold WordIsLegal.Statement; decide
theorem WordIsLegal.beginU16np : WordIsLegal.Statement .beginU16np := by unfold WordIsLegal.Statement; decide
theorem WordIsLegal.beginI16 : WordIsLegal.Statement .beginI16 := by unfold WordIsLegal.Statement; decide
theorem WordIsLegal.beginU32 : WordIsLegal.Statement .beginU32 := by unfold WordIsLegal.Statement; decide
theorem WordIsLegal.beginU32np : WordIsLegal.Statement .beginU32np := by unfold WordIsLegal.Statement; decide
theorem WordIsLegal.beginI32 : WordIsLegal.Statement .beginI32 := by unfold WordIsLegal.Statement; decide
theorem WordIsLegal.beginU64 : WordIsLegal.Statement .beginU64 := by unfold WordIsLegal.Statement; decide
theorem WordIsLegal.beginU64np : WordIsLegal.Statement .beginU64np := by unfold WordIsLegal.Statement; decide
theorem WordIsLegal.beginI64 : WordIsLegal.Statement .beginI64 := by unfold WordIsLegal.Statement; decide
theorem WordIsLegal.beginU128 : WordIsLegal.Statement .beginU128 := by unfold WordIsLegal.Statement; decide
theorem WordIsLegal.beginU128np : WordIsLegal.Statement .beginU128np := by unfold WordIsLegal.Statement; decide
theorem WordIsLegal.beginI128 : WordIsLegal.Statement .beginI128 := by unfold WordIsLegal.Statement; decide
theorem WordIsLegal.parseU8 : WordIsLegal.Statement .parseU8 := by unfold WordIsLegal.Statement; decide
theorem WordIsLegal.parseU8np : WordIsLegal.Statement .parseU8np := by unfold WordIsLegal.Statement; decide
theorem WordIsLegal.parseI8 : WordIsLegal.Statement .parseI8 := by unfold WordIsLegal.Statement; decide
theorem WordIsLegal.parseU16 : WordIsLegal.Statement .parseU16 := by unfold WordIsLegal.Statement; decide
theorem WordIsLegal.parseU16np : WordIsLegal.Statement .parseU16np := by unfold WordIsLegal.Statement; decide
theorem WordIsLegal.parseI16 : WordIsLegal.Statement .parseI16 := by unfold WordIsLegal.Statement; decide
theorem WordIsLegal.parseU32 : WordIsLegal.Statement .parseU32 := by unfold WordIsLegal.Statement; decide
theorem WordIsLegal.parseU32np : WordIsLegal.Statement .parseU32np := by unfold WordIsLegal.Statement; decide
theorem WordIsLegal.parseI32 : WordIsLegal.Statement .parseI32 := by unfold WordIsLegal.Statement; decide
theorem WordIsLegal.parseU64 : WordIsLegal.Statement .parseU64 := by unfold WordIsLegal.Statement; decide
theorem WordIsLegal.parseU64np : WordIsLegal.Statement .parseU64np := by unfold WordIsLegal.Statement; decide
theorem WordIsLegal.parseI64 : WordIsLegal.Statement .parseI64 := by unfold WordIsLegal.Statement; decide
theorem WordIsLegal.parseU128 : WordIsLegal.Statement .parseU128 := by unfold WordIsLegal.Statement; decide
theorem WordIsLegal.parseU128np : WordIsLegal.Statement .parseU128np := by unfold WordIsLegal.Statement; decide
theorem WordIsLegal.parseI128 : WordIsLegal.Statement .parseI128 := by unfold WordIsLegal.Statement; decide

end Sys2Proof.Laws
end

