-- ==== Sys2Proof/Tests/Slice0.lean ====
section
/-! SUPPORT. Tests of the model. The expected results are the spec's: the words of R92 written out from the fields of R81,
and the examples and corner cases that each rule gives (the rule is named in each test). The last part shows, for every
obligation with hypotheses, a state and operands that meet them. -/

namespace Sys2Proof.Tests

open Sys2Proof.Machine Sys2Proof.Safety

/-! ### Helpers -/

/-- A text in IMEM from address a on (no byte of it is 0x00). -/
def cells : Nat → List Nat → List Host.Cell
  | _, [] => []
  | a, b :: rest => (a, BitVec.ofNat 8 b) :: cells (a + 1) rest

/-- The n decimal digits of v as ASCII bytes, leading zeros included. -/
def dec : Nat → Nat → List Nat
  | 0, _ => []
  | n + 1, v => dec n (v / 10) ++ [0x30 + v % 10]

/-- A state at a phase, otherwise as after reset. -/
def inPhase (p : Phase) : State := { State.reset with ph := p }

/-- A state at RUN whose span is the given text at address a. -/
def runWith (a : Nat) (t : List Nat) : State :=
  { inPhase .run with sp := a, sl := t.length, imem := cells a t }

/-- A state at RUN whose chunk of size n waits in CW. -/
def chunkIn (n : ChunkSize) (w : Wide) : State := { inPhase .run with cw := w, cn := n, cv := true }

/-- A state at RUN with a taken ACC and a value of a chunk of size k waiting in LOW. -/
def foldIn (m : Mode) (k : ChunkSize) (acc : Wide) (low : Half) : State :=
  { inPhase .run with mode := m, acc := acc, low := low, ln := k, lv := true, av := true }

/-- A state between calls with the given text at address a as the host's input. -/
def ready (a : Nat) (t : List Nat) : State :=
  { State.reset with iptr := a, ilen := t.length, imem := cells a t }

/-- A next state for which the test holds. -/
def gives (o : Host.Outcome State Fault Refusal) (p : State → Bool) : Bool :=
  match o with
  | .next t => p t
  | .fault _ => false
  | .refused _ => false

/-- VALID and RES after `parse.m` of a text. -/
def result (i : Instr) (t : List Nat) : Option (Bool × Wide) :=
  match exec i (ready 0x100 t) with
  | .next u => some (u.valid, u.res)
  | .fault _ => none
  | .refused _ => none

/-! ### WellFormed: each check refuses an ill-formed word (R83 to R86) -/

theorem test_wf_minor : WellFormed.legalWord 0x00 = false ∧ WellFormed.legalWord 0x06 = false
    ∧ WellFormed.minorOk 0x1F = false := by decide
theorem test_wf_size : WellFormed.legalWord 0x25 = false ∧ WellFormed.legalWord 0x47 = false
    ∧ WellFormed.sizeOk 0x68 = false := by decide
theorem test_wf_grammar : WellFormed.legalWord 0x83 = false ∧ WellFormed.grammarOk 0xAF = false := by decide
theorem test_wf_width : WellFormed.legalWord 0x94 = false ∧ WellFormed.widthOk 0xBE = false := by decide
theorem test_wf_major : WellFormed.legalWord 0xC0 = false ∧ WellFormed.majorOk 0xFF = false := by decide

/-! ### Decoding: every constructor, from the word of R92 -/

theorem test_decode_z : decode 0x01 = .ok .sgn ∧ decode 0x02 = .ok .nrm ∧ decode 0x03 = .ok .take
    ∧ decode 0x04 = .ok .chk ∧ decode 0x05 = .ok .fin := by decide
theorem test_decode_rd : decode 0x20 = .ok .rd1 ∧ decode 0x21 = .ok .rd2 ∧ decode 0x22 = .ok .rd4
    ∧ decode 0x23 = .ok .rd8 ∧ decode 0x24 = .ok .rd16 := by decide
theorem test_decode_dec : decode 0x40 = .ok .dec1 ∧ decode 0x41 = .ok .dec2 ∧ decode 0x42 = .ok .dec4
    ∧ decode 0x43 = .ok .dec8 ∧ decode 0x44 = .ok .dec16 := by decide
theorem test_decode_fold : decode 0x60 = .ok .fold1 ∧ decode 0x61 = .ok .fold2 ∧ decode 0x62 = .ok .fold4
    ∧ decode 0x63 = .ok .fold8 ∧ decode 0x64 = .ok .fold16 := by decide
theorem test_decode_begin : decode 0x80 = .ok .beginU8 ∧ decode 0x81 = .ok .beginU8np ∧ decode 0x82 = .ok .beginI8
    ∧ decode 0x84 = .ok .beginU16 ∧ decode 0x85 = .ok .beginU16np ∧ decode 0x86 = .ok .beginI16
    ∧ decode 0x88 = .ok .beginU32 ∧ decode 0x89 = .ok .beginU32np ∧ decode 0x8A = .ok .beginI32
    ∧ decode 0x8C = .ok .beginU64 ∧ decode 0x8D = .ok .beginU64np ∧ decode 0x8E = .ok .beginI64
    ∧ decode 0x90 = .ok .beginU128 ∧ decode 0x91 = .ok .beginU128np ∧ decode 0x92 = .ok .beginI128 := by decide
theorem test_decode_parse : decode 0xA0 = .ok .parseU8 ∧ decode 0xA1 = .ok .parseU8np ∧ decode 0xA2 = .ok .parseI8
    ∧ decode 0xA4 = .ok .parseU16 ∧ decode 0xA5 = .ok .parseU16np ∧ decode 0xA6 = .ok .parseI16
    ∧ decode 0xA8 = .ok .parseU32 ∧ decode 0xA9 = .ok .parseU32np ∧ decode 0xAA = .ok .parseI32
    ∧ decode 0xAC = .ok .parseU64 ∧ decode 0xAD = .ok .parseU64np ∧ decode 0xAE = .ok .parseI64
    ∧ decode 0xB0 = .ok .parseU128 ∧ decode 0xB1 = .ok .parseU128np ∧ decode 0xB2 = .ok .parseI128 := by decide
theorem test_decode_reserved : decode 0x00 = .error .minor ∧ decode 0x28 = .error .zeroField
    ∧ decode 0x65 = .error .size ∧ decode 0xB4 = .error .width ∧ decode 0x8B = .error .grammar
    ∧ decode 0xFF = .error .major := by decide
theorem test_table_word : decodeTableWord 8 0x8A = some .beginI32 ∧ decodeTableWord 8 0x00 = none
    ∧ decodeTableWord 16 0x8A = none := by decide
theorem test_fetch_word : step (State.reset.withFetchWord 8 0x84) = exec .beginU16 State.reset := rfl

/-! ### begin, sgn, nrm -/

/-- R150's example: IPTR = 0x1000, ILEN = 5, word 0x84. -/
theorem test_begin_u16 : gives (exec .beginU16 { State.reset with iptr := 0x1000, ilen := 5, err := 1, lv := true })
    (fun t => modeCode t.mode = 0b00100 ∧ t.sp = 0x1000 ∧ t.sl = 5 ∧ t.err = 0 ∧ t.lv = false ∧ t.ph = .sign) = true := by
  decide
/-- The MODE that each `begin.m` loads is its word's `op[4:0]` (R85, R190). -/
theorem test_begin_modes : ([.beginU8, .beginU8np, .beginI8, .beginU16, .beginU16np, .beginI16, .beginU32, .beginU32np,
      .beginI32, .beginU64, .beginU64np, .beginI64, .beginU128, .beginU128np, .beginI128] : List Instr).map
      (fun i => (List.range 32).filter (fun k => gives (exec i State.reset) (fun t => hostRead t 0x2 = k)))
    = [[0x00], [0x01], [0x02], [0x04], [0x05], [0x06], [0x08], [0x09], [0x0A], [0x0C], [0x0D], [0x0E], [0x10], [0x11],
      [0x12]] := by decide
/-- R151's examples: '-' in mode i32, and '+' in mode u64np, which stays in the span. -/
theorem test_sgn_minus : gives (exec .sgn
      { runWith 0 (0x2D :: dec 10 2147483648) with ph := .sign, mode := ⟨.w32, .signed⟩ })
    (fun t => t.neg = true ∧ t.sp = 1 ∧ t.sl = 10 ∧ t.ph = .norm) = true := by decide
theorem test_sgn_no_plus : gives (exec .sgn { runWith 0 [0x2B, 0x31] with ph := .sign, mode := ⟨.w64, .noPlus⟩ })
    (fun t => t.neg = false ∧ t.sp = 0 ∧ t.sl = 2 ∧ t.ph = .norm) = true := by decide
/-- R153's corner cases in mode u8: "0000256" is stripped to "256"; "0001000" is stripped to "1000" and fails. -/
theorem test_nrm_strips : gives (exec .nrm { runWith 8 (dec 7 256) with ph := .norm })
    (fun t => t.sp = 12 ∧ t.sl = 3 ∧ t.ph = .run) = true := by decide
theorem test_nrm_fails : gives (exec .nrm { runWith 8 (dec 7 1000) with ph := .norm })
      (fun t => t.sp = 11 ∧ t.sl = 4 ∧ t.ph = .failed) = true
    ∧ gives (exec .nrm (inPhase .norm)) (fun t => t.ph = .failed) = true := by decide

/-! ### rd: the examples of R101 to R105, and F_UNDERRUN -/

theorem test_rd1 : gives (exec .rd1 (runWith 0x100 [0x37]))
    (fun t => t.cw = 0x37 ∧ t.cn = .b1 ∧ t.cv = true ∧ t.sp = 0x101 ∧ t.sl = 0) = true := by decide
theorem test_rd2 : gives (exec .rd2 (runWith 0x101 [0x34, 0x32]))
    (fun t => t.cw = 0x3234 ∧ t.cn = .b2 ∧ t.sp = 0x103 ∧ t.sl = 0) = true := by decide
theorem test_rd4 : gives (exec .rd4 (runWith 0 (dec 5 12345)))
    (fun t => t.cw = 0x34333231 ∧ t.cn = .b4 ∧ t.sp = 4 ∧ t.sl = 1) = true := by decide
theorem test_rd8 : gives (exec .rd8 (runWith 3 (dec 8 21474836)))
    (fun t => t.cw = 0x3633383437343132 ∧ t.cn = .b8 ∧ t.sp = 11 ∧ t.sl = 0) = true := by decide
theorem test_rd16 : gives (exec .rd16 (runWith 0 (dec 20 18446744073709551615)))
    (fun t => t.cw = 0x35353930373337303434373634343831 ∧ t.cn = .b16 ∧ t.sp = 16 ∧ t.sl = 4) = true := by decide
/-- A span that ends at the last byte of IMEM: SP becomes 0 (R24). -/
theorem test_rd_at_top : gives (exec .rd1 (runWith 0xFFFFFFFF [0x39]))
    (fun t => t.cw = 0x39 ∧ t.sp = 0 ∧ t.sl = 0) = true := by decide

/-! ### dec: the examples and corner cases of R120 to R123, R133 -/

theorem test_dec1 : gives (exec .dec1 (chunkIn .b1 0x37)) (fun t => t.low = 7 ∧ t.err = 0 ∧ t.ln = .b1 ∧ t.lv = true ∧ t.cv = false)
      = true
    ∧ gives (exec .dec1 (chunkIn .b1 0xCA)) (fun t => t.err = 0xF0) = true := by decide
theorem test_dec2 : gives (exec .dec2 (chunkIn .b2 0x3234)) (fun t => t.low = 42 ∧ t.err = 0 ∧ t.ln = .b2) = true
    ∧ gives (exec .dec2 (chunkIn .b2 0x39CA)) (fun t => t.err = 0x10F0) = true := by decide
theorem test_dec4 : gives (exec .dec4 (chunkIn .b4 0x34333231)) (fun t => t.low = 1234 ∧ t.err = 0 ∧ t.ln = .b4) = true
    ∧ gives (exec .dec4 (chunkIn .b4 0x342E3231)) (fun t => t.low = 1248 ∧ t.err = 0x00300000) = true := by decide
theorem test_dec8 : gives (exec .dec8 (chunkIn .b8 0x3633383437343132))
      (fun t => t.low = 21474836 ∧ t.err = 0 ∧ t.ln = .b8) = true
    ∧ gives (exec .dec8 (chunkIn .b8 0x6137363534333231)) (fun t => t.low = 12345751 ∧ t.err = 0x5000000000000000) = true := by
  decide
theorem test_dec16 : gives (exec .dec16 (chunkIn .b16 0x35353930373337303434373634343831))
      (fun t => t.low = 1844674407370955 ∧ t.err = 0 ∧ t.ln = .b16) = true
    ∧ gives (exec .dec16 (chunkIn .b16 0xFFFFFFFFFFFFFFFFFFFFFFFFFFFFFFFF)) (fun t => t.err = 0xD0D0D0D0D0D0D0D0) = true := by
  decide

/-! ### take and fold: the examples of R141 to R146 -/

theorem test_take : gives (exec .take { inPhase .run with low := 1234, lv := true, fk := 3 })
    (fun t => t.acc = 1234 ∧ t.fhi = 0 ∧ t.fk = 0 ∧ t.lv = false ∧ t.av = true) = true := by decide
theorem test_fold1 : gives (exec .fold1 (foldIn ⟨.w16, .plus⟩ .b1 1234 5))
      (fun t => t.acc = 12345 ∧ t.fhi = 1234 ∧ t.fk = 1 ∧ t.lv = false) = true
    ∧ gives (exec .fold1 (foldIn ⟨.w128, .plus⟩ .b1 34028236692093846346337460743176821145 6)) (fun t => t.acc = 0) = true := by
  decide
theorem test_fold2 : gives (exec .fold2 (foldIn ⟨.w32, .signed⟩ .b2 21474836 48))
    (fun t => t.acc = 0x80000000 ∧ t.fhi = 21474836 ∧ t.fk = 2) = true := by decide
theorem test_fold4 : gives (exec .fold4 (foldIn ⟨.w64, .plus⟩ .b4 1844674407370955 1615))
      (fun t => t.acc = 0xFFFFFFFFFFFFFFFF ∧ t.fk = 4) = true
    ∧ gives (exec .fold4 (foldIn ⟨.w64, .plus⟩ .b4 1844674407370955 1616)) (fun t => t.acc = 0 ∧ t.fhi = 1844674407370955) = true := by
  decide
theorem test_fold8 : gives (exec .fold8 (foldIn ⟨.w64, .plus⟩ .b8 12345678 90123456))
    (fun t => t.acc = 0x462D53C8ABAC0 ∧ t.fhi = 12345678 ∧ t.fk = 8) = true := by decide
theorem test_fold16 : gives (exec .fold16 (foldIn ⟨.w64, .plus⟩ .b16 9999 9999999999999999))
      (fun t => t.acc = 0x6BC75E2D630FFFFF ∧ t.fk = 16) = true
    ∧ gives (exec .fold16 (foldIn ⟨.w128, .plus⟩ .b16 3402823669209384 6346337460743176))
      (fun t => t.acc = 0x1AD7F29ABCAF485787A6520EC08 ∧ t.fhi = 3402823669209384) = true := by decide

/-! ### chk and fin: the examples of R172 and R176 -/

/-- Mode u64, "18446744073709551616": ACC has wrapped to 0, the check sees 2^64; with LOW = 1615 it is in range. -/
theorem test_chk_u64 : gives (exec .chk { foldIn ⟨.w64, .plus⟩ .b4 0 1616 with lv := false, fhi := 1844674407370955, fk := 4 })
      (fun t => t.err = 1 ∧ t.ph = .checked) = true
    ∧ gives (exec .chk { foldIn ⟨.w64, .plus⟩ .b4 0 1615 with lv := false, fhi := 1844674407370955, fk := 4 })
      (fun t => t.err = 0 ∧ t.ph = .checked) = true := by decide
/-- In a signed mode the limit depends on NEG: 128 is in range of i8 after a '-' only. -/
theorem test_chk_i8 : gives (exec .chk { foldIn ⟨.w8, .signed⟩ .b1 128 8 with lv := false, fhi := 12, fk := 1, neg := true })
      (fun t => t.err = 0) = true
    ∧ gives (exec .chk { foldIn ⟨.w8, .signed⟩ .b1 128 8 with lv := false, fhi := 12, fk := 1 }) (fun t => t.err = 1) = true := by
  decide
theorem test_fin_negative : gives (exec .fin { inPhase .checked with mode := ⟨.w32, .signed⟩, neg := true, acc := 2147483648 })
      (fun t => t.res = 0x80000000 ∧ t.valid = true ∧ t.ph = .done) = true
    ∧ gives (exec .fin { inPhase .checked with mode := ⟨.w16, .signed⟩, neg := true, acc := 12345 })
      (fun t => t.res = 0xCFC7 ∧ t.valid = true) = true := by decide
theorem test_fin_invalid : gives (exec .fin { inPhase .checked with acc := 7, err := 0x10 })
      (fun t => t.res = 0 ∧ t.valid = false ∧ t.ph = .done) = true
    ∧ gives (exec .fin (inPhase .failed)) (fun t => t.valid = false ∧ t.ph = .done) = true := by decide

/-! ### parse: the accepted and the rejected text of R197 to R211 -/

theorem test_parse_u8 : result .parseU8 (dec 3 255) = some (true, 0xFF) ∧ result .parseU8 (dec 3 256) = some (false, 0) := by
  decide
theorem test_parse_u8np : result .parseU8np [0x37] = some (true, 7) ∧ result .parseU8np [0x2B, 0x37] = some (false, 0) := by
  decide
theorem test_parse_i8 : result .parseI8 (0x2D :: dec 3 128) = some (true, 0x80)
    ∧ result .parseI8 (0x2B :: dec 3 128) = some (false, 0) := by decide
theorem test_parse_u16 : result .parseU16 (dec 5 12345) = some (true, 0x3039)
    ∧ result .parseU16 (dec 5 65536) = some (false, 0) := by decide
theorem test_parse_u16np : result .parseU16np (dec 6 65535) = some (true, 0xFFFF)
    ∧ result .parseU16np (dec 6 165535) = some (false, 0) := by decide
theorem test_parse_i16 : result .parseI16 (0x2D :: dec 5 12345) = some (true, 0xCFC7)
    ∧ result .parseI16 (0x2D :: dec 5 32769) = some (false, 0) := by decide
theorem test_parse_u32 : result .parseU32 (dec 10 4294967295) = some (true, 0xFFFFFFFF)
    ∧ result .parseU32 (dec 10 4294967296) = some (false, 0) := by decide
theorem test_parse_u32np : result .parseU32np (dec 7 1000000) = some (true, 0x000F4240)
    ∧ result .parseU32np [0x2B, 0x31] = some (false, 0) := by decide
theorem test_parse_i32 : result .parseI32 (0x2D :: dec 10 2147483648) = some (true, 0x80000000)
    ∧ result .parseI32 (dec 10 2147483648) = some (false, 0) := by decide
theorem test_parse_u64 : result .parseU64 (dec 20 18446744073709551615) = some (true, 0xFFFFFFFFFFFFFFFF)
    ∧ result .parseU64 (dec 20 18446744073709551616) = some (false, 0) := by decide
theorem test_parse_u64np : result .parseU64np [0x30] = some (true, 0) ∧ result .parseU64np [0x2B, 0x30] = some (false, 0) := by
  decide
theorem test_parse_i64 : result .parseI64 (0x2D :: dec 19 9223372036854775808) = some (true, 0x8000000000000000)
    ∧ result .parseI64 (dec 19 9223372036854775808) = some (false, 0) := by decide
theorem test_parse_u128 : result .parseU128 (dec 39 340282366920938463463374607431768211455)
      = some (true, 0xFFFFFFFFFFFFFFFFFFFFFFFFFFFFFFFF)
    ∧ result .parseU128 (dec 39 340282366920938463463374607431768211456) = some (false, 0) := by decide
theorem test_parse_u128np : result .parseU128np (dec 32 99999999999999999999999999999999)
      = some (true, 0x4EE2D6D415B85ACEF80FFFFFFFF)
    ∧ result .parseU128np [0x2B, 0x31] = some (false, 0) := by decide
theorem test_parse_i128 : result .parseI128 (0x2D :: dec 39 170141183460469231731687303715884105728)
      = some (true, 0x80000000000000000000000000000000)
    ∧ result .parseI128 (dec 39 999999999999999999999999999999999999999) = some (false, 0) := by decide

/-! ### Faults (R220 to R228) and the host's port -/

/-- R225's example: `rd.4` at NORM with SL = 1 raises F_SEQ, not F_UNDERRUN. -/
theorem test_priority : gives (exec .rd4 { runWith 0 [0x31] with ph := .norm })
    (fun t => t.fault = .seq ∧ t.fop = 0x22 ∧ t.ph = .halt ∧ t.sl = 1) = true := by decide
theorem test_reserved_word : gives (presentOp 0xFF (inPhase .run)) (fun t => hostRead t 0x1 = 0x00FF0207) = true := by
  decide
/-- A write of IPTR and of ILEN, then `parse.u8`, as the host does it (R252). -/
theorem test_host_call : Host.Core.run core 4 { State.reset with input :=
      [.poke 7 0x39, .write 0x3 7, .write 0x4 1, .write 0x0 0xA0] }
    = .next { State.reset with
        iptr := 7, ilen := 1, sp := 8, cw := 0x39, low := 9, acc := 9, av := true, ph := .done, res := 9, valid := true,
        imem := [(7, 0x39)] } := rfl

/-- An instance with the least AW, 6: the last byte of IMEM is at 63, and SP becomes 0 behind it (R24, R69). -/
theorem test_aw6_top : gives (exec .rd1 { runWith 63 [0x39] with aw := ⟨6, by decide⟩ })
    (fun t => t.cw = 0x39 ∧ t.sp = 0 ∧ t.sl = 0) = true := by decide
/-- In that instance a span of 2 bytes at 63 raises F_SPAN (R224); at AW = 32 it does not. -/
theorem test_aw6_span : gives (exec .beginU8 { ready 63 [0x31, 0x32] with aw := ⟨6, by decide⟩ })
      (fun t => t.fault = .span ∧ t.ph = .halt) = true
    ∧ gives (exec .beginU8 (ready 63 [0x31, 0x32])) (fun t => t.fault = .none ∧ t.ph = .sign) = true := by decide

/-! ### Witnesses: for every obligation with hypotheses, a state and operands that meet them -/

theorem witness_EncodeOfDecode : decode 0xB2 = .ok .parseI128 := by decide
theorem witness_ReservedWordsRaiseIllop : WellFormed.legalWord 0xC0 = false ∧ (inPhase .done).ph ≠ .halt
    ∧ (inPhase .halt).ph = .halt ∧ ∃ r, decode 0x06 = .error r := ⟨by decide, by decide, rfl, .minor, by decide⟩
theorem witness_StepRunsPresentedOp : ({ inPhase .sign with input := [.write 0x0 0x101, .reset] } : State).input
      = .write 0x0 0x101 :: [.reset] ∧ decode (BitVec.ofNat 8 0x101) = .ok .sgn := by decide
theorem witness_ResetEventRestoresReset : ({ runWith 3 [0x31] with ph := .halt, input := [.reset] } : State).input
    = .reset :: [] := rfl
/-- Both phases, and a span that ends at the last byte of IMEM, at AW = 32 and at AW = 6. -/
theorem witness_BeginStartsCall : CanStart (ready 0xFFFFFFFF [0x39]) ∧ CanStart { ready 5 [] with ph := .done }
    ∧ CanStart { ready 63 [0x39] with aw := ⟨6, by decide⟩ } :=
  ⟨⟨.inl rfl, by decide⟩, ⟨.inr rfl, by decide⟩, ⟨.inl rfl, by decide⟩⟩
theorem witness_SgnTakesOneAllowedSign : ({ runWith 9 [0x2D, 0x35] with ph := .sign, mode := ⟨.w8, .signed⟩ } : State).ph
    = .sign := rfl
theorem witness_NrmStripsLeadingZeros : ({ runWith 9 (dec 5 123) with ph := .norm } : State).ph = .norm
    ∧ 2 = (((spanText { runWith 9 (dec 5 123) with ph := .norm }).take ((runWith 9 (dec 5 123)).sl - 3)).takeWhile
        (fun b => b == 0x30)).length := by decide
theorem witness_RdLoadsLittleEndianChunk : (runWith 0 (dec 16 7)).ph = .run ∧ (runWith 0 (dec 16 7)).cv = false
    ∧ chunkBytes .b16 ≤ (runWith 0 (dec 16 7)).sl ∧ chunkBytes .b1 ≤ (runWith 0 [0xFF]).sl := by decide
theorem witness_DecWritesValueAndError : (chunkIn .b4 0x342E3231).ph = .run ∧ (chunkIn .b4 0x342E3231).cv = true
    ∧ (chunkIn .b4 0x342E3231).cn = .b4 ∧ (chunkIn .b4 0x342E3231).lv = false := by decide
theorem witness_DecOfDigitsIsDecimalValue : (chunkIn .b2 0x3939).ph = .run ∧ (chunkIn .b2 0x3939).cv = true
    ∧ (chunkIn .b2 0x3939).cn = .b2 ∧ (chunkIn .b2 0x3939).lv = false
    ∧ (lanes (chunkBytes .b2) (chunkIn .b2 0x3939).cw).all isDigit = true
    ∧ (lanes (chunkBytes .b16) 0x30303030303030303030303030303030).all isDigit = true := by decide
/-- A chunk whose last byte, ':', is the first above '9'. -/
theorem witness_DecFlagsEveryNonDigit : (chunkIn .b16 0x3A303030303030303030303030303030).ph = .run
    ∧ (chunkIn .b16 0x3A303030303030303030303030303030).cv = true
    ∧ (chunkIn .b16 0x3A303030303030303030303030303030).cn = .b16
    ∧ (chunkIn .b16 0x3A303030303030303030303030303030).lv = false
    ∧ 15 < chunkBytes .b16 ∧ isDigit (lane (chunkIn .b16 0x3A303030303030303030303030303030).cw 15) = false
    ∧ gives (exec (decOp .b16) (chunkIn .b16 0x3A303030303030303030303030303030))
        (fun t => t.err ≠ (chunkIn .b16 0x3A303030303030303030303030303030).err) = true := by decide
theorem witness_TakeLoadsFirstValue : ({ inPhase .run with low := 9, lv := true } : State).ph = .run
    ∧ ({ inPhase .run with low := 9, lv := true } : State).lv = true
    ∧ ({ inPhase .run with low := 9, lv := true } : State).av = false := by decide
theorem witness_FoldAppendsDigits : (foldIn ⟨.w64, .plus⟩ .b16 1234 5).ph = .run ∧ (foldIn ⟨.w64, .plus⟩ .b16 1234 5).lv = true
    ∧ (foldIn ⟨.w64, .plus⟩ .b16 1234 5).ln = .b16 ∧ (foldIn ⟨.w64, .plus⟩ .b16 1234 5).av = true := by decide
theorem witness_ChkComparesUnboundedMagnitude : ({ inPhase .run with av := true, low := 256 } : State).ph = .run
    ∧ ({ inPhase .run with av := true, low := 256 } : State).cv = false
    ∧ ({ inPhase .run with av := true, low := 256 } : State).lv = false
    ∧ ({ inPhase .run with av := true, low := 256 } : State).av = true
    ∧ ({ inPhase .run with av := true, low := 256 } : State).sl = 0 := by decide
theorem witness_FinEncodesTwosComplement : (inPhase .checked).ph = .checked ∧ (inPhase .checked).err = 0 := by decide
/-- Both ways into the invalid outcome. -/
theorem witness_FinReportsInvalid : (({ inPhase .checked with err := 1 } : State).ph = .checked
      ∧ ({ inPhase .checked with err := 1 } : State).err ≠ 0) ∧ (inPhase .failed).ph = .failed := by decide

theorem witness_ParseAgreesWithReferenceParser : CanStart (ready 0 (0x2D :: dec 3 128)) := ⟨.inl rfl, by decide⟩
/-- A text that `nrm` accepts, and one that it fails. -/
theorem witness_ParseIsItsOpsInOrder : CanStart (ready 0 (dec 3 256)) ∧ CanStart (ready 0 []) :=
  ⟨⟨.inl rfl, by decide⟩, ⟨.inl rfl, by decide⟩⟩
/-- The least and the greatest value of i8. -/
theorem witness_ParseOfFormattedValue : CanStart (ready 0 (0x2D :: dec 3 128))
    ∧ minValue ⟨.w8, .signed⟩ ≤ -128 ∧ (-128 : Int) ≤ maxValue ⟨.w8, .signed⟩
    ∧ inputText (ready 0 (0x2D :: dec 3 128)) = formatInt (-128)
    ∧ (127 : Int) ≤ maxValue ⟨.w8, .signed⟩ ∧ inputText (ready 0 (dec 3 127)) = formatInt 127 :=
  ⟨⟨.inl rfl, by decide⟩, by decide, by decide, by simp [formatInt]; decide, by decide, by simp [formatInt]; decide⟩
theorem witness_LeadingZerosDoNotMatter : CanStart (ready 0 [0x2D, 0x37]) ∧ CanStart (ready 9 [0x2D, 0x30, 0x30, 0x37])
    ∧ ([0x2D] : List Byte) = [0x2D] ∧ ([0x37] : List Byte) ≠ [] ∧ ([0x37] : List Byte).all isDigit = true
    ∧ inputText (ready 0 [0x2D, 0x37]) = [0x2D] ++ [0x37]
    ∧ inputText (ready 9 [0x2D, 0x30, 0x30, 0x37]) = [0x2D] ++ List.replicate 2 0x30 ++ [0x37] :=
  ⟨⟨.inl rfl, by decide⟩, ⟨.inl rfl, by decide⟩, rfl, by decide, by decide, by decide, by decide⟩
/-- Two states with one span that differ in every other way a call may. -/
theorem witness_CallDependsOnlyOnItsSpan : CanStart (ready 2 [0x37])
    ∧ CanStart { ready 2 [0x37, 0x38] with ilen := 1, ph := .done, acc := 5, err := 3, ksel := .vectorized }
    ∧ ({ ready 2 [0x37, 0x38] with ilen := 1, ph := .done, acc := 5, err := 3, ksel := .vectorized } : State).iptr
      = (ready 2 [0x37]).iptr
    ∧ ({ ready 2 [0x37, 0x38] with ilen := 1, ph := .done, acc := 5, err := 3, ksel := .vectorized } : State).ilen
      = (ready 2 [0x37]).ilen
    ∧ inputText { ready 2 [0x37, 0x38] with ilen := 1, ph := .done, acc := 5, err := 3, ksel := .vectorized }
      = inputText (ready 2 [0x37]) :=
  ⟨⟨.inl rfl, by decide⟩, ⟨.inr rfl, by decide⟩, rfl, rfl, by decide⟩
theorem witness_BeginForgetsEarlierCall : CanStart (ready 2 [0x37]) ∧ CanStart { ready 2 [0x37] with ph := .done, acc := 5, res := 5 }
    ∧ ({ ready 2 [0x37] with ph := .done, acc := 5, res := 5 } : State).iptr = (ready 2 [0x37]).iptr
    ∧ ({ ready 2 [0x37] with ph := .done, acc := 5, res := 5 } : State).ilen = (ready 2 [0x37]).ilen
    ∧ ({ ready 2 [0x37] with ph := .done, acc := 5, res := 5 } : State).fault = (ready 2 [0x37]).fault
    ∧ ({ ready 2 [0x37] with ph := .done, acc := 5, res := 5 } : State).fop = (ready 2 [0x37]).fop
    ∧ ({ ready 2 [0x37] with ph := .done, acc := 5, res := 5 } : State).ksel = (ready 2 [0x37]).ksel
    ∧ ({ ready 2 [0x37] with ph := .done, acc := 5, res := 5 } : State).imem = (ready 2 [0x37]).imem
    ∧ ({ ready 2 [0x37] with ph := .done, acc := 5, res := 5 } : State).input = (ready 2 [0x37]).input :=
  ⟨⟨.inl rfl, by decide⟩, ⟨.inr rfl, by decide⟩, rfl, rfl, rfl, rfl, rfl, rfl, rfl⟩

/-- A span of DMAX digits, a plan that is not the dispatcher's, and one byte that is no digit. -/
theorem witness_EveryPlanGivesExactOutcome : ReadyToPlan (runWith 0 (dec 3 255)) ∧ ([.b1, .b2] : List ChunkSize) ≠ []
    ∧ planBytes [.b1, .b2] = (runWith 0 (dec 3 255)).sl ∧ ReadyToPlan (runWith 0 [0x3A])
    ∧ planBytes [.b1] = (runWith 0 [0x3A]).sl :=
  ⟨⟨rfl, rfl, rfl, rfl, rfl, by decide, by decide⟩, by decide, by decide, ⟨rfl, rfl, rfl, rfl, rfl, by decide, by decide⟩, by decide⟩
/-- A legal sequence that is no plan of R194: the second chunk is read before the first is taken. -/
def interleaved : List Instr := [.rd2, .dec2, .rd1, .take, .dec1, .fold1]
theorem witness_DetectorIsExactForEveryLegalSequence : ReadyToPlan (runWith 0 (dec 3 256))
    ∧ (∀ i ∈ interleaved, isDigitOp i = true)
    ∧ (∃ t, runOps interleaved (runWith 0 (dec 3 256)) = .next t ∧ legalIn .chk t)
    ∧ (spanText (runWith 0 (dec 3 256))).all isDigit = true :=
  ⟨⟨rfl, rfl, rfl, rfl, rfl, by decide, by decide⟩, by decide, ⟨_, rfl, rfl, rfl, rfl, rfl, rfl⟩, by decide⟩
theorem witness_AccIsValueOfDigitsModPW : ReadyToPlan (runWith 0 [0x31, 0x32, 0x3A]) ∧ ([.b2] : List ChunkSize) ≠ []
    ∧ planBytes [.b2] ≤ (runWith 0 [0x31, 0x32, 0x3A]).sl
    ∧ ((spanText (runWith 0 [0x31, 0x32, 0x3A])).take (planBytes [.b2])).all isDigit = true :=
  ⟨⟨rfl, rfl, rfl, rfl, rfl, by decide, by decide⟩, by decide, by decide, by decide⟩
theorem witness_ErrIsZeroIffCleanAndInRange : ReadyToPlan (runWith 0 [0x31, 0x3A, 0x32])
    ∧ (∀ i ∈ interleaved, isDigitOp i = true)
    ∧ ∃ t, runOps (interleaved ++ [.chk]) (runWith 0 [0x31, 0x3A, 0x32]) = .next t ∧ t.ph = .checked :=
  ⟨⟨rfl, rfl, rfl, rfl, rfl, by decide, by decide⟩, by decide, _, rfl, rfl⟩
theorem witness_PlanIsGreedy : (ChunkSize.b1 ≠ .b16) ∧ 39 ≤ 39 := by decide
theorem witness_ParseIsBounded : 39 ≤ modeDmax ⟨.w128, .plus⟩ ∧ CanStart (ready 0 (dec 39 7)) :=
  ⟨by decide, .inl rfl, by decide⟩

/-- FK = 4 with the largest LOW below 10^4, and FK = 0 with FHI = 0. -/
theorem witness_DetectorWithoutWideArithmetic : ({ inPhase .run with fk := 4, low := 9999 } : State).fk ≠ 0
    ∧ ({ inPhase .run with fk := 4, low := 9999 } : State).low.toNat < 10 ^ ({ inPhase .run with fk := 4, low := 9999 } : State).fk.toNat
    ∧ (inPhase .run).fk = 0 ∧ (inPhase .run).fhi = 0 := by decide
theorem witness_DetectorSeesThroughWrap : (foldIn ⟨.w64, .plus⟩ .b4 0 0).ph = .run ∧ (foldIn ⟨.w64, .plus⟩ .b4 0 0).lv = true
    ∧ (foldIn ⟨.w64, .plus⟩ .b4 0 0).ln = .b4 ∧ (foldIn ⟨.w64, .plus⟩ .b4 0 0).av = true
    ∧ (foldIn ⟨.w64, .plus⟩ .b4 0 0).mode = ⟨.w64, .plus⟩ ∧ (foldIn ⟨.w64, .plus⟩ .b4 0 0).neg = false := by decide
theorem witness_ModeConstants : true = true → (⟨.w128, .signed⟩ : Mode).grammar = .signed := fun _ => rfl

/-- One illegal situation for each row of the legality table. -/
theorem witness_IllegalOrderRaisesSeq : (inPhase .idle).ph ≠ .halt ∧ ¬ legalIn .sgn (inPhase .idle) ∧ ¬ legalIn .nrm (inPhase .run)
    ∧ ¬ legalIn .take (inPhase .run) ∧ ¬ legalIn .chk (inPhase .run) ∧ ¬ legalIn .fin (inPhase .done)
    ∧ ¬ legalIn .rd4 (chunkIn .b4 0) ∧ ¬ legalIn .dec4 (chunkIn .b8 0) ∧ ¬ legalIn .fold2 (foldIn ⟨.w8, .plus⟩ .b1 0 0)
    ∧ ¬ legalIn .beginI8 (inPhase .run) ∧ ¬ legalIn .parseU8 (inPhase .failed) := by
  simp [legalIn, inPhase, chunkIn, foldIn, State.reset, State.resetFor]
theorem witness_ShortReadRaisesUnderrun : (runWith 0 (dec 15 1)).ph = .run ∧ (runWith 0 (dec 15 1)).cv = false
    ∧ (runWith 0 (dec 15 1)).sl < chunkBytes .b16 ∧ (runWith 0 []).sl < chunkBytes .b1 := by decide
theorem witness_WrappingSpanRaisesSpan : (ready 0xFFFFFFFF [0x31, 0x32]).ph = .idle
    ∧ 2 ^ (ready 0xFFFFFFFF [0x31, 0x32]).aw.bits
        < (ready 0xFFFFFFFF [0x31, 0x32]).iptr + (ready 0xFFFFFFFF [0x31, 0x32]).ilen := by decide
theorem witness_FaultsArePrecise : ∃ t, (inPhase .run).ph ≠ .halt ∧ presentOp 0x24 (inPhase .run) = .next t ∧ t.ph = .halt :=
  ⟨_, by decide, rfl, rfl⟩
theorem witness_HaltIgnoresEveryWord : (inPhase .halt).ph = .halt := rfl
theorem witness_OnlyResetLeavesHalt : ∃ t, ({ inPhase .halt with input := [.write 0x3 9] } : State).ph = .halt
    ∧ ({ inPhase .halt with input := [.write 0x3 9] } : State).input.head? ≠ some .reset
    ∧ step { inPhase .halt with input := [.write 0x3 9] } = .next t := ⟨_, rfl, by decide, rfl⟩

theorem witness_OpsNeverWriteMemory : ∃ t, exec .rd1 (runWith 4 [0x37]) = .next t := ⟨_, rfl⟩
/-- An op inside a call, and one that starts a call. -/
theorem witness_SpanShrinksFromTheFront : (∃ t, exec .rd1 (runWith 4 [0x37]) = .next t ∧ startsCall .rd1 = false)
    ∧ ∃ t, exec .parseU8 (ready 4 [0x37]) = .next t ∧ startsCall .parseU8 = true ∧ CanStart (ready 4 [0x37]) :=
  ⟨⟨_, rfl, by decide⟩, ⟨_, rfl, by decide, .inl rfl, by decide⟩⟩
theorem witness_ErrIsNeverCleared : ∃ t, startsCall .dec1 = false ∧ exec .dec1 { chunkIn .b1 0x37 with err := 0xF0 } = .next t :=
  ⟨_, by decide, rfl⟩
theorem witness_BuildIsInvisibleToOps : ∃ t, exec .dec16 (chunkIn .b16 0x3A) = .next t := ⟨_, rfl⟩

/-- A state in the middle of a call of i8, a byte about to be decoded. -/
def midCall : State :=
  { chunkIn .b1 0x35 with mode := ⟨.w8, .signed⟩, neg := true, sp := 2, imem := cells 0 [0x2D, 0x35], input := [.write 0x0 0x40] }

theorem witness_StepKeepsInvariant : Inv midCall ∧ ∃ t, step midCall = .next t := by
  refine ⟨?_, _, rfl⟩
  constructor <;> decide

/-- Each clause: IPTR, ILEN, and a read-only register. -/
theorem witness_HostWritesOnlyItsInputs : ({ inPhase .run with input := [.write 0x3 7] } : State).input = .write 0x3 7 :: []
    ∧ ({ inPhase .run with input := [.write 0x4 7] } : State).input = .write 0x4 7 :: []
    ∧ ({ inPhase .run with input := [.write 0xF 7] } : State).input = .write 0xF 7 :: []
    ∧ (0xF : BitVec 4) ≠ 0x0 ∧ (0xF : BitVec 4) ≠ 0x3 ∧ (0xF : BitVec 4) ≠ 0x4 := by decide
theorem witness_HostByteReadsBack : imemWf State.reset.aw (runWith 3 [0x31, 0x32]).imem = true
    ∧ ({ runWith 3 [0x31, 0x32] with input := [.poke 4 0x00] } : State).input = .poke 4 0x00 :: [] := by decide

end Sys2Proof.Tests
end

namespace Sys2Proof.Proofs

open Sys2Proof.Machine Sys2Proof.Safety

/-! ### What an op inside a call can do -/

/-- Everything that an op which starts no call can do to a state, one constructor for each effect, with what R223 and
R221 promise where it happens. What no such op does is proved by cases on this. -/
inductive CallStep (s : State) : State → Prop
  | ignored (halted : s.ph = .halt) : CallStep s s
  | fault (c : FaultCode) (w : OpWord) (running : s.ph ≠ .halt) (real : c ≠ .none) : CallStep s (raise c w s)
  | sign (phase : s.ph = .sign) : CallStep s (consumeSign s)
  | norm (phase : s.ph = .norm) : CallStep s (normalise s)
  | load (n : ChunkSize) (phase : s.ph = .run) (noChunk : s.cv = false) (room : chunkBytes n ≤ s.sl) :
      CallStep s (loadChunk n s)
  | decode (n : ChunkSize) (phase : s.ph = .run) (chunk : s.cv = true) (size : s.cn = n) (noValue : s.lv = false) :
      CallStep s (decodeChunk n s)
  | take (phase : s.ph = .run) (value : s.lv = true) (noTake : s.av = false) : CallStep s (takeValue s)
  | fold (k : ChunkSize) (phase : s.ph = .run) (value : s.lv = true) (size : s.ln = k) (taken : s.av = true) :
      CallStep s (foldValue k s)
  | check (phase : s.ph = .run) (noChunk : s.cv = false) (noValue : s.lv = false) (taken : s.av = true)
      (consumed : s.sl = 0) : CallStep s (checkBound s)
  | finish (phase : s.ph = .checked ∨ s.ph = .failed) : CallStep s (finish s)

/-- The states that ops inside a call lead to, one op after the other. -/
abbrev CallSteps : State → State → Prop := Relation.ReflTransGen CallStep

theorem sequenced_callStep {w : OpWord} {legal : Bool} {act : State → State} {s : State}
    (hact : legal = true → s.ph ≠ .halt → CallStep s (act s)) : CallStep s (sequenced w legal act s) := by
  rcases sequenced_cases w legal act s with ⟨hh, e⟩ | ⟨hh, hl, e⟩ | ⟨hh, -, e⟩ <;> rw [e]
  · exact .ignored hh
  · exact hact hl hh
  · exact .fault .seq w hh (by decide)

theorem performSgn_callStep (w : OpWord) (s : State) : CallStep s (performSgn w s) :=
  sequenced_callStep fun hl _ => .sign ((sgnLegal_iff s).mp hl)

theorem performNrm_callStep (w : OpWord) (s : State) : CallStep s (performNrm w s) :=
  sequenced_callStep fun hl _ => .norm ((nrmLegal_iff s).mp hl)

theorem performRd_callStep (n : ChunkSize) (w : OpWord) (s : State) : CallStep s (performRd n w s) := by
  refine sequenced_callStep fun hl hh => ?_
  obtain ⟨hp, hc⟩ := (rdLegal_iff s).mp hl
  split
  · exact .fault .underrun w hh (by decide)
  · exact .load n hp hc (by omega)

theorem performDec_callStep (n : ChunkSize) (w : OpWord) (s : State) : CallStep s (performDec n w s) := by
  refine sequenced_callStep fun hl _ => ?_
  obtain ⟨hp, hc, hn, hv⟩ := (decLegal_iff n s).mp hl
  exact .decode n hp hc hn hv

theorem performTake_callStep (w : OpWord) (s : State) : CallStep s (performTake w s) := by
  refine sequenced_callStep fun hl _ => ?_
  obtain ⟨hp, hv, ha⟩ := (takeLegal_iff s).mp hl
  exact .take hp hv ha

theorem performFold_callStep (k : ChunkSize) (w : OpWord) (s : State) : CallStep s (performFold k w s) := by
  refine sequenced_callStep fun hl _ => ?_
  obtain ⟨hp, hv, hk, ha⟩ := (foldLegal_iff k s).mp hl
  exact .fold k hp hv hk ha

theorem performChk_callStep (w : OpWord) (s : State) : CallStep s (performChk w s) := by
  refine sequenced_callStep fun hl _ => ?_
  obtain ⟨hp, hc, hv, ha, h0⟩ := (chkLegal_iff s).mp hl
  exact .check hp hc hv ha h0

theorem performFin_callStep (w : OpWord) (s : State) : CallStep s (performFin w s) :=
  sequenced_callStep fun hl _ => .finish ((finLegal_iff s).mp hl)

@[simp] theorem startsCall_rdOp (n : ChunkSize) : startsCall (rdOp n) = false := by cases n <;> rfl

@[simp] theorem startsCall_decOp (n : ChunkSize) : startsCall (decOp n) = false := by cases n <;> rfl

@[simp] theorem startsCall_foldOp (n : ChunkSize) : startsCall (foldOp n) = false := by cases n <;> rfl

@[simp] theorem startsCall_beginOp (m : Mode) : startsCall (beginOp m) = true := by
  obtain ⟨w, g⟩ := m
  cases w <;> cases g <;> rfl

@[simp] theorem startsCall_parseOp (m : Mode) : startsCall (parseOp m) = true := by
  obtain ⟨w, g⟩ := m
  cases w <;> cases g <;> rfl

/-- The ops that start a call are `begin.m` and `parse.m` (R82). -/
theorem startsCall_cases {i : Instr} (hi : startsCall i = true) : (∃ m, i = beginOp m) ∨ ∃ m, i = parseOp m := by
  rcases instr_cases i with
    rfl | rfl | rfl | rfl | rfl | ⟨n, rfl⟩ | ⟨n, rfl⟩ | ⟨n, rfl⟩ | hbegin | hparse
  iterate 5 exact absurd hi (by decide)
  iterate 3 simp at hi
  · exact .inl hbegin
  · exact .inr hparse

/-- An op that starts no call takes one such step. -/
theorem exec_callStep {i : Instr} {s t : State} (hi : startsCall i = false) (e : exec i s = .next t) :
    CallStep s t := by
  rcases instr_cases i with
    rfl | rfl | rfl | rfl | rfl | ⟨n, rfl⟩ | ⟨n, rfl⟩ | ⟨n, rfl⟩ | ⟨m, rfl⟩ | ⟨m, rfl⟩
  · cases e; exact performSgn_callStep _ s
  · cases e; exact performNrm_callStep _ s
  · cases e; exact performTake_callStep _ s
  · cases e; exact performChk_callStep _ s
  · cases e; exact performFin_callStep _ s
  · rw [exec_rd] at e; cases e; exact performRd_callStep n _ s
  · rw [exec_dec] at e; cases e; exact performDec_callStep n _ s
  · rw [exec_fold] at e; cases e; exact performFold_callStep n _ s
  · simp at hi
  · simp at hi

/-- A list of ops that start no call takes such steps. -/
theorem runOps_callSteps {ops : List Instr} {s t : State} (hops : ∀ i ∈ ops, startsCall i = false)
    (e : runOps ops s = .next t) : CallSteps s t := by
  induction ops generalizing s with
  | nil => cases e; exact .refl
  | cons i rest ih =>
    rw [runOps] at e
    split at e
    · next u hu =>
      exact .head (exec_callStep (hops i List.mem_cons_self) hu) (ih (fun j hj => hops j (List.mem_cons_of_mem i hj)) e)
    · cases e
    · cases e

/-! ### `parse.m` as such steps (R194) -/

theorem performLoad_callSteps (n : ChunkSize) (w : OpWord) (s : State) : CallSteps s (performLoad n w s) :=
  .tail (.tail (.single (performRd_callStep n w s)) (performDec_callStep n w _)) (performTake_callStep w _)

theorem performFurther_callSteps (n : ChunkSize) (w : OpWord) (s : State) : CallSteps s (performFurther n w s) :=
  .tail (.tail (.single (performRd_callStep n w s)) (performDec_callStep n w _)) (performFold_callStep n w _)

theorem foldl_performFurther_callSteps (w : OpWord) (p : List ChunkSize) (s : State) :
    CallSteps s (p.foldl (fun s n => performFurther n w s) s) := by
  induction p generalizing s with
  | nil => exact .refl
  | cons n p ih => exact (performFurther_callSteps n w s).trans (ih _)

theorem performPlan_callSteps (w : OpWord) (p : List ChunkSize) (s : State) : CallSteps s (performPlan w p s) := by
  cases p with
  | nil => exact .refl
  | cons n p => exact (performLoad_callSteps n w s).trans (foldl_performFurther_callSteps w p _)

theorem performDigits_callSteps (w : OpWord) (s : State) : CallSteps s (performDigits w s) := by
  unfold performDigits
  split
  · exact .tail (performPlan_callSteps w _ s) (performChk_callStep w _)
  · exact .refl

/-- After its `begin`, `parse.m` takes steps of ops inside a call only (R194). -/
theorem performParse_callSteps (m : Mode) (w : OpWord) (s : State) :
    CallSteps (performBegin m w s) (performParse m w s) := by
  have hsign := Relation.ReflTransGen.single (performSgn_callStep w (performBegin m w s))
  have hdigits := (hsign.tail (performNrm_callStep w _)).trans (performDigits_callSteps w _)
  exact hdigits.tail (performFin_callStep w _)

/-- Everything an op can do: a step inside a call, or a `begin` and then such steps. -/
theorem exec_cases {i : Instr} {s t : State} (e : exec i s = .next t) :
    (startsCall i = false ∧ CallStep s t)
      ∨ (startsCall i = true ∧ ∃ m w, CallSteps (performBegin m w s) t) := by
  cases hi : startsCall i
  · exact .inl ⟨rfl, exec_callStep hi e⟩
  · refine .inr ⟨rfl, ?_⟩
    rcases startsCall_cases hi with ⟨m, rfl⟩ | ⟨m, rfl⟩
    · rw [exec_begin] at e; cases e; exact ⟨m, _, .refl⟩
    · rw [exec_parse] at e; cases e; exact ⟨m, _, performParse_callSteps m _ s⟩

/-- Where a call may start, `begin.m` starts it (R150). -/
theorem performBegin_of_canStart {s : State} (h : CanStart s) (m : Mode) (w : OpWord) :
    performBegin m w s = startCall m s := by
  have hl : beginLegal s = true := (beginLegal_iff s).mpr h.phase
  have hw : spanWraps s = false := decide_eq_false (Nat.not_lt.mpr h.fits)
  have hh : s.ph ≠ .halt := by rcases h.phase with hp | hp <;> rw [hp] <;> decide
  rw [performBegin, sequenced_of_legal hh hl]
  simp [hw]

/-- `sgn` writes NEG, SP, SL and PH only (R151). -/
theorem consumeSign_frame (s : State) : consumeSign s
    = { s with neg := (consumeSign s).neg, sp := (consumeSign s).sp, sl := (consumeSign s).sl, ph := .norm } := by
  rcases consumeSign_cases s with ⟨e, -⟩ | ⟨-, -, -, e⟩ | ⟨-, -, -, e⟩ <;> rw [e] <;> rfl

@[simp] theorem consumeSign_ph (s : State) : (consumeSign s).ph = .norm := by rw [consumeSign_frame]
@[simp] theorem consumeSign_cv (s : State) : (consumeSign s).cv = s.cv := by rw [consumeSign_frame]
@[simp] theorem consumeSign_lv (s : State) : (consumeSign s).lv = s.lv := by rw [consumeSign_frame]
@[simp] theorem consumeSign_av (s : State) : (consumeSign s).av = s.av := by rw [consumeSign_frame]
@[simp] theorem consumeSign_err (s : State) : (consumeSign s).err = s.err := by rw [consumeSign_frame]

/-- `fin` writes RES, VALID and PH only (R176). -/
theorem finish_frame (s : State) :
    finish s = { s with res := (finish s).res, valid := (finish s).valid, ph := .done } := by
  rcases finish_cases s with ⟨-, -, e⟩ | ⟨-, e⟩ <;> rw [e]

@[simp] theorem finish_ph (s : State) : (finish s).ph = .done := by rw [finish_frame]
@[simp] theorem finish_err (s : State) : (finish s).err = s.err := by rw [finish_frame]

/-! ### The span and ERR -/

/-- u comes after s in one call: AW and the end of the span are those of s, the span is no longer (R24, R25). -/
structure SpanKept (s u : State) : Prop where
  width  : u.aw = s.aw
  spanEnd : (u.sp + u.sl) % 2 ^ s.aw.bits = (s.sp + s.sl) % 2 ^ s.aw.bits
  shrunk : u.sl ≤ s.sl

theorem SpanKept.refl (s : State) : SpanKept s s := ⟨rfl, rfl, Nat.le_refl _⟩

theorem SpanKept.trans {s u v : State} (h : SpanKept s u) (k : SpanKept u v) : SpanKept s v where
  width := k.width.trans h.width
  spanEnd := by
    have := k.spanEnd
    rw [h.width] at this
    exact this.trans h.spanEnd
  shrunk := k.shrunk.trans h.shrunk

/-- Taking bytes off the front of a span that holds them keeps its end (R24). -/
theorem advance_spanKept {n : Nat} {s : State} (h : n ≤ s.sl) : SpanKept s (advance n s) where
  width := rfl
  spanEnd := by
    rw [advance_sp, advance_sl, Nat.mod_add_mod, show s.sp + n + (s.sl - n) = s.sp + s.sl by omega]
  shrunk := Nat.sub_le _ _

theorem consumeSign_spanKept (s : State) : SpanKept s (consumeSign s) := by
  rcases consumeSign_cases s with ⟨e, -⟩ | ⟨h0, -, -, e⟩ | ⟨h0, -, -, e⟩ <;> rw [e]
  · exact ⟨rfl, rfl, Nat.le_refl _⟩
  · obtain ⟨hw, he, hs⟩ := advance_spanKept (n := 1) (s := s) (by omega)
    exact ⟨hw, he, hs⟩
  · obtain ⟨hw, he, hs⟩ := advance_spanKept (n := 1) (s := s) (by omega)
    exact ⟨hw, he, hs⟩

theorem normalise_spanKept (s : State) : SpanKept s (normalise s) := by
  obtain ⟨j, -, hj, h⟩ := normalise_cases s
  obtain ⟨hw, he, hs⟩ := advance_spanKept (n := j) (s := s) (by omega)
  rcases h with ⟨e, -, -⟩ | ⟨e, -⟩ <;> rw [e] <;> exact ⟨hw, he, hs⟩

theorem loadChunk_spanKept {n : ChunkSize} {s : State} (h : chunkBytes n ≤ s.sl) : SpanKept s (loadChunk n s) :=
  let ⟨hw, he, hs⟩ := advance_spanKept h
  ⟨hw, he, hs⟩

theorem finish_spanKept (s : State) : SpanKept s (finish s) := by
  rcases finish_cases s with ⟨-, -, e⟩ | ⟨-, e⟩ <;> rw [e] <;> exact ⟨rfl, rfl, Nat.le_refl _⟩

theorem CallStep.spanKept {s t : State} (h : CallStep s t) : SpanKept s t := by
  cases h with
  | ignored => exact .refl s
  | fault => exact ⟨rfl, rfl, Nat.le_refl _⟩
  | sign => exact consumeSign_spanKept s
  | norm => exact normalise_spanKept s
  | load n _ _ room => exact loadChunk_spanKept room
  | decode => exact ⟨rfl, rfl, Nat.le_refl _⟩
  | take => exact ⟨rfl, rfl, Nat.le_refl _⟩
  | fold => exact ⟨rfl, rfl, Nat.le_refl _⟩
  | check => exact ⟨rfl, rfl, Nat.le_refl _⟩
  | finish => exact finish_spanKept s

theorem callSteps_spanKept {s t : State} (h : CallSteps s t) : SpanKept s t := by
  induction h with
  | refl => exact .refl s
  | tail _ last ih => exact ih.trans last.spanKept

/-- Settles O45: every effect of an op inside a call keeps the end of the span, and `parse.m` is a `begin` and such
effects. -/
theorem spanShrinksFromTheFront : Obligations.SpanShrinksFromTheFront := by
  intro i s t e
  refine ⟨fun hi => ?_, fun hi hs => ?_⟩
  · obtain ⟨-, he, hl⟩ := (exec_callStep hi e).spanKept
    exact ⟨he, hl⟩
  · rcases exec_cases e with ⟨hi', -⟩ | ⟨-, m, w, hsteps⟩
    · exact absurd hi (by simp [hi'])
    · rw [performBegin_of_canStart hs] at hsteps
      exact (callSteps_spanKept hsteps).spanEnd

theorem or_and_cancel_left {n : Nat} (x y : BitVec n) : (x ||| y) &&& x = x := by
  refine BitVec.eq_of_getLsbD_eq fun i _ => ?_
  simp only [BitVec.getLsbD_and, BitVec.getLsbD_or]
  cases x.getLsbD i <;> simp

@[simp] theorem normalise_err (s : State) : (normalise s).err = s.err := rfl

/-- Settles O46: ERR only ever changes by an OR (`dec.n`, `chk`). -/
theorem errIsNeverCleared : Obligations.ErrIsNeverCleared := by
  intro i s t hi e
  cases exec_callStep hi e with
  | decode => exact or_and_cancel_left _ _
  | check => exact or_and_cancel_left _ _
  | ignored | fault | sign | norm | load | take | fold | finish => simp

end Sys2Proof.Proofs

namespace Sys2Proof.Proofs

open Sys2Proof.Machine Sys2Proof.Safety

/-! ### The invariant: the bounds its clauses need -/

/-- A narrow word under a mask of the wide one is masked by the low part of the mask. -/
theorem setWidth_and_eq_zero {k n : Nat} (v : BitVec k) (y : BitVec n) (h : v &&& y.setWidth k = 0) :
    v.setWidth n &&& y = 0 := by
  apply BitVec.eq_of_getLsbD_eq
  intro i hi
  have hbit := congrArg (fun b => b.getLsbD i) h
  by_cases hk : i < k
  · simpa [hi, hk] using hbit
  · simp [BitVec.getLsbD_of_ge v i (by omega)]

/-- The error bits of a chunk stand in bits 4 to 7 of the bytes of ERR only (R27, R112). -/
theorem chunkErr_low_nibbles (n : ChunkSize) (cw : Wide) : chunkErr n cw &&& 0x0F0F0F0F0F0F0F0F = 0 := by
  have hrep : ∀ n ∈ [1, 2, 4, 8], (0x0F0F0F0F0F0F0F0F : Half).setWidth (8 * n) = rep n 0x0F := by decide
  have hnarrow (n : Nat) (hn : n ∈ [1, 2, 4, 8]) (v : BitVec (8 * n)) :
      (kerr n v).setWidth 64 &&& 0x0F0F0F0F0F0F0F0F = 0 :=
    setWidth_and_eq_zero _ _ (by rw [hrep n hn]; exact kerr_mask v)
  cases n with
  | b1 => exact hnarrow 1 (by decide) _
  | b2 => exact hnarrow 2 (by decide) _
  | b4 => exact hnarrow 4 (by decide) _
  | b8 => exact kerr_mask _
  | b16 =>
    refine BitVec.and_or_distrib_right.trans ((or_eq_zero_iff _ _).mpr ⟨?_, ?_⟩) <;> exact kerr_mask (n := 8) _

/-- The unused bits of ERR (R27) lie in the low halves of its bytes. -/
theorem unusedErrBits_eq_zero {v : Half} (h : v &&& 0x0F0F0F0F0F0F0F0F = 0) : v &&& 0x0F0F0F0F0F0F0F0E = 0 := by
  rw [show (0x0F0F0F0F0F0F0F0E : Half) = 0x0F0F0F0F0F0F0F0F &&& 0x0F0F0F0F0F0F0F0E by decide, ← BitVec.and_assoc, h]
  simp

theorem or_unusedErrBits {u v : Half} (hu : u &&& 0x0F0F0F0F0F0F0F0E = 0) (hv : v &&& 0x0F0F0F0F0F0F0F0E = 0) :
    (u ||| v) &&& 0x0F0F0F0F0F0F0F0E = 0 := by
  rw [BitVec.and_or_distrib_right, or_eq_zero_iff]
  exact ⟨hu, hv⟩

theorem modeW_le (m : Mode) : modeW m ≤ 128 := by
  obtain ⟨w, g⟩ := m
  cases w <;> simp [modeW, widthBits]

/-- `fin` leaves a W-bit number in RES (R37, R177). -/
theorem encodeResult_lt (m : Mode) (neg : Bool) (acc : Wide) :
    (encodeResult (modeW m) neg acc).toNat < 2 ^ modeW m := by
  rw [encodeResult, BitVec.toNat_setWidth_of_le (modeW_le m)]
  exact BitVec.isLt _

theorem modePW_le (m : Mode) : modePW m ≤ 128 := by
  obtain ⟨w, g⟩ := m
  cases w <;> simp [modePW]

/-- A fold leaves a number of PW bits, which ACC holds (R147, R149). -/
theorem foldedAcc_toNat (k : ChunkSize) (s : State) :
    (foldedAcc k s).toNat = (s.acc.toNat * 10 ^ chunkBytes k + s.low.toNat) % 2 ^ modePW s.mode := by
  rw [foldedAcc, BitVec.toNat_ofNat]
  refine Nat.mod_eq_of_lt ?_
  exact (Nat.mod_lt _ (Nat.two_pow_pos _)).trans_le (Nat.pow_le_pow_right (by decide) (modePW_le s.mode))

theorem foldedAcc_toNat_lt (k : ChunkSize) (s : State) : (foldedAcc k s).toNat < 2 ^ modePW s.mode := by
  rw [foldedAcc_toNat]
  exact Nat.mod_lt _ (Nat.two_pow_pos _)

/-! ### The invariant, effect by effect -/

theorem raise_inv {s : State} (h : Inv s) (c : FaultCode) (w : OpWord) (hc : c ≠ .none) : Inv (raise c w s) :=
  { h with
    halted := by simp [hc]
    noFop := fun h0 => absurd h0 hc
    short := by simp
    consumed := by simp
    noResult := by simp }

theorem startCall_inv {s : State} (h : Inv s) (m : Mode) (hh : s.ph ≠ .halt) (hfit : spanWraps s = false) :
    Inv (startCall m s) := by
  obtain ⟨hptr, hlen, -, -⟩ := h.widths
  have hfault : s.fault = .none := by simpa using mt h.halted.mpr hh
  exact
  { h with
    widths := ⟨hptr, hlen, hptr, hlen⟩
    halted := by simp [hfault]
    errBits := by simp
    negSigned := by simp
    narrow := by simp
    foldCount := by simp
    inside := by simpa [spanWraps] using hfit
    short := by simp
    consumed := by simp
    noResult := by simp
    invalidZero := by simp
    resWidth := by simp }

theorem advance_bounds {s : State} (h : Inv s) {n : Nat} (hn : n ≤ s.sl) :
    (advance n s).sp < 2 ^ s.aw.bits ∧ (advance n s).sl < 2 ^ s.aw.bits
      ∧ (advance n s).sp + (advance n s).sl ≤ 2 ^ s.aw.bits := by
  obtain ⟨-, -, -, hsl⟩ := h.widths
  have hin := h.inside
  have hpos : 0 < 2 ^ s.aw.bits := Nat.two_pow_pos _
  rw [advance_sp, advance_sl]
  refine ⟨Nat.mod_lt _ hpos, by omega, ?_⟩
  rcases Nat.lt_or_ge (s.sp + n) (2 ^ s.aw.bits) with hlt | hge
  · rw [Nat.mod_eq_of_lt hlt]
    omega
  · rw [show s.sp + n = 2 ^ s.aw.bits by omega, Nat.mod_self]
    omega

/-- Consuming bytes of the span and a new phase before CHECKED: what `sgn` and `nrm` do to the invariant. -/
theorem advance_inv {s : State} (h : Inv s) {n : Nat} (hn : n ≤ s.sl) {p : Phase} {neg : Bool}
    (hs : s.ph ≠ .halt) (hs' : s.ph ≠ .done) (hp : p = .norm ∨ p = .run ∨ p = .failed)
    (hneg : neg = true → s.mode.grammar = .signed) (hshort : p = .run → s.sl - n ≤ modeDmax s.mode) :
    Inv { advance n s with neg := neg, ph := p } := by
  obtain ⟨hptr, hlen, -, -⟩ := h.widths
  obtain ⟨hsp, hsl, hin⟩ := advance_bounds h hn
  have hfault : s.fault = .none := by simpa using mt h.halted.mpr hs
  obtain ⟨hph, hpc⟩ : p ≠ .halt ∧ p ≠ .checked := by rcases hp with rfl | rfl | rfl <;> decide
  exact
  { h with
    widths := ⟨hptr, hlen, hsp, hsl⟩
    halted := by simp [hph, hfault]
    negSigned := hneg
    inside := hin
    short := hshort
    consumed := fun he => absurd he hpc
    noResult := fun _ _ => h.noResult hs' hs }

/-- With nothing consumed the span may as well be said to have advanced by 0. -/
theorem advance_zero {s : State} (h : s.sp < 2 ^ s.aw.bits) : advance 0 s = s := by
  simp [advance, Nat.mod_eq_of_lt h]

theorem consumeSign_inv {s : State} (h : Inv s) (hp : s.ph = .sign) : Inv (consumeSign s) := by
  have hh : s.ph ≠ .halt := by simp [hp]
  have hd : s.ph ≠ .done := by simp [hp]
  obtain ⟨-, -, hsp, -⟩ := h.widths
  rcases consumeSign_cases s with ⟨e, -⟩ | ⟨h0, -, hm, e⟩ | ⟨h0, -, -, e⟩ <;> rw [e]
  · have := advance_inv h (Nat.zero_le s.sl) hh hd (.inl rfl) h.negSigned nofun
    rwa [advance_zero hsp] at this
  · refine advance_inv h (by omega) hh hd (.inl rfl) (fun _ => ?_) nofun
    cases hg : s.mode.grammar <;> simp [hg, allowsMinus] at hm ⊢
  · exact advance_inv h (by omega) hh hd (.inl rfl) h.negSigned nofun

theorem normalise_inv {s : State} (h : Inv s) (hp : s.ph = .norm) : Inv (normalise s) := by
  have hh : s.ph ≠ .halt := by simp [hp]
  have hd : s.ph ≠ .done := by simp [hp]
  obtain ⟨j, -, hj, ⟨e, -, hle⟩ | ⟨e, -⟩⟩ := normalise_cases s <;> rw [e]
  · exact advance_inv h (by omega) hh hd (.inr (.inl rfl)) h.negSigned fun _ => hle
  · exact advance_inv h (by omega) hh hd (.inr (.inr rfl)) h.negSigned nofun

theorem loadChunk_inv {s : State} (h : Inv s) {n : ChunkSize} (hp : s.ph = .run) (hn : chunkBytes n ≤ s.sl) :
    Inv (loadChunk n s) := by
  obtain ⟨hptr, hlen, -, -⟩ := h.widths
  obtain ⟨hsp, hsl, hin⟩ := advance_bounds h hn
  exact
  { h with
    widths := ⟨hptr, hlen, hsp, hsl⟩
    inside := hin
    short := fun _ => (Nat.sub_le _ _).trans (h.short hp)
    consumed := by simp [hp] }

theorem decodeChunk_inv {s : State} (h : Inv s) (n : ChunkSize) (hp : s.ph = .run) : Inv (decodeChunk n s) :=
  { h with
    errBits := or_unusedErrBits h.errBits (unusedErrBits_eq_zero (chunkErr_low_nibbles n s.cw))
    consumed := by simp [hp] }

theorem takeValue_inv {s : State} (h : Inv s) (hp : s.ph = .run) : Inv (takeValue s) :=
  { h with
    narrow := fun _ => ⟨by rw [takeValue_acc, BitVec.toNat_setWidth_of_le (by decide)]; exact s.low.isLt, by simp⟩
    foldCount := by simp
    consumed := by simp [hp] }

theorem foldValue_inv {s : State} (h : Inv s) (k : ChunkSize) (hp : s.ph = .run) : Inv (foldValue k s) :=
  { h with
    narrow := fun hpw => by
      have hlt := foldedAcc_toNat_lt k s
      rw [show modePW s.mode = 64 from hpw] at hlt
      exact ⟨hlt, (h.narrow hpw).1⟩
    foldCount := by cases k <;> simp [chunkBytes]
    consumed := by simp [hp] }

theorem checkBound_inv {s : State} (h : Inv s) (hp : s.ph = .run)
    (hdone : s.sl = 0 ∧ s.cv = false ∧ s.lv = false ∧ s.av = true) : Inv (checkBound s) := by
  have hfault : s.fault = .none := by simpa using mt h.halted.mpr (by simp [hp])
  exact
  { h with
    halted := by simp [hfault]
    errBits := or_unusedErrBits h.errBits (by cases overflows s <;> decide)
    short := by simp
    consumed := fun _ => hdone
    noResult := fun _ _ => h.noResult (by simp [hp]) (by simp [hp]) }

theorem finish_inv {s : State} (h : Inv s) (hp : s.ph = .checked ∨ s.ph = .failed) : Inv (finish s) := by
  have hfault : s.fault = .none := by simpa using mt h.halted.mpr (by rcases hp with hp | hp <;> simp [hp])
  rcases finish_cases s with ⟨-, -, e⟩ | ⟨-, e⟩ <;> rw [e]
  · exact
    { h with
      halted := by simp [hfault]
      short := by simp
      consumed := by simp
      noResult := by simp
      invalidZero := by simp
      resWidth := encodeResult_lt s.mode s.neg s.acc }
  · exact
    { h with
      halted := by simp [hfault]
      short := by simp
      consumed := by simp
      noResult := by simp
      invalidZero := by simp
      resWidth := by simp }

/-! ### The invariant, step by step -/

theorem CallStep.inv {s t : State} (step : CallStep s t) (h : Inv s) : Inv t := by
  cases step with
  | ignored => exact h
  | fault c w _ real => exact raise_inv h c w real
  | sign phase => exact consumeSign_inv h phase
  | norm phase => exact normalise_inv h phase
  | load n phase _ room => exact loadChunk_inv h phase room
  | decode n phase => exact decodeChunk_inv h n phase
  | take phase => exact takeValue_inv h phase
  | fold k phase => exact foldValue_inv h k phase
  | check phase noChunk noValue taken consumed => exact checkBound_inv h phase ⟨consumed, noChunk, noValue, taken⟩
  | finish phase => exact finish_inv h phase

theorem callSteps_inv {s t : State} (steps : CallSteps s t) (h : Inv s) : Inv t := by
  induction steps with
  | refl => exact h
  | tail _ last ih => exact last.inv ih

theorem performBegin_inv {s : State} (h : Inv s) (m : Mode) (w : OpWord) : Inv (performBegin m w s) := by
  rcases performBegin_cases m w s with ⟨-, e⟩ | ⟨-, -, e⟩ | ⟨-, -, e⟩ | ⟨hl, hfit, e⟩ <;> rw [e]
  · exact h
  · exact raise_inv h _ w (by decide)
  · exact raise_inv h _ w (by decide)
  · refine startCall_inv h m ?_ hfit
    rcases (beginLegal_iff s).mp hl with hp | hp <;> simp [hp]

theorem exec_inv {i : Instr} {s t : State} (e : exec i s = .next t) (h : Inv s) : Inv t := by
  rcases exec_cases e with ⟨-, hstep⟩ | ⟨-, m, w, hsteps⟩
  · exact hstep.inv h
  · exact callSteps_inv hsteps (performBegin_inv h m w)

theorem presentOp_inv {w : OpWord} {s t : State} (e : presentOp w s = .next t) (h : Inv s) : Inv t := by
  unfold presentOp at e
  split at e
  · exact exec_inv e h
  · cases e
    rcases illegalOp_cases w s with ⟨-, e⟩ | ⟨-, e⟩ <;> rw [e]
    · exact h
    · exact raise_inv h _ w (by decide)

theorem resetFor_inv (aw : AddrWidth) (build : Config.Kernel16) : Inv (State.resetFor aw build) := by
  constructor <;> simp [State.resetFor, imemWf]

/-- Settles O48, clause by clause. -/
theorem resetHasInvariant : Obligations.ResetHasInvariant := resetFor_inv

theorem resetAll_inv {s : State} (h : Inv s) : Inv (resetAll s) :=
  { resetFor_inv s.aw s.ksel with imem := h.imem }

theorem hostWrite_inv {r : BitVec 4} {v : Nat} {s t : State} (e : hostWrite r v s = .next t) (h : Inv s) : Inv t := by
  obtain ⟨hptr, hlen, hsp, hsl⟩ := h.widths
  have hv : v % 2 ^ s.aw.bits < 2 ^ s.aw.bits := Nat.mod_lt _ (Nat.two_pow_pos _)
  unfold hostWrite at e
  split at e
  · exact presentOp_inv e h
  · cases e; exact { h with widths := ⟨hv, hlen, hsp, hsl⟩ }
  · cases e; exact { h with widths := ⟨hptr, hv, hsp, hsl⟩ }
  · cases e; exact h

theorem applyEvent_inv {ev : HostEvent} {s t : State} (e : applyEvent ev s = .next t) (h : Inv s) : Inv t := by
  cases ev with
  | write r v => exact hostWrite_inv e h
  | poke a b => cases e; exact { h with imem := imemPoke_wf a b h.imem }
  | reset => cases e; exact resetAll_inv h

/-- Settles O49: each action of the host keeps the invariant, an op because each of its effects does. -/
theorem stepKeepsInvariant : Obligations.StepKeepsInvariant := by
  intro s t h e
  unfold step nextEvent at e
  cases hin : s.input with
  | nil => rw [hin] at e; cases e; exact h
  | cons ev rest =>
    rw [hin] at e
    exact applyEvent_inv (s := { s with input := rest }) e { h with }

end Sys2Proof.Proofs

namespace Sys2Proof.Proofs

open Sys2Proof.Machine Sys2Proof.Safety

/-! ### The host's registers -/

/-- Two fields side by side, as a number: the upper one counts in units of the lower one's size. -/
theorem toNat_append_eq_add {n m : Nat} (x : BitVec n) (y : BitVec m) : (x ++ y).toNat = 2 ^ m * x.toNat + y.toNat := by
  rw [BitVec.toNat_append, ← Nat.shiftLeft_add_eq_or_of_lt y.isLt, Nat.shiftLeft_eq, Nat.mul_comm]

theorem kselBit_toNat (k : Config.Kernel16) :
    (kselBit k).toNat = if k = .vectorized then 1 else 0 := by cases k <;> rfl

theorem statusView_toNat (s : State) : (statusView s).toNat
    = (phaseCode s.ph).toNat + 2 ^ 3 * s.valid.toNat + 2 ^ 4 * s.neg.toNat + 2 ^ 5 * s.cv.toNat
      + 2 ^ 6 * s.lv.toNat + 2 ^ 7 * s.av.toNat + 2 ^ 8 * (faultNumber s.fault).toNat
      + 2 ^ 12 * (kselBit s.ksel).toNat + 2 ^ 16 * s.fop.toNat := by
  simp only [statusView, toNat_append_eq_add, BitVec.toNat_ofBool, BitVec.toNat_ofNat]
  omega

theorem tagsView_toNat (s : State) :
    (tagsView s).toNat = (chunkCode s.cn).toNat + 2 ^ 4 * (chunkCode s.ln).toNat + 2 ^ 8 * s.fk.toNat := by
  simp only [tagsView, toNat_append_eq_add, BitVec.toNat_ofNat]
  omega

theorem modeCode_toNat (m : Mode) :
    (modeCode m).toNat = 2 ^ 2 * (widthCode m.width).toNat + (grammarCode m.grammar).toNat := toNat_append_eq_add _ _

/-- Settles O50: each field of STATUS counts in units of all the fields below it. -/
theorem statusLayout : Obligations.StatusLayout := by
  refine ⟨fun s => ?_, by decide, by decide⟩
  rw [← kselBit_toNat]
  exact statusView_toNat s

/-- Settles O51, likewise for TAGS. -/
theorem tagsLayout : Obligations.TagsLayout := ⟨tagsView_toNat, by decide⟩

/-- Settles O52: MODE is two fields side by side, every other register is read as it stands. -/
theorem hostRegisterFile : Obligations.HostRegisterFile :=
  ⟨fun s => ⟨rfl, modeCode_toNat s.mode, rfl, rfl, rfl, rfl, rfl, rfl, rfl, rfl, rfl, rfl, rfl, rfl⟩,
    by decide, by decide⟩

/-- No host register shows AW. -/
theorem hostRead_resetFor (aw aw' : AddrWidth) (build : Config.Kernel16) (r : BitVec 4) :
    hostRead (State.resetFor aw build) r = hostRead (State.resetFor aw' build) r := rfl

/-- Settles O9: the sixteen registers of each build, read one by one. -/
theorem resetRegistersAreZero : Obligations.ResetRegistersAreZero := by
  have hdefault : ∀ (r : BitVec 4), hostRead (State.resetFor Config.addrWidth .scalar) r = 0
      ∧ hostRead (State.resetFor Config.addrWidth .vectorized) r = if r = 0x1 then 0x1000 else 0 := by decide
  refine fun aw build => ⟨fun r => ?_, rfl, rfl, rfl, rfl, rfl, rfl, rfl, rfl, rfl, rfl, rfl, rfl, rfl⟩
  rw [hostRead_resetFor aw Config.addrWidth]
  obtain ⟨hscalar, hvectorized⟩ := hdefault r
  cases build
  · simpa using hscalar
  · simpa using hvectorized

/-- A step on a host write is the write, on the state with the action taken off the input. -/
theorem step_of_write {s : State} {r : BitVec 4} {v : Nat} {rest : List HostEvent} (h : s.input = .write r v :: rest) :
    step s = hostWrite r v { s with input := rest } := by
  simp only [step, nextEvent, h, applyEvent]

/-- A write of any register but OP, IPTR and ILEN is ignored (R50). -/
theorem hostWrite_ignored {r : BitVec 4} (hop : r ≠ 0x0) (hptr : r ≠ 0x3) (hlen : r ≠ 0x4) (v : Nat) (s : State) :
    hostWrite r v s = .next s := by
  unfold hostWrite
  split
  · next h => exact absurd (BitVec.eq_of_toNat_eq h) hop
  · next h => exact absurd (BitVec.eq_of_toNat_eq h) hptr
  · next h => exact absurd (BitVec.eq_of_toNat_eq h) hlen
  · rfl

/-- Settles O53, register by register. -/
theorem hostWritesOnlyItsInputs : Obligations.HostWritesOnlyItsInputs := by
  intro s r v rest hin
  rw [step_of_write hin]
  refine ⟨fun hr => ?_, fun hr => ?_, fun hop hptr hlen => hostWrite_ignored hop hptr hlen v _⟩
  · subst hr; rfl
  · subst hr; rfl

end Sys2Proof.Proofs

namespace Sys2Proof.Proofs

open Sys2Proof.Machine Sys2Proof.Safety

/-! ### Texts -/

@[simp] theorem textAt_length (aw : AddrWidth) (m : List Host.Cell) (a n : Nat) : (textAt aw m a n).length = n := by
  induction n generalizing a with
  | zero => rfl
  | succ n ih => rw [textAt, List.length_cons, ih]

/-- A text is the text of its front followed by that of the rest. -/
theorem textAt_add (aw : AddrWidth) (m : List Host.Cell) (a n k : Nat) :
    textAt aw m a (n + k) = textAt aw m a n ++ textAt aw m (a + n) k := by
  induction n generalizing a with
  | zero => simp [textAt]
  | succ n ih => rw [Nat.succ_add, textAt, textAt, ih, List.cons_append, Nat.add_right_comm, Nat.add_assoc a n 1]

theorem imemByte_congr_mod {aw : AddrWidth} {a b : Nat} (m : List Host.Cell) (h : a % 2 ^ aw.bits = b % 2 ^ aw.bits) :
    imemByte aw m a = imemByte aw m b := by rw [imemByte, imemByte, h]

/-- A text starts at an address modulo 2^AW. -/
theorem textAt_mod (aw : AddrWidth) (m : List Host.Cell) (a n : Nat) :
    textAt aw m (a % 2 ^ aw.bits) n = textAt aw m a n := by
  suffices h : ∀ a b, a % 2 ^ aw.bits = b % 2 ^ aw.bits → textAt aw m a n = textAt aw m b n from
    h _ _ (Nat.mod_mod _ _)
  induction n with
  | zero => intros; rfl
  | succ n ih =>
    intro a b h
    rw [textAt, textAt, imemByte_congr_mod m h, ih (a + 1) (b + 1) (Nat.ModEq.add_right 1 h)]

/-- The bytes that `advance` consumes, then what is left of the span (R24). -/
theorem spanText_advance {n : Nat} {s : State} (h : n ≤ s.sl) :
    spanText s = textAt s.aw s.imem s.sp n ++ spanText (advance n s) := by
  rw [spanText, spanText, advance_sp, advance_sl, advance_aw, advance_imem, textAt_mod, ← textAt_add,
    Nat.add_sub_cancel' h]

/-- A chunk read depends on the bytes of the chunk only (R62). -/
theorem memRead_congr {aw : AddrWidth} {m m' : List Host.Cell} {a n : Nat} (h : textAt aw m' a n = textAt aw m a n) :
    memRead aw m' a n = memRead aw m a n := by
  induction n generalizing a with
  | zero => rfl
  | succ n ih =>
    obtain ⟨hb, hrest⟩ := List.cons.inj h
    rw [memRead, memRead, hb, ih hrest]

/-- The zeros that `nrm` strips depend on the bytes it may strip only. -/
theorem leadingZeros_congr {aw : AddrWidth} {m m' : List Host.Cell} {excess a : Nat}
    (h : textAt aw m' a excess = textAt aw m a excess) : leadingZeros aw m' excess a = leadingZeros aw m excess a := by
  induction excess generalizing a with
  | zero => rfl
  | succ e ih =>
    obtain ⟨hb, hrest⟩ := List.cons.inj h
    rw [leadingZeros, leadingZeros, hb, ih hrest]

/-! ### Each op where it is legal -/

theorem performSgn_of_legal {w : OpWord} {s : State} (hp : s.ph = .sign) : performSgn w s = consumeSign s :=
  sequenced_of_legal (by simp [hp]) ((sgnLegal_iff s).mpr hp)

theorem performNrm_of_legal {w : OpWord} {s : State} (hp : s.ph = .norm) : performNrm w s = normalise s :=
  sequenced_of_legal (by simp [hp]) ((nrmLegal_iff s).mpr hp)

theorem performRd_of_legal {n : ChunkSize} {w : OpWord} {s : State} (hp : s.ph = .run) (hc : s.cv = false)
    (hn : chunkBytes n ≤ s.sl) : performRd n w s = loadChunk n s := by
  rw [performRd, sequenced_of_legal (by simp [hp]) ((rdLegal_iff s).mpr ⟨hp, hc⟩), if_neg (by omega)]

theorem performDec_of_legal {n : ChunkSize} {w : OpWord} {s : State} (hp : s.ph = .run) (hc : s.cv = true)
    (hn : s.cn = n) (hv : s.lv = false) : performDec n w s = decodeChunk n s :=
  sequenced_of_legal (by simp [hp]) ((decLegal_iff n s).mpr ⟨hp, hc, hn, hv⟩)

theorem performTake_of_legal {w : OpWord} {s : State} (hp : s.ph = .run) (hv : s.lv = true) (ha : s.av = false) :
    performTake w s = takeValue s :=
  sequenced_of_legal (by simp [hp]) ((takeLegal_iff s).mpr ⟨hp, hv, ha⟩)

theorem performFold_of_legal {k : ChunkSize} {w : OpWord} {s : State} (hp : s.ph = .run) (hv : s.lv = true)
    (hk : s.ln = k) (ha : s.av = true) : performFold k w s = foldValue k s :=
  sequenced_of_legal (by simp [hp]) ((foldLegal_iff k s).mpr ⟨hp, hv, hk, ha⟩)

theorem performFin_of_legal {w : OpWord} {s : State} (hp : s.ph = .checked ∨ s.ph = .failed) :
    performFin w s = finish s :=
  sequenced_of_legal (by rcases hp with hp | hp <;> simp [hp]) ((finLegal_iff s).mpr hp)

/-! ### The plan -/

/-- PLAN(n) covers n bytes (R192): the 16s are the part above the low four bits, the rest stand for these bits. -/
theorem planBytes_plan (n : Nat) : planBytes (plan n) = n := by
  simp only [planBytes, plan, Nat.testBit_eq_decide_div_mod_eq, decide_eq_true_eq, List.map_append, List.sum_append,
    List.map_replicate, List.sum_replicate, apply_ite (List.map chunkBytes), apply_ite List.sum, List.map_cons,
    List.map_nil, List.sum_cons, List.sum_nil, chunkBytes, smul_eq_mul]
  split_ifs <;> omega

theorem planBytes_cons (n : ChunkSize) (p : List ChunkSize) : planBytes (n :: p) = chunkBytes n + planBytes p := rfl

/-! ### `parse.m` without the checks of its ops

What `parse.m` does when none of its ops is out of order, and the proof that none is. -/

/-- The effect of `ldc.n`: the first chunk's value in ACC (R89, R194). -/
def loadEffect (n : ChunkSize) (s : State) : State := takeValue (decodeChunk n (loadChunk n s))

/-- The effect of `fld.n`: a further chunk folded (R89, R194). -/
def furtherEffect (n : ChunkSize) (s : State) : State := foldValue n (decodeChunk n (loadChunk n s))

/-- The effect of a plan (R194). -/
def planEffect (p : List ChunkSize) (s : State) : State :=
  match p with
  | [] => s
  | n :: rest => rest.foldl (fun s n => furtherEffect n s) (loadEffect n s)

/-- The effect of the plan of the span and of the check, where `nrm` accepted the length (R194). -/
def digitsEffect (s : State) : State := if s.ph = .run then checkBound (planEffect (plan s.sl) s) else s

/-- The effect of a whole call (R194). -/
def callEffect (m : Mode) (s : State) : State := finish (digitsEffect (normalise (consumeSign (startCall m s))))

/-- At RUN between two chunks: no chunk and no value waits, and AV says whether there was a chunk yet. -/
structure BetweenChunks (taken : Bool) (s : State) : Prop where
  phase : s.ph = .run
  noChunk : s.cv = false
  noValue : s.lv = false
  av : s.av = taken

theorem loadEffect_between {taken : Bool} {s : State} (h : BetweenChunks taken s) (n : ChunkSize) :
    BetweenChunks true (loadEffect n s) := ⟨h.phase, rfl, rfl, rfl⟩

theorem furtherEffect_between {taken : Bool} {s : State} (h : BetweenChunks taken s) (n : ChunkSize) :
    BetweenChunks taken (furtherEffect n s) := ⟨h.phase, rfl, rfl, h.av⟩

theorem performLoad_eq {n : ChunkSize} {s : State} (h : BetweenChunks false s) (hn : chunkBytes n ≤ s.sl)
    (w : OpWord) : performLoad n w s = loadEffect n s := by
  obtain ⟨hp, hc, hv, ha⟩ := h
  rw [performLoad, performRd_of_legal hp hc hn, performDec_of_legal (n := n) (s := loadChunk n s) hp rfl rfl hv,
    performTake_of_legal (s := decodeChunk n (loadChunk n s)) hp rfl ha, loadEffect]

theorem performFurther_eq {n : ChunkSize} {s : State} (h : BetweenChunks true s) (hn : chunkBytes n ≤ s.sl)
    (w : OpWord) : performFurther n w s = furtherEffect n s := by
  obtain ⟨hp, hc, hv, ha⟩ := h
  rw [performFurther, performRd_of_legal hp hc hn, performDec_of_legal (n := n) (s := loadChunk n s) hp rfl rfl hv,
    performFold_of_legal (k := n) (s := decodeChunk n (loadChunk n s)) hp rfl rfl ha, furtherEffect]

theorem foldl_performFurther_eq {p : List ChunkSize} {s : State} (h : BetweenChunks true s) (hp : planBytes p ≤ s.sl)
    (w : OpWord) :
    p.foldl (fun s n => performFurther n w s) s = p.foldl (fun s n => furtherEffect n s) s := by
  induction p generalizing s with
  | nil => rfl
  | cons n p ih =>
    rw [planBytes_cons] at hp
    rw [List.foldl_cons, List.foldl_cons, performFurther_eq h (by omega)]
    exact ih (furtherEffect_between h n) (Nat.le_sub_of_add_le (by omega))

theorem performPlan_eq {p : List ChunkSize} {s : State} (h : BetweenChunks false s) (hp : planBytes p ≤ s.sl)
    (w : OpWord) : performPlan w p s = planEffect p s := by
  cases p with
  | nil => rfl
  | cons n p =>
    rw [planBytes_cons] at hp
    rw [performPlan, performLoad_eq h (by omega)]
    exact foldl_performFurther_eq (loadEffect_between h n) (Nat.le_sub_of_add_le (by omega)) w

theorem foldl_furtherEffect_between {taken : Bool} {s : State} (h : BetweenChunks taken s) (p : List ChunkSize) :
    BetweenChunks taken (p.foldl (fun s n => furtherEffect n s) s) := by
  induction p generalizing s with
  | nil => exact h
  | cons n p ih => exact ih (furtherEffect_between h n)

theorem foldl_furtherEffect_sl (p : List ChunkSize) (s : State) :
    (p.foldl (fun s n => furtherEffect n s) s).sl = s.sl - planBytes p := by
  induction p generalizing s with
  | nil => rfl
  | cons n p ih =>
    rw [List.foldl_cons, ih, planBytes_cons, ← Nat.sub_sub]
    rfl

theorem planEffect_between {p : List ChunkSize} {s : State} (h : BetweenChunks false s) (hp : p ≠ []) :
    BetweenChunks true (planEffect p s) := by
  cases p with
  | nil => exact absurd rfl hp
  | cons n p => exact foldl_furtherEffect_between (loadEffect_between h n) p

theorem planEffect_sl (p : List ChunkSize) (s : State) : (planEffect p s).sl = s.sl - planBytes p := by
  cases p with
  | nil => rfl
  | cons n p =>
    rw [planEffect, foldl_furtherEffect_sl, planBytes_cons, ← Nat.sub_sub]
    rfl

/-- The plan of the span consumes it, and then `chk` is legal (R194). -/
theorem performDigits_eq {s : State} (hc : s.cv = false) (hv : s.lv = false) (ha : s.av = false)
    (hpos : s.ph = .run → 0 < s.sl) (w : OpWord) : performDigits w s = digitsEffect s := by
  unfold performDigits digitsEffect
  by_cases hp : s.ph = .run
  · have hready : BetweenChunks false s := ⟨hp, hc, hv, ha⟩
    have hplan : planBytes (plan s.sl) = s.sl := planBytes_plan s.sl
    have hne : plan s.sl ≠ [] := by
      intro h0
      rw [h0] at hplan
      exact absurd (hpos hp) (by simp [← hplan, planBytes])
    obtain ⟨hp', hc', hv', ha'⟩ := planEffect_between hready hne
    have hsl : (planEffect (plan s.sl) s).sl = 0 := by rw [planEffect_sl, hplan, Nat.sub_self]
    rw [if_pos hp, if_pos hp, performPlan_eq hready (Nat.le_of_eq hplan)]
    exact sequenced_of_legal (by simp [hp']) ((chkLegal_iff _).mpr ⟨hp', hc', hv', ha', hsl⟩)
  · rw [if_neg hp, if_neg hp]

theorem digitsEffect_ph {s : State} (h : s.ph = .run ∨ s.ph = .failed) :
    (digitsEffect s).ph = .checked ∨ (digitsEffect s).ph = .failed := by
  unfold digitsEffect
  rcases h with h | h <;> simp [h]

/-- `nrm` leaves RUN with bytes to decode, or FAILED (R153). -/
theorem normalise_ph (s : State) :
    ((normalise s).ph = .run ∧ 0 < (normalise s).sl) ∨ (normalise s).ph = .failed := by
  obtain ⟨j, -, -, ⟨e, hpos, -⟩ | ⟨e, -⟩⟩ := normalise_cases s <;> rw [e]
  · exact .inl ⟨rfl, hpos⟩
  · exact .inr rfl

/-- Where a call may start no op of `parse.m` is out of order (R194). -/
theorem performParse_eq {s : State} (h : CanStart s) (m : Mode) (w : OpWord) : performParse m w s = callEffect m s := by
  have hph := normalise_ph (consumeSign (startCall m s))
  have hfin := digitsEffect_ph (hph.imp_left And.left)
  rw [performParse, performBegin_of_canStart h, performSgn_of_legal rfl, performNrm_of_legal (consumeSign_ph _),
    performDigits_eq (consumeSign_cv _) (consumeSign_lv _) (consumeSign_av _), performFin_of_legal hfin, callEffect]
  intro hrun
  rcases hph with ⟨-, hpos⟩ | hfailed
  · exact hpos
  · exact absurd (hrun.symm.trans hfailed) (by decide)

/-! ### What a call leaves depends on its span only -/

/-- s as another host would see it: with the memory and the pending actions of h, and with the three registers that no
call reads or writes while it takes no fault. -/
def withHost (h s : State) : State :=
  { s with fault := h.fault, fop := h.fop, ksel := h.ksel, imem := h.imem, input := h.input }

/-- The memory of h holds the bytes of the span of s. -/
def SameSpan (h s : State) : Prop := spanText (withHost h s) = spanText s

/-- The memory of h holds what s is about to consume, and the rest of the span. -/
theorem SameSpan.split {h s : State} (hs : SameSpan h s) {n : Nat} (hn : n ≤ s.sl) :
    textAt s.aw h.imem s.sp n = textAt s.aw s.imem s.sp n ∧ SameSpan h (advance n s) := by
  have hh : spanText (withHost h s) = textAt s.aw h.imem s.sp n ++ spanText (withHost h (advance n s)) :=
    spanText_advance (s := withHost h s) hn
  have heq := hh.symm.trans (hs.trans (spanText_advance hn))
  exact List.append_inj heq (by simp)

theorem consumeSign_withHost {h s : State} (hs : SameSpan h s) :
    consumeSign (withHost h s) = withHost h (consumeSign s) := by
  unfold consumeSign
  by_cases h0 : s.sl = 0
  · rw [if_pos h0, if_pos (show (withHost h s).sl = 0 from h0)]
    rfl
  · have hb : imemByte s.aw h.imem s.sp = imemByte s.aw s.imem s.sp :=
      (List.cons.inj (hs.split (n := 1) (by omega)).1).1
    rw [if_neg h0, if_neg (show (withHost h s).sl ≠ 0 from h0), apply_ite (withHost h), apply_ite (withHost h),
      ← hb]
    rfl

theorem consumeSign_sameSpan {h s : State} (hs : SameSpan h s) : SameSpan h (consumeSign s) := by
  rcases consumeSign_cases s with ⟨e, -⟩ | ⟨h0, -, -, e⟩ | ⟨h0, -, -, e⟩ <;> rw [e]
  · exact hs
  · exact (hs.split (n := 1) (by omega)).2
  · exact (hs.split (n := 1) (by omega)).2

theorem normalise_withHost {h s : State} (hs : SameSpan h s) :
    normalise (withHost h s) = withHost h (normalise s) := by
  have hz : leadingZeros s.aw h.imem (s.sl - modeDmax s.mode) s.sp
      = leadingZeros s.aw s.imem (s.sl - modeDmax s.mode) s.sp :=
    leadingZeros_congr (hs.split (Nat.sub_le _ _)).1
  dsimp only [normalise]
  rw [← hz]
  rfl

theorem normalise_sameSpan {h s : State} (hs : SameSpan h s) : SameSpan h (normalise s) := by
  obtain ⟨j, -, hj, ⟨e, -, -⟩ | ⟨e, -⟩⟩ := normalise_cases s <;> rw [e]
  all_goals exact (hs.split (n := j) (by omega)).2

theorem loadChunk_withHost {h s : State} (hs : SameSpan h s) {n : ChunkSize} (hn : chunkBytes n ≤ s.sl) :
    loadChunk n (withHost h s) = withHost h (loadChunk n s) := by
  have hcw : memRead s.aw h.imem s.sp (chunkBytes n) = memRead s.aw s.imem s.sp (chunkBytes n) :=
    memRead_congr (hs.split hn).1
  simp only [loadChunk, withHost, hcw, advance]

theorem loadEffect_withHost {h s : State} (hs : SameSpan h s) {n : ChunkSize} (hn : chunkBytes n ≤ s.sl) :
    loadEffect n (withHost h s) = withHost h (loadEffect n s) := by
  rw [loadEffect, loadChunk_withHost hs hn]
  rfl

theorem furtherEffect_withHost {h s : State} (hs : SameSpan h s) {n : ChunkSize} (hn : chunkBytes n ≤ s.sl) :
    furtherEffect n (withHost h s) = withHost h (furtherEffect n s) := by
  rw [furtherEffect, loadChunk_withHost hs hn]
  rfl

theorem foldl_furtherEffect_withHost {h s : State} (hs : SameSpan h s) {p : List ChunkSize}
    (hp : planBytes p ≤ s.sl) :
    p.foldl (fun s n => furtherEffect n s) (withHost h s)
      = withHost h (p.foldl (fun s n => furtherEffect n s) s) := by
  induction p generalizing s with
  | nil => rfl
  | cons n p ih =>
    rw [planBytes_cons] at hp
    rw [List.foldl_cons, List.foldl_cons, furtherEffect_withHost hs (by omega)]
    exact ih (hs.split (n := chunkBytes n) (by omega)).2 (Nat.le_sub_of_add_le (by omega))

theorem planEffect_withHost {h s : State} (hs : SameSpan h s) {p : List ChunkSize} (hp : planBytes p ≤ s.sl) :
    planEffect p (withHost h s) = withHost h (planEffect p s) := by
  cases p with
  | nil => rfl
  | cons n p =>
    rw [planBytes_cons] at hp
    rw [planEffect, loadEffect_withHost hs (by omega)]
    exact foldl_furtherEffect_withHost (s := loadEffect n s) (hs.split (n := chunkBytes n) (by omega)).2
      (Nat.le_sub_of_add_le (by omega))

theorem digitsEffect_withHost {h s : State} (hs : SameSpan h s) :
    digitsEffect (withHost h s) = withHost h (digitsEffect s) := by
  unfold digitsEffect
  by_cases hp : s.ph = .run
  · rw [if_pos hp, if_pos (show (withHost h s).ph = .run from hp)]
    exact congrArg checkBound (planEffect_withHost hs (Nat.le_of_eq (planBytes_plan s.sl)))
  · rw [if_neg hp, if_neg (show (withHost h s).ph ≠ .run from hp)]

theorem finish_withHost (h s : State) : finish (withHost h s) = withHost h (finish s) := by
  unfold finish
  rw [apply_ite (withHost h)]
  rfl

/-- `begin.m` takes AW, IPTR and ILEN from the state, keeps the host's side and forgets the rest (R150). -/
theorem startCall_eq_withHost {s s' : State} (m : Mode) (haw : s'.aw = s.aw) (hptr : s'.iptr = s.iptr)
    (hlen : s'.ilen = s.ilen) : startCall m s' = withHost s' (startCall m s) := by
  simp only [startCall, withHost, haw, hptr, hlen]

theorem callEffect_withHost {s s' : State} (m : Mode) (haw : s'.aw = s.aw) (hptr : s'.iptr = s.iptr)
    (hlen : s'.ilen = s.ilen) (htext : inputText s' = inputText s) :
    callEffect m s' = withHost s' (callEffect m s) := by
  have hspan : SameSpan s' (startCall m s) := by
    rw [SameSpan, ← startCall_eq_withHost m haw hptr hlen]
    exact htext
  have hsign := consumeSign_sameSpan hspan
  rw [callEffect, startCall_eq_withHost m haw hptr hlen, consumeSign_withHost hspan, normalise_withHost hsign,
    digitsEffect_withHost (normalise_sameSpan hsign), finish_withHost, callEffect]

/-- Settles O27: `parse.m` takes no fault, and each of its ops does to the other host's state what it does to this
one. -/
theorem callDependsOnlyOnItsSpan : Obligations.CallDependsOnlyOnItsSpan := by
  intro m s s' hs hs' haw hptr hlen htext
  refine ⟨callEffect m s, ?_, ?_⟩
  · rw [exec_parse, performParse_eq hs]
  · rw [exec_parse, performParse_eq hs', callEffect_withHost m haw hptr hlen htext]
    rfl

/-- Settles O28: with the host's side equal too, the two states are one after `begin.m`. -/
theorem beginForgetsEarlierCall : Obligations.BeginForgetsEarlierCall := by
  intro m s s' hs hs' haw hptr hlen hfault hfop hksel himem hinput
  rw [exec_begin, exec_begin, performBegin_of_canStart hs, performBegin_of_canStart hs',
    startCall_eq_withHost m haw hptr hlen]
  simp only [withHost, hfault, hfop, hksel, himem, hinput, startCall]

end Sys2Proof.Proofs

namespace Sys2Proof.Proofs

open Sys2Proof.Machine Sys2Proof.Safety

/-! ### The value of a text -/

theorem digitsValue_snoc (t : List Byte) (b : Byte) :
    digitsValue (t ++ [b]) = digitsValue t * 10 + (b.toNat - 0x30) := by
  simp [digitsValue]

/-- Appending digits shifts the value of the front by as many places (R147). -/
theorem digitsValue_append (t u : List Byte) :
    digitsValue (t ++ u) = digitsValue t * 10 ^ u.length + digitsValue u := by
  induction u using List.reverseRecOn with
  | nil => simp [digitsValue]
  | append_singleton u b ih =>
    rw [← List.append_assoc, digitsValue_snoc, ih, digitsValue_snoc, List.length_append, List.length_singleton,
      pow_succ]
    ring

/-- The value of n digits is below 10^n (R114). -/
theorem digitsValue_lt {t : List Byte} (h : t.all isDigit = true) : digitsValue t < 10 ^ t.length := by
  induction t using List.reverseRecOn with
  | nil => simp [digitsValue]
  | append_singleton t b ih =>
    simp only [List.all_append, List.all_cons, List.all_nil, Bool.and_true, Bool.and_eq_true, isDigit,
      decide_eq_true_eq] at h
    obtain ⟨ht, -, hb⟩ := h
    have := ih ht
    rw [digitsValue_snoc, List.length_append, List.length_singleton, pow_succ]
    omega

/-! ### The chunk word as a text -/

@[simp] theorem lanes_length (n : Nat) (w : Wide) : (lanes n w).length = n := by simp [lanes]

theorem textAt_eq_map (aw : AddrWidth) (m : List Host.Cell) (a n : Nat) :
    textAt aw m a n = (List.range n).map (fun i => imemByte aw m (a + i)) := by
  induction n with
  | zero => rfl
  | succ n ih => rw [textAt_add, ih, List.range_succ, List.map_append]; rfl

/-- The lanes of a chunk that `rd.n` loads are the bytes it read (R64). -/
theorem lanes_memRead (aw : AddrWidth) (m : List Host.Cell) (a : Nat) {n : Nat} (hn : n ≤ 16) :
    lanes n (memRead aw m a n) = textAt aw m a n := by
  rw [textAt_eq_map, lanes]
  refine List.map_congr_left fun i hi => ?_
  have hi := List.mem_range.mp hi
  rw [lane_memRead aw m a n i (by omega), if_pos hi]

theorem isDigit_lane (w : Wide) (i : Nat) : isDigit (lane w i) = true ↔ laneDigit w i ≤ 9 := by
  rw [isDigit, Bool.and_eq_true, decide_eq_true_eq, decide_eq_true_eq]
  exact byte_xor_digit _

theorem lanes_all_isDigit (n : Nat) (w : Wide) : (lanes n w).all isDigit = true ↔ ∀ i < n, laneDigit w i ≤ 9 := by
  simp [lanes, isDigit_lane]

/-- The kernel flags a chunk exactly when one of its bytes is no digit (R113, R134). -/
theorem chunkErr_eq_zero_iff_lanes (n : ChunkSize) (cw : Wide) :
    chunkErr n cw = 0 ↔ (lanes (chunkBytes n) cw).all isDigit = true := by
  rw [chunkErr_eq_zero_iff, lanes_all_isDigit]

theorem digitsValue_lanes {n : Nat} {w : Wide} (h : ∀ i < n, laneDigit w i ≤ 9) :
    digitsValue (lanes n w) = lanesValue n w := by
  rw [digitsValue, lanes, lanesValue, List.foldl_map]
  refine List.foldl_ext _ _ _ fun v i hi => ?_
  rw [laneDigit, byte_xor_value _ (h i (List.mem_range.mp hi))]

/-- On digits the kernel gives the value of the text in the chunk (R114, R134). -/
theorem chunkVal_lanes {n : ChunkSize} {cw : Wide} (h : (lanes (chunkBytes n) cw).all isDigit = true) :
    (chunkVal n cw).toNat = digitsValue (lanes (chunkBytes n) cw) := by
  have hd := (lanes_all_isDigit _ _).mp h
  rw [chunkVal_digits n cw hd, digitsValue_lanes hd]

theorem chunkBytes_pos (n : ChunkSize) : 0 < chunkBytes n := by cases n <;> decide

theorem chunkBytes_le (n : ChunkSize) : chunkBytes n ≤ 16 := by cases n <;> decide

/-- A number of one digit less than DMAX fits into PW bits: no fold before the last one loses anything (R174). -/
theorem pow_modeDmax_le (m : Mode) : 10 ^ (modeDmax m - 1) ≤ 2 ^ modePW m := by
  obtain ⟨w, g⟩ := m
  cases w <;> cases g <;> decide

theorem modePW_ge (m : Mode) : 64 ≤ modePW m := by
  obtain ⟨w, g⟩ := m
  cases w <;> simp [modePW]

theorem magnitude_foldValue (k : ChunkSize) (s : State) :
    magnitude (foldValue k s) = s.acc.toNat * 10 ^ chunkBytes k + s.low.toNat := by
  have hfk : (foldValue k s).fk.toNat = chunkBytes k := by cases k <;> rfl
  rw [magnitude, foldValue_fhi, foldValue_low, hfk]

/-! ### Where the digits of a call are -/

/-- u comes after s in one call, at RUN: the text of s is the bytes already in ACC, then the bytes of the value in LOW
that waits, then those of the chunk in CW that waits, then what is left of the span; and ACC, LOW, ERR and the
detector's magnitude are what the bytes make them (R27, R147, R174). -/
structure Progress (s u : State) (acc value chunk : List Byte) : Prop where
  phase : u.ph = .run
  mode : u.mode = s.mode
  neg : u.neg = s.neg
  text : spanText s = acc ++ (value ++ (chunk ++ spanText u))
  chunkIs : chunk = if u.cv then lanes (chunkBytes u.cn) u.cw else []
  valueLength : value.length = if u.lv then chunkBytes u.ln else 0
  valueIs : u.lv = true → value.all isDigit = true → u.low.toNat = digitsValue value
  noTake : u.av = false → acc = []
  clean : u.err = 0 ↔ (acc ++ value).all isDigit = true
  accIs : u.av = true → acc.all isDigit = true → u.acc.toNat = digitsValue acc % 2 ^ modePW s.mode
  magnitudeIs : u.av = true → u.lv = false → acc.all isDigit = true → magnitude u = digitsValue acc

/-- Before the first chunk the whole text is still in the span. -/
theorem progress_start {s : State} (h : ReadyToPlan s) : Progress s s [] [] [] where
  phase := h.phase
  mode := rfl
  neg := rfl
  text := rfl
  chunkIs := by simp [h.noChunk]
  valueLength := by simp [h.noValue]
  valueIs := by simp [h.noValue]
  noTake := fun _ => rfl
  clean := by simp [h.clean]
  accIs := by simp [h.noTake]
  magnitudeIs := by simp [h.noTake]

section
variable {s u : State} {acc value chunk : List Byte}

theorem Progress.load (p : Progress s u acc value chunk) {n : ChunkSize} (hc : u.cv = false)
    (hn : chunkBytes n ≤ u.sl) :
    Progress s (loadChunk n u) acc value (lanes (chunkBytes n) (loadChunk n u).cw) := by
  have hnone : chunk = [] := by simpa [hc] using p.chunkIs
  exact
  { p with
    text := by
      rw [p.text, hnone, List.nil_append, spanText_advance hn, loadChunk_cw, lanes_memRead _ _ _ (chunkBytes_le n)]
      rfl
    chunkIs := rfl }

theorem Progress.decode (p : Progress s u acc value chunk) {n : ChunkSize} (hc : u.cv = true) (hn : u.cn = n)
    (hv : u.lv = false) : Progress s (decodeChunk n u) acc chunk [] := by
  have hnone : value = [] := List.eq_nil_of_length_eq_zero (by simpa [hv] using p.valueLength)
  have hchunk : chunk = lanes (chunkBytes n) u.cw := by simpa [hc, hn] using p.chunkIs
  have hclean : u.err = 0 ↔ acc.all isDigit = true := by simpa [hnone] using p.clean
  exact
  { p with
    text := by rw [p.text, hnone]; rfl
    chunkIs := rfl
    valueLength := by simp [hchunk]
    valueIs := fun _ hd => by rw [hchunk] at hd ⊢; exact chunkVal_lanes hd
    clean := by
      rw [decodeChunk_err, or_eq_zero_iff, hclean, chunkErr_eq_zero_iff_lanes, ← hchunk, List.all_append,
        Bool.and_eq_true]
    magnitudeIs := by simp }

theorem Progress.take (p : Progress s u acc value chunk) (hv : u.lv = true) (ha : u.av = false) :
    Progress s (takeValue u) value [] chunk := by
  have hnone : acc = [] := p.noTake ha
  have hacc : (takeValue u).acc.toNat = u.low.toNat := BitVec.toNat_setWidth_of_le (by decide)
  have hlow : u.low.toNat < 2 ^ modePW s.mode :=
    u.low.isLt.trans_le (Nat.pow_le_pow_right (by decide) (modePW_ge s.mode))
  exact
  { p with
    text := by rw [p.text, hnone]; rfl
    valueLength := rfl
    valueIs := by simp
    noTake := by simp
    clean := by rw [takeValue_err, p.clean, hnone, List.nil_append, List.append_nil]
    accIs := fun _ hd => by rw [hacc, ← p.valueIs hv hd, Nat.mod_eq_of_lt hlow]
    magnitudeIs := fun _ _ hd => by simp [magnitude, p.valueIs hv hd] }

/-- The digits of ACC while a value waits are fewer than DMAX, so ACC is their exact value. -/
theorem Progress.acc_exact (p : Progress s u acc value chunk) (hs : s.sl ≤ modeDmax s.mode) (hv : u.lv = true)
    (ha : u.av = true) (hd : acc.all isDigit = true) : u.acc.toNat = digitsValue acc := by
  have hlen : acc.length ≤ modeDmax s.mode - 1 := by
    have htext := congrArg List.length p.text
    have hvalue := p.valueLength
    have := chunkBytes_pos u.ln
    simp only [spanText, textAt_length, List.length_append, hv, if_true] at htext hvalue
    omega
  rw [p.accIs ha hd, Nat.mod_eq_of_lt]
  calc digitsValue acc < 10 ^ acc.length := digitsValue_lt hd
    _ ≤ 10 ^ (modeDmax s.mode - 1) := Nat.pow_le_pow_right (by decide) hlen
    _ ≤ 2 ^ modePW s.mode := pow_modeDmax_le s.mode

theorem Progress.fold (p : Progress s u acc value chunk) (hs : s.sl ≤ modeDmax s.mode) {k : ChunkSize}
    (hv : u.lv = true) (hk : u.ln = k) (ha : u.av = true) :
    Progress s (foldValue k u) (acc ++ value) [] chunk := by
  have hlen : value.length = chunkBytes k := by simpa [hv, hk] using p.valueLength
  have hexact (hd : (acc ++ value).all isDigit = true) :
      u.acc.toNat * 10 ^ chunkBytes k + u.low.toNat = digitsValue (acc ++ value) := by
    obtain ⟨hacc, hvalue⟩ : acc.all isDigit = true ∧ value.all isDigit = true := by
      rwa [List.all_append, Bool.and_eq_true] at hd
    rw [p.acc_exact hs hv ha hacc, p.valueIs hv hvalue, digitsValue_append, hlen]
  exact
  { p with
    text := by rw [p.text, List.append_assoc]; rfl
    valueLength := rfl
    valueIs := by simp
    noTake := by simp [ha]
    clean := by rw [foldValue_err, p.clean, List.append_nil]
    accIs := fun _ hd => by rw [foldValue_acc, foldedAcc_toNat, hexact hd, p.mode]
    magnitudeIs := fun _ _ hd => by rw [magnitude_foldValue, hexact hd] }

/-- With nothing in flight and the span consumed, the whole text is in ACC. -/
theorem Progress.all_taken (p : Progress s u acc value chunk) (hc : u.cv = false) (hv : u.lv = false) (h0 : u.sl = 0) :
    value = [] ∧ spanText s = acc := by
  have hchunk : chunk = [] := by simpa [hc] using p.chunkIs
  have hvalue : value = [] := List.eq_nil_of_length_eq_zero (by simpa [hv] using p.valueLength)
  have hspan : spanText u = [] := by rw [spanText, h0]; rfl
  exact ⟨hvalue, by rw [p.text, hchunk, hvalue, hspan]; simp⟩

/-- `chk` leaves ERR = 0 exactly when the text was digits with a value in range (R44, R172). -/
theorem Progress.check (p : Progress s u acc value chunk) (hc : u.cv = false) (hv : u.lv = false) (ha : u.av = true)
    (h0 : u.sl = 0) :
    (checkBound u).err = 0
      ↔ (spanText s).all isDigit = true ∧ digitsValue (spanText s) ≤ modeLimit s.mode s.neg := by
  obtain ⟨hvalue, htext⟩ := p.all_taken hc hv h0
  have hclean : u.err = 0 ↔ acc.all isDigit = true := by simpa [hvalue] using p.clean
  have hbit : (BitVec.ofBool (overflows u)).setWidth 64 = (0 : Half) ↔ magnitude u ≤ modeLimit u.mode u.neg := by
    rw [setWidth_eq_zero_iff (by decide)]
    unfold overflows
    by_cases hm : modeLimit u.mode u.neg < magnitude u
    · simp [hm]
    · simp [hm, Nat.not_lt.mp hm]
  rw [checkBound_err, or_eq_zero_iff, hclean, hbit, htext, p.mode, p.neg]
  exact and_congr_right fun hd => by rw [p.magnitudeIs ha hv hd]

end

/-- What holds from `nrm` on, whatever ops of the call come in whatever order: the digits are where they belong at RUN,
the verdict is right at CHECKED, and the call never goes back. -/
def OnTrack (s u : State) : Prop :=
  (∃ acc value chunk, Progress s u acc value chunk)
    ∨ (u.ph = .checked
        ∧ (u.err = 0 ↔ (spanText s).all isDigit = true ∧ digitsValue (spanText s) ≤ modeLimit s.mode s.neg))
    ∨ u.ph = .halt ∨ u.ph = .done

theorem OnTrack.not_early {s u : State} (h : OnTrack s u) : u.ph ≠ .sign ∧ u.ph ≠ .norm := by
  rcases h with ⟨_, _, _, p⟩ | ⟨hp, -⟩ | hp | hp
  · simp [p.phase]
  · simp [hp]
  · simp [hp]
  · simp [hp]

theorem OnTrack.progress {s u : State} (h : OnTrack s u) (hp : u.ph = .run) :
    ∃ acc value chunk, Progress s u acc value chunk := by
  rcases h with h | ⟨hp', -⟩ | hp' | hp'
  · exact h
  all_goals exact absurd (hp.symm.trans hp') (by decide)

theorem OnTrack.verdict {s u : State} (h : OnTrack s u) (hp : u.ph = .checked) :
    u.err = 0 ↔ (spanText s).all isDigit = true ∧ digitsValue (spanText s) ≤ modeLimit s.mode s.neg := by
  rcases h with ⟨_, _, _, p⟩ | ⟨-, hverdict⟩ | hp' | hp'
  · exact absurd (hp.symm.trans p.phase) (by decide)
  · exact hverdict
  all_goals exact absurd (hp.symm.trans hp') (by decide)

theorem CallStep.onTrack {s u v : State} (hs : s.sl ≤ modeDmax s.mode) (step : CallStep u v) (h : OnTrack s u) :
    OnTrack s v := by
  cases step with
  | ignored => exact h
  | fault => exact .inr (.inr (.inl rfl))
  | sign phase => exact absurd phase h.not_early.1
  | norm phase => exact absurd phase h.not_early.2
  | load n phase noChunk room =>
    obtain ⟨acc, value, chunk, p⟩ := h.progress phase
    exact .inl ⟨_, _, _, p.load noChunk room⟩
  | decode n phase waits size noValue =>
    obtain ⟨acc, value, chunk, p⟩ := h.progress phase
    exact .inl ⟨_, _, _, p.decode waits size noValue⟩
  | take phase waits noTake =>
    obtain ⟨acc, value, chunk, p⟩ := h.progress phase
    exact .inl ⟨_, _, _, p.take waits noTake⟩
  | fold k phase waits size taken =>
    obtain ⟨acc, value, chunk, p⟩ := h.progress phase
    exact .inl ⟨_, _, _, p.fold hs waits size taken⟩
  | check phase noChunk noValue taken consumed =>
    obtain ⟨acc, value, chunk, p⟩ := h.progress phase
    exact .inr (.inl ⟨rfl, p.check noChunk noValue taken consumed⟩)
  | finish => exact .inr (.inr (.inr (finish_ph u)))

theorem callSteps_onTrack {s t : State} (h : ReadyToPlan s) (steps : CallSteps s t) : OnTrack s t := by
  induction steps with
  | refl => exact .inl ⟨_, _, _, progress_start h⟩
  | tail _ last ih => exact last.onTrack h.short ih

/-- The ops on the digits (majors 1 to 3, and `take`) are none of majors 4 and 5 (R82). -/
theorem startsCall_of_isDigitOp {i : Instr} (h : isDigitOp i = true) : startsCall i = false := by
  have hword : ∀ w : OpWord, ((1 ≤ opMajor w && opMajor w ≤ 3) || w == 0x03) = true →
      (opMajor w == 4 || opMajor w == 5) = false := by decide
  exact hword (encode i) h

/-- Settles O32: the digits stay on track through every legal order of ops, and `chk` is one of them. -/
theorem errIsZeroIffCleanAndInRange : Obligations.ErrIsZeroIffCleanAndInRange := by
  intro ops s t hs hops e hp
  have hstarts : ∀ i ∈ ops ++ [.chk], startsCall i = false := by
    intro i hi
    rcases List.mem_append.mp hi with hi | hi
    · exact startsCall_of_isDigitOp (hops i hi)
    · rw [List.mem_singleton.mp hi]; rfl
  exact (callSteps_onTrack hs (runOps_callSteps hstarts e)).verdict hp

end Sys2Proof.Proofs

namespace Sys2Proof.Proofs

open Sys2Proof.Machine Sys2Proof.Safety

/-! ### What belongs to the host -/

/-- t has of s all that is the host's: the memory, the text it names in IPTR and ILEN, the build parameters and the
actions still to come (R21, R22, R42, R61). -/
structure HostKept (s t : State) : Prop where
  imem : t.imem = s.imem
  iptr : t.iptr = s.iptr
  ilen : t.ilen = s.ilen
  ksel : t.ksel = s.ksel
  aw : t.aw = s.aw
  input : t.input = s.input

theorem HostKept.refl (s : State) : HostKept s s := ⟨rfl, rfl, rfl, rfl, rfl, rfl⟩

theorem HostKept.trans {s u v : State} (h : HostKept s u) (k : HostKept u v) : HostKept s v where
  imem := k.imem.trans h.imem
  iptr := k.iptr.trans h.iptr
  ilen := k.ilen.trans h.ilen
  ksel := k.ksel.trans h.ksel
  aw := k.aw.trans h.aw
  input := k.input.trans h.input

theorem raise_hostKept (c : FaultCode) (w : OpWord) (s : State) : HostKept s (raise c w s) :=
  ⟨rfl, rfl, rfl, rfl, rfl, rfl⟩

theorem consumeSign_hostKept (s : State) : HostKept s (consumeSign s) := by
  rw [consumeSign_frame]
  exact ⟨rfl, rfl, rfl, rfl, rfl, rfl⟩

theorem finish_hostKept (s : State) : HostKept s (finish s) := by
  rw [finish_frame]
  exact ⟨rfl, rfl, rfl, rfl, rfl, rfl⟩

theorem CallStep.hostKept {s t : State} (step : CallStep s t) : HostKept s t := by
  cases step with
  | ignored => exact .refl s
  | fault c w => exact raise_hostKept c w s
  | sign => exact consumeSign_hostKept s
  | finish => exact finish_hostKept s
  | norm | load | decode | take | fold | check => exact ⟨rfl, rfl, rfl, rfl, rfl, rfl⟩

theorem callSteps_hostKept {s t : State} (steps : CallSteps s t) : HostKept s t := by
  induction steps with
  | refl => exact .refl s
  | tail _ last ih => exact ih.trans last.hostKept

/-- `begin.m` reads IPTR and ILEN and writes neither (R150). -/
theorem performBegin_hostKept (m : Mode) (w : OpWord) (s : State) : HostKept s (performBegin m w s) := by
  rcases performBegin_cases m w s with ⟨-, e⟩ | ⟨-, -, e⟩ | ⟨-, -, e⟩ | ⟨-, -, e⟩ <;> rw [e]
  · exact .refl s
  · exact raise_hostKept _ w s
  · exact raise_hostKept _ w s
  · exact ⟨rfl, rfl, rfl, rfl, rfl, rfl⟩

theorem exec_hostKept {i : Instr} {s t : State} (e : exec i s = .next t) : HostKept s t := by
  rcases exec_cases e with ⟨-, hstep⟩ | ⟨-, m, w, hsteps⟩
  · exact hstep.hostKept
  · exact (performBegin_hostKept m w s).trans (callSteps_hostKept hsteps)

/-- Settles O44: no effect of an op writes what is the host's. -/
theorem opsNeverWriteMemory : Obligations.OpsNeverWriteMemory := by
  intro i s t e
  obtain ⟨himem, hptr, hlen, hksel, haw, hinput⟩ := exec_hostKept e
  exact ⟨himem, fun a => by rw [himem, haw], hptr, hlen, hksel, haw, hinput⟩

/-- A step on an action of the host is that action, on the state with the action taken off the input. -/
theorem step_of_event {s : State} {ev : HostEvent} {rest : List HostEvent} (h : s.input = ev :: rest) :
    step s = applyEvent ev { s with input := rest } := by
  simp only [step, nextEvent, h]

/-- Settles O54: the step is the poke, and the list it leaves reads back (`imemByte_imemPoke`). -/
theorem hostByteReadsBack : Obligations.HostByteReadsBack := by
  intro s a b rest hwf hin
  exact ⟨{ s with imem := imemPoke s.aw s.imem a b, input := rest }, step_of_event hin, rfl,
    fun c => imemByte_imemPoke a c b hwf⟩

end Sys2Proof.Proofs

namespace Sys2Proof.Proofs

open Sys2Proof.Machine Sys2Proof.Safety

/-! ### The fields of a word, as numbers (R81) -/

theorem opMajor_toNat (w : OpWord) : (opMajor w).toNat = w.toNat / 32 := by
  rw [opMajor, BitVec.extractLsb'_toNat, Nat.shiftRight_eq_div_pow]
  exact Nat.mod_eq_of_lt (by omega)

theorem opMinor_toNat (w : OpWord) : (opMinor w).toNat = w.toNat % 32 := by
  rw [opMinor, BitVec.extractLsb'_toNat, Nat.shiftRight_zero]

theorem opZero_toNat (w : OpWord) : (opZero w).toNat = w.toNat / 8 % 4 := by
  rw [opZero, BitVec.extractLsb'_toNat, Nat.shiftRight_eq_div_pow]

theorem opSz_toNat (w : OpWord) : (opSz w).toNat = w.toNat % 8 := by
  rw [opSz, BitVec.extractLsb'_toNat, Nat.shiftRight_zero]

theorem opWsel_toNat (w : OpWord) : (opWsel w).toNat = w.toNat / 4 % 8 := by
  rw [opWsel, BitVec.extractLsb'_toNat, Nat.shiftRight_eq_div_pow]

theorem opGsel_toNat (w : OpWord) : (opGsel w).toNat = w.toNat % 4 := by
  rw [opGsel, BitVec.extractLsb'_toNat, Nat.shiftRight_zero]

theorem wordZ_toNat (minor : BitVec 5) : (wordZ minor).toNat = minor.toNat := by
  rw [wordZ, toNat_append_eq_add, BitVec.toNat_ofNat]
  omega

theorem wordS_toNat (major sz : BitVec 3) : (wordS major sz).toNat = 32 * major.toNat + sz.toNat := by
  rw [wordS, toNat_append_eq_add, toNat_append_eq_add, BitVec.toNat_ofNat]
  omega

theorem wordM_toNat (major wsel : BitVec 3) (gsel : BitVec 2) :
    (wordM major wsel gsel).toNat = 32 * major.toNat + 4 * wsel.toNat + gsel.toNat := by
  rw [wordM, toNat_append_eq_add, toNat_append_eq_add]
  omega

/-! ### A word put together from fields has these fields -/

@[simp] theorem opMajor_wordS (major sz : BitVec 3) : opMajor (wordS major sz) = major :=
  BitVec.eq_of_toNat_eq (by rw [opMajor_toNat, wordS_toNat]; omega)

@[simp] theorem opZero_wordS (major sz : BitVec 3) : opZero (wordS major sz) = 0 :=
  BitVec.eq_of_toNat_eq (by rw [opZero_toNat, wordS_toNat]; show _ = 0; omega)

@[simp] theorem opSz_wordS (major sz : BitVec 3) : opSz (wordS major sz) = sz :=
  BitVec.eq_of_toNat_eq (by rw [opSz_toNat, wordS_toNat]; omega)

@[simp] theorem opMajor_wordM (major wsel : BitVec 3) (gsel : BitVec 2) : opMajor (wordM major wsel gsel) = major :=
  BitVec.eq_of_toNat_eq (by rw [opMajor_toNat, wordM_toNat]; omega)

@[simp] theorem opWsel_wordM (major wsel : BitVec 3) (gsel : BitVec 2) : opWsel (wordM major wsel gsel) = wsel :=
  BitVec.eq_of_toNat_eq (by rw [opWsel_toNat, wordM_toNat]; omega)

@[simp] theorem opGsel_wordM (major wsel : BitVec 3) (gsel : BitVec 2) : opGsel (wordM major wsel gsel) = gsel :=
  BitVec.eq_of_toNat_eq (by rw [opGsel_toNat, wordM_toNat]; omega)

/-- The low five bits of an M-format word are both its selectors. -/
theorem opMinor_wordM (major wsel : BitVec 3) (gsel : BitVec 2) : opMinor (wordM major wsel gsel) = wsel ++ gsel :=
  BitVec.eq_of_toNat_eq (by rw [opMinor_toNat, wordM_toNat, toNat_append_eq_add]; omega)

/-! ### A word is put together from its fields -/

theorem wordZ_of_fields {w : OpWord} (h : (opMajor w).toNat = 0) : wordZ (opMinor w) = w :=
  BitVec.eq_of_toNat_eq (by rw [opMajor_toNat] at h; rw [wordZ_toNat, opMinor_toNat]; omega)

theorem wordS_of_fields {w : OpWord} (h : opZero w = 0) : wordS (opMajor w) (opSz w) = w := by
  have hzero : w.toNat / 8 % 4 = 0 := by rw [← opZero_toNat, h]; rfl
  refine BitVec.eq_of_toNat_eq ?_
  rw [wordS_toNat, opMajor_toNat, opSz_toNat]
  omega

theorem wordM_of_fields (w : OpWord) : wordM (opMajor w) (opWsel w) (opGsel w) = w :=
  BitVec.eq_of_toNat_eq (by rw [wordM_toNat, opMajor_toNat, opWsel_toNat, opGsel_toNat]; omega)

/-! ### The word of each family (R82 to R85, R92) -/

theorem encode_rdOp (n : ChunkSize) : encode (rdOp n) = wordS 1 (chunkCode n) := by cases n <;> rfl

theorem encode_decOp (n : ChunkSize) : encode (decOp n) = wordS 2 (chunkCode n) := by cases n <;> rfl

theorem encode_foldOp (n : ChunkSize) : encode (foldOp n) = wordS 3 (chunkCode n) := by cases n <;> rfl

theorem encode_beginOp (m : Mode) : encode (beginOp m) = wordM 4 (widthCode m.width) (grammarCode m.grammar) := by
  obtain ⟨w, g⟩ := m
  cases w <;> cases g <;> rfl

theorem encode_parseOp (m : Mode) : encode (parseOp m) = wordM 5 (widthCode m.width) (grammarCode m.grammar) := by
  obtain ⟨w, g⟩ := m
  cases w <;> cases g <;> rfl

/-! ### The operands (R84, R85) -/

/-- An sz is an operand exactly as the code of its size. -/
theorem sizeOfSz_eq_some_iff {sz : BitVec 3} {n : ChunkSize} : sizeOfSz sz = some n ↔ chunkCode n = sz := by
  constructor
  · intro h
    unfold sizeOfSz at h
    split at h
    case h_6 => cases h
    all_goals next hsz => cases h; exact BitVec.eq_of_toNat_eq hsz.symm
  · rintro rfl
    cases n <;> rfl

theorem widthOfWsel_eq_some_iff {wsel : BitVec 3} {w : Width} : widthOfWsel wsel = some w ↔ widthCode w = wsel := by
  constructor
  · intro h
    unfold widthOfWsel at h
    split at h
    case h_6 => cases h
    all_goals next hw => cases h; exact BitVec.eq_of_toNat_eq hw.symm
  · rintro rfl
    cases w <;> rfl

theorem grammarOfGsel_eq_some_iff {gsel : BitVec 2} {g : Grammar} :
    grammarOfGsel gsel = some g ↔ grammarCode g = gsel := by
  constructor
  · intro h
    unfold grammarOfGsel at h
    split at h
    case h_4 => cases h
    all_goals next hg => cases h; exact BitVec.eq_of_toNat_eq hg.symm
  · rintro rfl
    cases g <;> rfl

theorem exists_sizeOfSz_iff (sz : BitVec 3) : (∃ n, sizeOfSz sz = some n) ↔ sz.toNat ≤ 4 := by
  rw [← Option.isSome_iff_exists]
  revert sz
  decide

theorem exists_widthOfWsel_iff (wsel : BitVec 3) : (∃ w, widthOfWsel wsel = some w) ↔ wsel.toNat ≤ 4 := by
  rw [← Option.isSome_iff_exists]
  revert wsel
  decide

theorem exists_grammarOfGsel_iff (gsel : BitVec 2) : (∃ g, grammarOfGsel gsel = some g) ↔ gsel.toNat ≤ 2 := by
  rw [← Option.isSome_iff_exists]
  revert gsel
  decide

/-! ### The decoder, format by format (R83 to R85, R91) -/

theorem decodeS_eq_ok_iff {op : ChunkSize → Instr} {zero : BitVec 2} {sz : BitVec 3} {i : Instr} :
    decodeS op zero sz = .ok i ↔ zero = 0 ∧ ∃ n, sizeOfSz sz = some n ∧ op n = i := by
  unfold decodeS
  by_cases hz : zero = 0
  · subst hz
    cases sizeOfSz sz <;> simp
  · rw [if_pos hz]
    exact ⟨nofun, fun h => absurd h.1 hz⟩

theorem decodeM_eq_ok_iff {op : Mode → Instr} {wsel : BitVec 3} {gsel : BitVec 2} {i : Instr} :
    decodeM op wsel gsel = .ok i
      ↔ ∃ w g, widthOfWsel wsel = some w ∧ grammarOfGsel gsel = some g ∧ op ⟨w, g⟩ = i := by
  unfold decodeM
  cases widthOfWsel wsel <;> cases grammarOfGsel gsel <;> simp

/-- A Z-format word that decodes is the word of what it decodes to. -/
theorem encode_of_decodeZ {minor : BitVec 5} {i : Instr} (h : decodeZ minor = .ok i) : encode i = wordZ minor := by
  unfold decodeZ at h
  split at h
  case h_6 => cases h
  all_goals next hm => cases h; exact congrArg wordZ (BitVec.eq_of_toNat_eq hm.symm)

theorem encode_of_decodeS {op : ChunkSize → Instr} {major : BitVec 3}
    (hop : ∀ n, encode (op n) = wordS major (chunkCode n))
    {w : OpWord} {i : Instr} (hmajor : opMajor w = major) (h : decodeS op (opZero w) (opSz w) = .ok i) :
    encode i = w := by
  obtain ⟨hzero, n, hn, rfl⟩ := decodeS_eq_ok_iff.mp h
  rw [hop, sizeOfSz_eq_some_iff.mp hn, ← hmajor, wordS_of_fields hzero]

theorem encode_of_decodeM {op : Mode → Instr} {major : BitVec 3}
    (hop : ∀ m, encode (op m) = wordM major (widthCode m.width) (grammarCode m.grammar))
    {w : OpWord} {i : Instr} (hmajor : opMajor w = major) (h : decodeM op (opWsel w) (opGsel w) = .ok i) :
    encode i = w := by
  obtain ⟨width, grammar, hw, hg, rfl⟩ := decodeM_eq_ok_iff.mp h
  rw [hop, widthOfWsel_eq_some_iff.mp hw, grammarOfGsel_eq_some_iff.mp hg, ← hmajor, wordM_of_fields]

/-- The major selects the format, and each format keeps every bit of the word (R91). -/
theorem encode_of_decode {w : OpWord} {i : Instr} (h : decode w = .ok i) : encode i = w := by
  unfold decode at h
  split at h
  · next hmajor => rw [encode_of_decodeZ h, wordZ_of_fields hmajor]
  · next hmajor => exact encode_of_decodeS encode_rdOp (BitVec.eq_of_toNat_eq hmajor) h
  · next hmajor => exact encode_of_decodeS encode_decOp (BitVec.eq_of_toNat_eq hmajor) h
  · next hmajor => exact encode_of_decodeS encode_foldOp (BitVec.eq_of_toNat_eq hmajor) h
  · next hmajor => exact encode_of_decodeM encode_beginOp (BitVec.eq_of_toNat_eq hmajor) h
  · next hmajor => exact encode_of_decodeM encode_parseOp (BitVec.eq_of_toNat_eq hmajor) h
  · cases h

theorem decodeS_chunkCode (op : ChunkSize → Instr) (n : ChunkSize) : decodeS op 0 (chunkCode n) = .ok (op n) :=
  decodeS_eq_ok_iff.mpr ⟨rfl, n, sizeOfSz_eq_some_iff.mpr rfl, rfl⟩

theorem decodeM_codes (op : Mode → Instr) (m : Mode) :
    decodeM op (widthCode m.width) (grammarCode m.grammar) = .ok (op m) :=
  decodeM_eq_ok_iff.mpr ⟨m.width, m.grammar, widthOfWsel_eq_some_iff.mpr rfl, grammarOfGsel_eq_some_iff.mpr rfl, rfl⟩

/-- The decoder finds the fields that the encoder put into the word, family by family (R82). -/
theorem decode_encode (i : Instr) : decode (encode i) = .ok i := by
  rcases instr_cases i with
    rfl | rfl | rfl | rfl | rfl | ⟨n, rfl⟩ | ⟨n, rfl⟩ | ⟨n, rfl⟩ | ⟨m, rfl⟩ | ⟨m, rfl⟩
  iterate 5 rfl
  · rw [encode_rdOp]; simpa [decode] using decodeS_chunkCode rdOp n
  · rw [encode_decOp]; simpa [decode] using decodeS_chunkCode decOp n
  · rw [encode_foldOp]; simpa [decode] using decodeS_chunkCode foldOp n
  · rw [encode_beginOp]; simpa [decode] using decodeM_codes beginOp m
  · rw [encode_parseOp]; simpa [decode] using decodeM_codes parseOp m

/-- Words and operations correspond: a word decodes to the one operation whose word it is (R91, R92). -/
theorem decode_eq_ok_iff {w : OpWord} {i : Instr} : decode w = .ok i ↔ encode i = w := by
  refine ⟨encode_of_decode, ?_⟩
  rintro rfl
  exact decode_encode i

/-- Settles O1, by the families of R82. -/
theorem decodeOfEncode : Obligations.DecodeOfEncode := decode_encode

/-- Settles O2, by the formats of R81. -/
theorem encodeOfDecode : Obligations.EncodeOfDecode := fun _ _ => encode_of_decode

/-- Settles O4: each word is the encoding of its operation. -/
theorem sampleWordsDecode : Obligations.SampleWordsDecode := by
  refine ⟨?_, ?_, ?_, ?_, ?_, ?_, ?_, ?_, ?_, ?_⟩ <;> exact decode_eq_ok_iff.mpr rfl

/-- Settles O5: both words are of format M, whose low five bits are the two selectors that make up MODE. -/
theorem modeOperandIsMode : Obligations.ModeOperandIsMode := by
  intro m
  rw [encode_beginOp, encode_parseOp]
  exact ⟨opMinor_wordM 4 _ _, opMinor_wordM 5 _ _⟩

/-! ### The reserved words (R86, R222) -/

theorem decodeZ_accepts_iff (minor : BitVec 5) :
    (∃ i, decodeZ minor = .ok i) ↔ 1 ≤ minor.toNat ∧ minor.toNat ≤ 5 := by
  unfold decodeZ
  split
  case h_6 h1 h2 h3 h4 h5 =>
    simp only [imp_false] at h1 h2 h3 h4 h5
    exact ⟨nofun, fun h => absurd h (by omega)⟩
  all_goals next hm => simp [hm]

theorem decodeS_accepts_iff (op : ChunkSize → Instr) (zero : BitVec 2) (sz : BitVec 3) :
    (∃ i, decodeS op zero sz = .ok i) ↔ zero.toNat = 0 ∧ sz.toNat ≤ 4 := by
  have hzero : zero = 0 ↔ zero.toNat = 0 := BitVec.toNat_eq
  rw [← exists_sizeOfSz_iff, ← hzero]
  constructor
  · rintro ⟨i, h⟩
    obtain ⟨hz, n, hn, -⟩ := decodeS_eq_ok_iff.mp h
    exact ⟨hz, n, hn⟩
  · rintro ⟨hz, n, hn⟩
    exact ⟨op n, decodeS_eq_ok_iff.mpr ⟨hz, n, hn, rfl⟩⟩

theorem decodeM_accepts_iff (op : Mode → Instr) (wsel : BitVec 3) (gsel : BitVec 2) :
    (∃ i, decodeM op wsel gsel = .ok i) ↔ wsel.toNat ≤ 4 ∧ gsel.toNat ≤ 2 := by
  rw [← exists_widthOfWsel_iff, ← exists_grammarOfGsel_iff]
  constructor
  · rintro ⟨i, h⟩
    obtain ⟨w, g, hw, hg, -⟩ := decodeM_eq_ok_iff.mp h
    exact ⟨⟨w, hw⟩, g, hg⟩
  · rintro ⟨⟨w, hw⟩, g, hg⟩
    exact ⟨op ⟨w, g⟩, decodeM_eq_ok_iff.mpr ⟨w, g, hw, hg, rfl⟩⟩

/-- The listed legal words as a condition on the number. -/
theorem legalWord_iff (w : OpWord) : WellFormed.legalWord w = true
    ↔ (w.toNat < 0x20 → 1 ≤ w.toNat ∧ w.toNat ≤ 5)
      ∧ (0x20 ≤ w.toNat → w.toNat < 0x80 → w.toNat % 0x20 ≤ 4)
      ∧ (0x80 ≤ w.toNat → w.toNat < 0xC0 → w.toNat % 4 ≤ 2 ∧ w.toNat / 4 % 8 ≤ 4)
      ∧ w.toNat < 0xC0 := by
  simp [WellFormed.legalWord, WellFormed.minorOk, WellFormed.sizeOk, WellFormed.grammarOk, WellFormed.widthOk,
    WellFormed.majorOk]
  omega

/-- The decoder accepts the listed legal words and no others, major by major (R86, R91). -/
theorem decode_accepts_iff (w : OpWord) : (∃ i, decode w = .ok i) ↔ WellFormed.legalWord w = true := by
  have hfield := opMajor_toNat w
  rw [legalWord_iff]
  unfold decode
  split
  · rw [decodeZ_accepts_iff, opMinor_toNat]; omega
  iterate 3
    · rw [decodeS_accepts_iff, opZero_toNat, opSz_toNat]; omega
  iterate 2
    · rw [decodeM_accepts_iff, opWsel_toNat, opGsel_toNat]; omega
  · next h0 h1 h2 h3 h4 h5 =>
    simp only [imp_false] at h0 h1 h2 h3 h4 h5
    exact ⟨nofun, fun h => absurd h (by omega)⟩

theorem decode_rejects_iff (w : OpWord) : (∃ r, decode w = .error r) ↔ WellFormed.legalWord w = false := by
  rw [← Bool.not_eq_true, ← decode_accepts_iff]
  cases decode w <;> simp

theorem presentOp_of_decode {w : OpWord} {i : Instr} (h : decode w = .ok i) (s : State) :
    presentOp w s = exec i s := by
  simp only [presentOp, h]

theorem presentOp_of_reject {w : OpWord} {r : Reserved} (h : decode w = .error r) (s : State) :
    presentOp w s = .next (illegalOp w s) := by
  simp only [presentOp, h]

theorem presentOp_of_reserved {w : OpWord} (h : WellFormed.legalWord w = false) (s : State) :
    presentOp w s = .next (illegalOp w s) := by
  obtain ⟨r, hr⟩ := (decode_rejects_iff w).mpr h
  exact presentOp_of_reject hr s

/-- Settles O3: the decoder rejects what the list of R86 leaves out, and a rejected word takes F_ILLOP or is ignored. -/
theorem reservedWordsRaiseIllop : Obligations.ReservedWordsRaiseIllop := by
  refine fun w s => ⟨decode_rejects_iff w, fun hw hs => ?_, fun hw hs => ?_⟩
  · rw [presentOp_of_reserved hw, illegalOp, if_neg hs, raise]
  · rw [presentOp_of_reserved hw, illegalOp, if_pos hs]

/-- A write of OP presents its low 8 bits as the word (R46, R90). -/
theorem hostWrite_op (v : Nat) (s : State) : hostWrite 0x0 v s = presentOp (BitVec.ofNat 8 v) s := rfl

/-- Settles O6: a write of register 0x0 presents the word, and a presented word runs what it decodes to. -/
theorem stepRunsPresentedOp : Obligations.StepRunsPresentedOp := by
  intro s v rest i hin hdecode
  rw [step_of_write hin, hostWrite_op, presentOp_of_decode hdecode]

end Sys2Proof.Proofs

namespace Sys2Proof.Proofs

open Sys2Proof.Machine Sys2Proof.Safety

/-! ### What no op reads

An op reads neither which 16-byte datapath is built (R132) nor what the host will do after it (R90): it does the same to
a state in which both are changed. -/

/-- s with another build and other actions of the host to come. -/
def withUnread (build : Config.Kernel16) (actions : List HostEvent) (s : State) : State :=
  { s with ksel := build, input := actions }

section
variable (build : Config.Kernel16) (actions : List HostEvent)

/-- The frame of an op reads PH only. -/
theorem sequenced_withUnread {act : State → State} {s : State}
    (hact : act (withUnread build actions s) = withUnread build actions (act s)) (w : OpWord) (legal : Bool) :
    sequenced w legal act (withUnread build actions s) = withUnread build actions (sequenced w legal act s) := by
  rcases sequenced_cases w legal act s with ⟨hh, e⟩ | ⟨hh, hl, e⟩ | ⟨hh, hl, e⟩ <;> rw [e]
  · exact sequenced_of_halt hh
  · rw [← hact]; exact sequenced_of_legal hh hl
  · exact sequenced_of_illegal hh hl

theorem consumeSign_withUnread (s : State) :
    consumeSign (withUnread build actions s) = withUnread build actions (consumeSign s) := by
  unfold consumeSign
  simp only [apply_ite (withUnread build actions)]
  rfl

theorem finish_withUnread (s : State) :
    finish (withUnread build actions s) = withUnread build actions (finish s) := by
  unfold finish
  rw [apply_ite (withUnread build actions)]
  rfl

@[simp] theorem performBegin_withUnread (m : Mode) (w : OpWord) (s : State) :
    performBegin m w (withUnread build actions s) = withUnread build actions (performBegin m w s) := by
  refine sequenced_withUnread build actions ?_ w (beginLegal s)
  rw [apply_ite (withUnread build actions)]
  rfl

@[simp] theorem performSgn_withUnread (w : OpWord) (s : State) :
    performSgn w (withUnread build actions s) = withUnread build actions (performSgn w s) :=
  sequenced_withUnread build actions (consumeSign_withUnread build actions s) w (sgnLegal s)

@[simp] theorem performNrm_withUnread (w : OpWord) (s : State) :
    performNrm w (withUnread build actions s) = withUnread build actions (performNrm w s) :=
  sequenced_withUnread build actions (act := normalise) rfl w (nrmLegal s)

@[simp] theorem performRd_withUnread (n : ChunkSize) (w : OpWord) (s : State) :
    performRd n w (withUnread build actions s) = withUnread build actions (performRd n w s) := by
  refine sequenced_withUnread build actions ?_ w (rdLegal s)
  rw [apply_ite (withUnread build actions)]
  rfl

@[simp] theorem performDec_withUnread (n : ChunkSize) (w : OpWord) (s : State) :
    performDec n w (withUnread build actions s) = withUnread build actions (performDec n w s) :=
  sequenced_withUnread build actions (act := decodeChunk n) rfl w (decLegal n s)

@[simp] theorem performTake_withUnread (w : OpWord) (s : State) :
    performTake w (withUnread build actions s) = withUnread build actions (performTake w s) :=
  sequenced_withUnread build actions (act := takeValue) rfl w (takeLegal s)

@[simp] theorem performFold_withUnread (k : ChunkSize) (w : OpWord) (s : State) :
    performFold k w (withUnread build actions s) = withUnread build actions (performFold k w s) :=
  sequenced_withUnread build actions (act := foldValue k) rfl w (foldLegal k s)

@[simp] theorem performChk_withUnread (w : OpWord) (s : State) :
    performChk w (withUnread build actions s) = withUnread build actions (performChk w s) :=
  sequenced_withUnread build actions (act := checkBound) rfl w (chkLegal s)

@[simp] theorem performFin_withUnread (w : OpWord) (s : State) :
    performFin w (withUnread build actions s) = withUnread build actions (performFin w s) :=
  sequenced_withUnread build actions (finish_withUnread build actions s) w (finLegal s)

@[simp] theorem performPlan_withUnread (w : OpWord) (p : List ChunkSize) (s : State) :
    performPlan w p (withUnread build actions s) = withUnread build actions (performPlan w p s) := by
  cases p with
  | nil => rfl
  | cons n rest =>
    rw [performPlan, performPlan, performLoad, performRd_withUnread, performDec_withUnread, performTake_withUnread]
    exact List.foldl_hom (withUnread build actions) fun s n => by simp [performFurther]

@[simp] theorem performDigits_withUnread (w : OpWord) (s : State) :
    performDigits w (withUnread build actions s) = withUnread build actions (performDigits w s) := by
  unfold performDigits
  rw [apply_ite (withUnread build actions), ← performChk_withUnread, ← performPlan_withUnread]
  rfl

/-- `parse.m` is made of ops that read neither (R194). -/
@[simp] theorem performParse_withUnread (m : Mode) (w : OpWord) (s : State) :
    performParse m w (withUnread build actions s) = withUnread build actions (performParse m w s) := by
  simp [performParse]

theorem exec_withUnread {i : Instr} {s t : State} (e : exec i s = .next t) :
    exec i (withUnread build actions s) = .next (withUnread build actions t) := by
  rcases instr_cases i with
    rfl | rfl | rfl | rfl | rfl | ⟨n, rfl⟩ | ⟨n, rfl⟩ | ⟨n, rfl⟩ | ⟨m, rfl⟩ | ⟨m, rfl⟩
  · cases e; simp [exec_sgn]
  · cases e; simp [exec_nrm]
  · cases e; simp [exec_take]
  · cases e; simp [exec_chk]
  · cases e; simp [exec_fin]
  · rw [exec_rd] at e; cases e; simp [exec_rd]
  · rw [exec_dec] at e; cases e; simp [exec_dec]
  · rw [exec_fold] at e; cases e; simp [exec_fold]
  · rw [exec_begin] at e; cases e; simp [exec_begin]
  · rw [exec_parse] at e; cases e; simp [exec_parse]

theorem illegalOp_withUnread (w : OpWord) (s : State) :
    illegalOp w (withUnread build actions s) = withUnread build actions (illegalOp w s) := by
  unfold illegalOp
  rw [apply_ite (withUnread build actions)]
  rfl

theorem presentOp_withUnread {w : OpWord} {s t : State} (e : presentOp w s = .next t) :
    presentOp w (withUnread build actions s) = .next (withUnread build actions t) := by
  cases hw : decode w with
  | ok i =>
    rw [presentOp_of_decode hw] at e ⊢
    exact exec_withUnread build actions e
  | error r =>
    rw [presentOp_of_reject hw] at e ⊢
    cases e
    rw [illegalOp_withUnread]

end

/-! ### The op stream (R90) -/

/-- Every op has a next state: its four faults are states too (R226). -/
theorem exec_next (i : Instr) (s : State) : ∃ t, exec i s = .next t := by
  cases i <;> exact ⟨_, rfl⟩

theorem presentOp_eq_afterWord (w : OpWord) (s : State) : presentOp w s = .next (afterWord s w) := by
  cases hw : decode w with
  | ok i =>
    obtain ⟨t, ht⟩ := exec_next i s
    rw [← presentOp_of_decode hw] at ht
    rw [afterWord, ht]
  | error r => rw [afterWord, presentOp_of_reject hw]

theorem illegalOp_hostKept (w : OpWord) (s : State) : HostKept s (illegalOp w s) := by
  rcases illegalOp_cases w s with ⟨-, e⟩ | ⟨-, e⟩ <;> rw [e]
  · exact .refl s
  · exact raise_hostKept _ w s

theorem presentOp_hostKept {w : OpWord} {s t : State} (e : presentOp w s = .next t) : HostKept s t := by
  cases hw : decode w with
  | ok i => exact exec_hostKept (presentOp_of_decode hw s ▸ e)
  | error r =>
    rw [presentOp_of_reject hw] at e
    cases e
    exact illegalOp_hostKept w s

/-- What a word does, it does whatever actions come after it. -/
theorem afterWord_withInput (w : OpWord) (s : State) (actions : List HostEvent) :
    afterWord { s with input := actions } w = { afterWord s w with input := actions } := by
  have hs : presentOp w s = .next (afterWord s w) := presentOp_eq_afterWord w s
  have hs' : presentOp w { s with input := actions } = .next (withUnread s.ksel actions (afterWord s w)) :=
    presentOp_withUnread s.ksel actions hs
  rw [afterWord, hs', withUnread, ← (presentOp_hostKept hs).ksel]

/-- A step on a presented word is what the word does. -/
theorem step_of_opEvent {s : State} {w : OpWord} {rest : List HostEvent} (h : s.input = opEvent w :: rest) :
    step s = .next (afterWord { s with input := rest } w) := by
  have hword : BitVec.ofNat 8 w.toNat = w := by simp
  rw [step_of_write h, hostWrite_op, hword, presentOp_eq_afterWord]

/-- A run of k + 1 steps is a step and a run of k. -/
theorem run_succ_of_next {M : Host.Core} {s t : M.State} (h : M.step s = .next t) (k : Nat) :
    M.run (k + 1) s = M.run k t := by
  rw [Host.Core.run, h]

/-- Settles O7, by induction on the words: each step takes one word off the input and does what that word does, which
does not depend on the words still to come. -/
theorem streamIsFoldOfWords : Obligations.StreamIsFoldOfWords := by
  intro ws
  induction ws with
  | nil => exact fun s => rfl
  | cons w ws ih =>
    intro s
    have hstep : step { s with input := (w :: ws).map opEvent }
        = .next { afterWord s w with input := ws.map opEvent } := by
      rw [step_of_opEvent (List.map_cons ..), ← afterWord_withInput]
    have hfold : ws.foldl afterWord { afterWord s w with input := [] }
        = (w :: ws).foldl afterWord { s with input := [] } := by
      rw [List.foldl_cons, afterWord_withInput w s []]
    calc Host.Core.run core (ws.length + 1) { s with input := (w :: ws).map opEvent }
      _ = Host.Core.run core ws.length { afterWord s w with input := ws.map opEvent } := run_succ_of_next hstep _
      _ = .next (ws.foldl afterWord { afterWord s w with input := [] }) := ih (afterWord s w)
      _ = .next ((w :: ws).foldl afterWord { s with input := [] }) := congrArg Host.Outcome.next hfold

end Sys2Proof.Proofs

namespace Sys2Proof.Proofs

open Sys2Proof.Machine Sys2Proof.Safety

/-! ### The chunk reader (R100 to R106) -/

theorem exec_rd_of_legal {n : ChunkSize} {s : State} (hp : s.ph = .run) (hc : s.cv = false)
    (hn : chunkBytes n ≤ s.sl) : exec (rdOp n) s = .next (loadChunk n s) := by
  rw [exec_rd, performRd_of_legal hp hc hn]

/-- The chunk stands little-endian in CW: the byte at SP + i in lane i, nothing above the chunk (R64, R106). -/
theorem lane_loadChunk_cw (n : ChunkSize) (s : State) {i : Nat} (hi : i < 16) :
    lane (loadChunk n s).cw i = if i < chunkBytes n then imemByte s.aw s.imem (s.sp + i) else 0 := by
  rw [loadChunk_cw, lane_memRead s.aw s.imem s.sp (chunkBytes n) i hi]

/-- Beside CW, a load writes the tags of the chunk and the span, and no other register (R106). -/
theorem loadChunk_frame (n : ChunkSize) (s : State) :
    loadChunk n s = { s with
      sp := (s.sp + chunkBytes n) % 2 ^ s.aw.bits, sl := s.sl - chunkBytes n,
      cw := (loadChunk n s).cw, cn := n, cv := true } := rfl

/-- Settles O14: a legal `rd.n` that finds n bytes is `loadChunk`, whose word is known lane by lane. -/
theorem rdLoadsLittleEndianChunk : Obligations.RdLoadsLittleEndianChunk := by
  intro n s hp hc hn
  exact ⟨loadChunk n s, exec_rd_of_legal hp hc hn, fun _ hi => lane_loadChunk_cw n s hi, loadChunk_frame n s⟩

end Sys2Proof.Proofs

namespace Sys2Proof.Proofs

open Sys2Proof.Machine Sys2Proof.Safety

/-! ### The decoder (R110 to R134) -/

theorem exec_dec_of_legal {n : ChunkSize} {s : State} (hp : s.ph = .run) (hc : s.cv = true) (hn : s.cn = n)
    (hv : s.lv = false) : exec (decOp n) s = .next (decodeChunk n s) := by
  rw [exec_dec, performDec_of_legal hp hc hn hv]

/-- On digits a decode adds nothing to ERR and puts the decimal value of the chunk into LOW (R113, R114, R134). -/
theorem decodeChunk_of_digits {n : ChunkSize} {s : State} (hd : (lanes (chunkBytes n) s.cw).all isDigit = true) :
    decodeChunk n s = { s with
      low := BitVec.ofNat 64 (digitsValue (lanes (chunkBytes n) s.cw)), ln := n, lv := true, cv := false } := by
  have herr : s.err ||| chunkErr n s.cw = s.err := by
    rw [(chunkErr_eq_zero_iff_lanes n s.cw).mpr hd]
    exact BitVec.or_zero
  have hval : chunkVal n s.cw = BitVec.ofNat 64 (digitsValue (lanes (chunkBytes n) s.cw)) := by
    rw [← chunkVal_lanes hd, BitVec.ofNat_toNat, BitVec.setWidth_eq]
  rw [decodeChunk, herr, hval]

/-- Settles O16: the kernel's value on digits, and the bound on the value of n digits. -/
theorem decOfDigitsIsDecimalValue : Obligations.DecOfDigitsIsDecimalValue := by
  intro n s hp hc hn hv hd
  refine ⟨by rw [exec_dec_of_legal hp hc hn hv, decodeChunk_of_digits hd], ?_⟩
  simpa using digitsValue_lt hd

/-! ### Where the error bits stand (R112, R113, R131) -/

theorem lane_or_and_ne_zero_iff {w : Nat} (u v : BitVec w) (i : Nat) (m : Byte) :
    lane (u ||| v) i &&& m ≠ 0 ↔ lane u i &&& m ≠ 0 ∨ lane v i &&& m ≠ 0 := by
  rw [lane_or, BitVec.and_or_distrib_right, Ne, or_eq_zero_iff, not_and_or]

/-- Widening a word keeps its lanes. -/
theorem lane_setWidth {k m : Nat} (h : k ≤ m) (v : BitVec k) (i : Nat) : lane (v.setWidth m) i = lane v i := by
  rw [← BitVec.toNat_inj, lane_toNat, lane_toNat, BitVec.toNat_setWidth_of_le h]

/-- The error word stands in bits 4 to 7 of each lane (R112). -/
theorem lane_kerr_and_mask {n : Nat} (w : BitVec (8 * n)) {i : Nat} (h : i < n) :
    lane (kerr n w) i &&& 0xF0 = lane (kerr n w) i := by
  obtain ⟨c, hc, -⟩ := lane_kerr w h
  rw [hc, BitVec.and_assoc, BitVec.and_self]

/-- The kernel over the m bytes of CW from byte k on flags a byte that is no digit, in bits 4 to 7 of that byte's own
lane (R112, R113). -/
theorem lane_kerr_field_ne_zero {cw : Wide} {k m i : Nat} (hk : k ≤ i) (hm : i - k < m)
    (hd : isDigit (lane cw i) = false) : lane (kerr m (cw.extractLsb' (8 * k) (8 * m))) (i - k) &&& 0xF0 ≠ 0 := by
  have hlane : lane (cw.extractLsb' (8 * k) (8 * m)) (i - k) = lane cw i := by
    rw [lane_extract cw hm, Nat.add_sub_cancel' hk]
  have hbad : ¬ (lane (cw.extractLsb' (8 * k) (8 * m)) (i - k) ^^^ 0x30).toNat ≤ 9 := by
    rw [hlane]
    exact fun h => Bool.false_ne_true (hd.symm.trans ((isDigit_lane cw i).mpr h))
  rw [lane_kerr_and_mask _ hm]
  exact lane_kerr_ne_zero _ hm hbad

/-- A byte that is no digit is flagged in the error bits of its chunk, the second half of a 16-byte chunk in the same
bytes as the first (R113, R131). -/
theorem lane_chunkErr_ne_zero {n : ChunkSize} {cw : Wide} {i : Nat} (hi : i < chunkBytes n)
    (hd : isDigit (lane cw i) = false) : lane (chunkErr n cw) (i % 8) &&& 0xF0 ≠ 0 := by
  have hlow {m : Nat} (hm : i < m) : lane (kerr m (cw.extractLsb' 0 (8 * m))) i &&& 0xF0 ≠ 0 :=
    lane_kerr_field_ne_zero (k := 0) (Nat.zero_le i) hm hd
  have hnarrow {m : Nat} (hm : i < m) (h8 : m ≤ 8) :
      lane ((kerr m (cw.extractLsb' 0 (8 * m))).setWidth 64) (i % 8) &&& 0xF0 ≠ 0 := by
    rw [Nat.mod_eq_of_lt (by omega), lane_setWidth (by omega)]
    exact hlow hm
  cases n with
  | b1 => exact hnarrow hi (by decide)
  | b2 => exact hnarrow hi (by decide)
  | b4 => exact hnarrow hi (by decide)
  | b8 =>
    have hi : i < 8 := hi
    rw [Nat.mod_eq_of_lt hi]
    exact hlow hi
  | b16 =>
    refine (lane_or_and_ne_zero_iff _ _ _ _).mpr ?_
    have hi : i < 16 := hi
    rcases Nat.lt_or_ge i 8 with h | h
    · rw [Nat.mod_eq_of_lt h]
      exact .inl (hlow h)
    · rw [show i % 8 = i - 8 by omega]
      exact .inr (lane_kerr_field_ne_zero (k := 8) (m := 8) h (by omega) hd)

/-- The error bits of a chunk are not all zero exactly when some byte is no digit (R113, R134). -/
theorem chunkErr_ne_zero_iff (n : ChunkSize) (cw : Wide) :
    chunkErr n cw ≠ 0 ↔ ∃ i < chunkBytes n, isDigit (lane cw i) = false := by
  rw [Ne, chunkErr_eq_zero_iff_lanes]
  simp [lanes]

/-- Settles O17: the decode ORs the chunk's error bits into ERR, which keeps every flag and adds none on digits. -/
theorem decFlagsEveryNonDigit : Obligations.DecFlagsEveryNonDigit := by
  intro n s hp hc hn hv
  refine ⟨decodeChunk n s, exec_dec_of_legal hp hc hn hv, fun i hi hd => ?_, fun hne => ?_⟩
  · rw [decodeChunk_err]
    exact (lane_or_and_ne_zero_iff _ _ _ _).mpr (.inr (lane_chunkErr_ne_zero hi hd))
  · refine (chunkErr_ne_zero_iff n s.cw).mp fun hzero => hne ?_
    rw [decodeChunk_err, hzero]
    exact BitVec.or_zero

/-- Settles O15: a legal `dec.n` is `decodeChunk`, which writes LOW, ERR and the tags and nothing else. -/
theorem decWritesValueAndError : Obligations.DecWritesValueAndError :=
  fun _ _ hp hc hn hv => exec_dec_of_legal hp hc hn hv

end Sys2Proof.Proofs

namespace Sys2Proof.Proofs

open Sys2Proof.Machine Sys2Proof.Safety

/-! ### The build of the 16-byte datapath (R132) -/

/-- Settles O47: no op reads the build or the host's further actions, and none writes those actions; so with the actions
left as they are, the build alone is exchanged. -/
theorem buildIsInvisibleToOps : Obligations.BuildIsInvisibleToOps := by
  intro i s t build e
  have hinput : t.input = s.input := (exec_hostKept e).input
  have hrun : exec i { s with ksel := build } = .next (withUnread build s.input t) :=
    exec_withUnread build s.input e
  rw [hrun, withUnread, ← hinput]

end Sys2Proof.Proofs

namespace Sys2Proof.Proofs

open Sys2Proof.Machine Sys2Proof.Safety

/-! ### The fold/combine multiplier (R140 to R149) -/

theorem exec_take_of_legal {s : State} (hp : s.ph = .run) (hv : s.lv = true) (ha : s.av = false) :
    exec .take s = .next (takeValue s) := by
  rw [exec_take, performTake_of_legal hp hv ha]

theorem exec_fold_of_legal {k : ChunkSize} {s : State} (hp : s.ph = .run) (hv : s.lv = true) (hk : s.ln = k)
    (ha : s.av = true) : exec (foldOp k) s = .next (foldValue k s) := by
  rw [exec_fold, performFold_of_legal hp hv hk ha]

/-- Settles O18: a legal `take` is `takeValue`, and its legality does not look at LN. -/
theorem takeLoadsFirstValue : Obligations.TakeLoadsFirstValue :=
  fun _ hp hv ha => exec_take_of_legal hp hv ha

/-- Settles O19: a legal `fold.k` is `foldValue`, which folds modulo 2^PW and latches the old ACC and k. -/
theorem foldAppendsDigits : Obligations.FoldAppendsDigits :=
  fun _ _ hp hv hk ha => exec_fold_of_legal hp hv hk ha

/-! ### The ops of a plan, one by one (R89, R194) -/

theorem runOps_cons_of_next {i : Instr} {s t : State} (e : exec i s = .next t) (ops : List Instr) :
    runOps (i :: ops) s = runOps ops t := by
  rw [runOps, e]

/-- `ldc.n` before the first chunk of a call: its three ops are all legal. -/
theorem runOps_load {n : ChunkSize} {s : State} (h : BetweenChunks false s) (hn : chunkBytes n ≤ s.sl)
    (ops : List Instr) : runOps (rdOp n :: decOp n :: .take :: ops) s = runOps ops (loadEffect n s) := by
  obtain ⟨hp, hc, hv, ha⟩ := h
  have hdec : exec (decOp n) (loadChunk n s) = .next (decodeChunk n (loadChunk n s)) :=
    exec_dec_of_legal hp rfl rfl hv
  have htake : exec .take (decodeChunk n (loadChunk n s)) = .next (loadEffect n s) := exec_take_of_legal hp rfl ha
  rw [runOps_cons_of_next (exec_rd_of_legal hp hc hn), runOps_cons_of_next hdec, runOps_cons_of_next htake]

/-- `fld.n` between two chunks: its three ops are all legal. -/
theorem runOps_further {n : ChunkSize} {s : State} (h : BetweenChunks true s) (hn : chunkBytes n ≤ s.sl)
    (ops : List Instr) : runOps (fldOps n ++ ops) s = runOps ops (furtherEffect n s) := by
  obtain ⟨hp, hc, hv, ha⟩ := h
  have hdec : exec (decOp n) (loadChunk n s) = .next (decodeChunk n (loadChunk n s)) :=
    exec_dec_of_legal hp rfl rfl hv
  have hfold : exec (foldOp n) (decodeChunk n (loadChunk n s)) = .next (furtherEffect n s) :=
    exec_fold_of_legal hp rfl rfl ha
  rw [fldOps, List.cons_append, List.cons_append, List.cons_append, List.nil_append,
    runOps_cons_of_next (exec_rd_of_legal hp hc hn), runOps_cons_of_next hdec, runOps_cons_of_next hfold]

theorem runOps_further_chunks {p : List ChunkSize} {s : State} (h : BetweenChunks true s) (hp : planBytes p ≤ s.sl)
    (ops : List Instr) :
    runOps (p.flatMap fldOps ++ ops) s = runOps ops (p.foldl (fun s n => furtherEffect n s) s) := by
  induction p generalizing s with
  | nil => rfl
  | cons n p ih =>
    rw [planBytes_cons] at hp
    rw [List.flatMap_cons, List.append_assoc, runOps_further h (by omega), List.foldl_cons]
    exact ih (furtherEffect_between h n) (Nat.le_sub_of_add_le (by omega))

/-- A plan that the span holds runs without a fault, to the effect that `parse.m` gives it. -/
theorem runOps_planOps {p : List ChunkSize} {s : State} (h : BetweenChunks false s) (hp : planBytes p ≤ s.sl)
    (ops : List Instr) : runOps (planOps p ++ ops) s = runOps ops (planEffect p s) := by
  cases p with
  | nil => rfl
  | cons n p =>
    rw [planBytes_cons] at hp
    rw [planOps, List.append_assoc]
    exact (runOps_load h (by omega) _).trans
      (runOps_further_chunks (loadEffect_between h n) (Nat.le_sub_of_add_le (by omega)) ops)

/-! ### The digits of a plan in ACC (R147) -/

theorem readyToPlan_between {s : State} (h : ReadyToPlan s) : BetweenChunks false s :=
  ⟨h.phase, h.noChunk, h.noValue, h.noTake⟩

/-- With no chunk and no value in flight, ACC stands for all the bytes that have left the span. -/
theorem Progress.acc_eq_take {s u : State} {acc value chunk : List Byte} (p : Progress s u acc value chunk)
    (hc : u.cv = false) (hv : u.lv = false) : acc = (spanText s).take (s.sl - u.sl) := by
  have hchunk : chunk = [] := by simpa [hc] using p.chunkIs
  have hvalue : value = [] := List.eq_nil_of_length_eq_zero (by simpa [hv] using p.valueLength)
  have htext : spanText s = acc ++ spanText u := by rw [p.text, hchunk, hvalue, List.nil_append, List.nil_append]
  have hlen : s.sl = acc.length + u.sl := by simpa [spanText] using congrArg List.length htext
  rw [htext, hlen, Nat.add_sub_cancel, List.take_left]

/-- The effect of a plan is one of the ways from `nrm` on, so the digits are on track after it. -/
theorem planEffect_progress {p : List ChunkSize} {s : State} (h : ReadyToPlan s) (hne : p ≠ [])
    (hp : planBytes p ≤ s.sl) : ∃ acc value chunk, Progress s (planEffect p s) acc value chunk := by
  have hsteps : CallSteps s (planEffect p s) := by
    rw [← performPlan_eq (readyToPlan_between h) hp 0]
    exact performPlan_callSteps 0 p s
  exact (callSteps_onTrack h hsteps).progress (planEffect_between (readyToPlan_between h) hne).phase

/-- Settles O31: after the plan nothing is in flight, so the digits on track are those in ACC, and they are the bytes that
the plan took off the span. -/
theorem accIsValueOfDigitsModPW : Obligations.AccIsValueOfDigitsModPW := by
  intro p s hs hne hp hd
  obtain ⟨-, hc, hv, ha⟩ := planEffect_between (readyToPlan_between hs) hne
  obtain ⟨acc, value, chunk, hprogress⟩ := planEffect_progress hs hne hp
  have hacc : acc = (spanText s).take (planBytes p) := by
    rw [hprogress.acc_eq_take hc hv, planEffect_sl, Nat.sub_sub_self hp]
  have hrun : runOps (planOps p) s = .next (planEffect p s) := by
    rw [← List.append_nil (planOps p)]
    exact runOps_planOps (readyToPlan_between hs) hp []
  refine ⟨planEffect p s, hrun, ?_⟩
  rw [← hacc] at hd ⊢
  exact hprogress.accIs ha hd

end Sys2Proof.Proofs

namespace Sys2Proof.Proofs

open Sys2Proof.Machine Sys2Proof.Safety

/-! ### Call start (R150) -/

/-- Settles O11: where a call may start `begin.m` is `startCall`, which writes those registers and no other. -/
theorem beginStartsCall : Obligations.BeginStartsCall := by
  intro m s hs
  rw [exec_begin, performBegin_of_canStart hs, startCall]

/-! ### The sign (R151, R191) -/

/-- What the grammar takes off the front of a text, in the machine's terms: an allowed '-', an allowed '+', or
nothing. -/
theorem splitSign_cons (g : Grammar) (b : Byte) (rest : List Byte) :
    splitSign g (b :: rest)
      = if b = 0x2D ∧ allowsMinus g = true then (true, rest)
        else if b = 0x2B ∧ allowsPlus g = true then (false, rest)
        else (false, b :: rest) := by
  cases g <;> simp [splitSign, allowsMinus, allowsPlus]

@[simp] theorem splitSign_nil (g : Grammar) : splitSign g [] = (false, []) := by cases g <;> rfl

/-- Only a signed mode takes a '-' (R26, R151). -/
theorem grammar_of_splitSign_neg {g : Grammar} {t : List Byte} (h : (splitSign g t).1 = true) : g = .signed := by
  cases t with
  | nil => simp at h
  | cons b rest =>
    rw [splitSign_cons] at h
    split_ifs at h with hminus
    cases g
    case signed => rfl
    all_goals exact absurd hminus.2 (by decide)

/-- The first byte of a span that is not empty, and the rest of it. -/
theorem spanText_cons {s : State} (h : s.sl ≠ 0) :
    spanText s = imemByte s.aw s.imem s.sp :: spanText (advance 1 s) :=
  spanText_advance (n := 1) (Nat.one_le_iff_ne_zero.mpr h)

/-- `sgn` splits the span as the grammar splits its text, and a '-' sets NEG (R151, R191). -/
theorem consumeSign_splitSign (s : State) :
    spanText (consumeSign s) = (splitSign s.mode.grammar (spanText s)).2
      ∧ (consumeSign s).neg = ((splitSign s.mode.grammar (spanText s)).1 || s.neg) := by
  rcases consumeSign_cases s with ⟨e, hnone⟩ | ⟨h0, hb, hallow, e⟩ | ⟨h0, hb, hallow, e⟩ <;> rw [e]
  · have hsplit : splitSign s.mode.grammar (spanText s) = (false, spanText s) := by
      rcases hnone with h0 | ⟨h0, hminus, hplus⟩
      · rw [spanText, h0]
        exact splitSign_nil _
      · rw [spanText_cons h0, splitSign_cons, if_neg hminus, if_neg hplus]
    rw [hsplit]
    exact ⟨rfl, rfl⟩
  · rw [spanText_cons h0, splitSign_cons, if_pos ⟨hb, hallow⟩]
    exact ⟨rfl, rfl⟩
  · have hminus : ¬ (imemByte s.aw s.imem s.sp = 0x2D ∧ allowsMinus s.mode.grammar = true) := by simp [hb]
    rw [spanText_cons h0, splitSign_cons, if_neg hminus, if_pos ⟨hb, hallow⟩]
    exact ⟨rfl, rfl⟩

/-- Settles O12: a legal `sgn` is `consumeSign`, which splits the span as the grammar does and keeps its end. -/
theorem sgnTakesOneAllowedSign : Obligations.SgnTakesOneAllowedSign := by
  intro s hp
  obtain ⟨htext, hneg⟩ := consumeSign_splitSign s
  exact ⟨consumeSign s, by rw [exec_sgn, performSgn_of_legal hp], htext, hneg, (consumeSign_spanKept s).spanEnd,
    consumeSign_frame s⟩

/-! ### Leading zeros (R152, R153) -/

theorem modeDmax_pos (m : Mode) : 0 < modeDmax m := by
  obtain ⟨w, g⟩ := m
  cases w <;> cases g <;> decide

/-- The front of a text is the text of the front. -/
theorem textAt_take (aw : AddrWidth) (m : List Host.Cell) (a : Nat) {k n : Nat} (h : k ≤ n) :
    (textAt aw m a n).take k = textAt aw m a k := by
  obtain ⟨r, rfl⟩ := Nat.exists_eq_add_of_le h
  rw [textAt_add, List.take_left' (textAt_length aw m a k)]

/-- The loop of `nrm` counts the '0' bytes that lead the bytes it may strip (R153). -/
theorem leadingZeros_eq_takeWhile (aw : AddrWidth) (m : List Host.Cell) (excess a : Nat) :
    leadingZeros aw m excess a = ((textAt aw m a excess).takeWhile (fun b => b == 0x30)).length := by
  induction excess generalizing a with
  | zero => rfl
  | succ e ih =>
    rw [leadingZeros, textAt, List.takeWhile_cons]
    by_cases hb : imemByte aw m a = 0x30
    · rw [if_pos hb, if_pos (beq_iff_eq.mpr hb), List.length_cons, ih]
    · rw [if_neg hb, if_neg (mt beq_iff_eq.mp hb), List.length_nil]

/-- The bytes that the loop of `nrm` strips are '0's. -/
theorem textAt_leadingZeros (aw : AddrWidth) (m : List Host.Cell) (excess a : Nat) :
    textAt aw m a (leadingZeros aw m excess a) = List.replicate (leadingZeros aw m excess a) 0x30 := by
  induction excess generalizing a with
  | zero => rfl
  | succ e ih =>
    rw [leadingZeros]
    split
    · next hb => rw [textAt, hb, ih, List.replicate_succ]
    · rfl

/-- Where the loop of `nrm` stops early, it stops at a byte that is not '0'. -/
theorem imemByte_after_leadingZeros {aw : AddrWidth} {m : List Host.Cell} {excess a : Nat}
    (h : leadingZeros aw m excess a < excess) : imemByte aw m (a + leadingZeros aw m excess a) ≠ 0x30 := by
  induction excess generalizing a with
  | zero => exact absurd h (Nat.not_lt_zero _)
  | succ e ih =>
    rw [leadingZeros] at h ⊢
    split at h
    · next hb =>
      rw [if_pos hb, Nat.add_comm _ 1, ← Nat.add_assoc]
      exact ih (Nat.lt_of_succ_lt_succ h)
    · next hb => rwa [if_neg hb]

/-- Settles O13: a legal `nrm` is `normalise`, whose loop counts the zeros that lead the bytes above DMAX; as it strips
none of the last DMAX bytes, the span is empty after it only if it was before. -/
theorem nrmStripsLeadingZeros : Obligations.NrmStripsLeadingZeros := by
  intro s j hp hj
  have hzeros : leadingZeros s.aw s.imem (s.sl - modeDmax s.mode) s.sp = j := by
    rw [leadingZeros_eq_takeWhile, hj, spanText, textAt_take _ _ _ (Nat.sub_le _ _)]
  have hle : j ≤ s.sl - modeDmax s.mode := hzeros ▸ leadingZeros_le _ _ _ _
  have hempty : s.sl - j = 0 ↔ s.sl = 0 := by
    have := modeDmax_pos s.mode
    omega
  rw [exec_nrm, performNrm_of_legal hp]
  simp only [normalise, hzeros, advance, hempty]

end Sys2Proof.Proofs

namespace Sys2Proof.Proofs

open Sys2Proof.Machine Sys2Proof.Safety

/-! ### Leading zeros and the value of a text (R114, R154) -/

theorem replicate_zero_all_isDigit (k : Nat) : (List.replicate k (0x30 : Byte)).all isDigit = true := by
  rw [List.all_eq_true]
  intro b hb
  rw [List.eq_of_mem_replicate hb]
  decide

theorem digitsValue_replicate_zero (k : Nat) : digitsValue (List.replicate k 0x30) = 0 := by
  induction k with
  | zero => rfl
  | succ k ih => rw [List.replicate_succ', digitsValue_snoc, ih]; rfl

/-- Zeros in front of a text do not change whether it is all digits. -/
theorem all_isDigit_zeros_append (k : Nat) (t : List Byte) :
    (List.replicate k 0x30 ++ t).all isDigit = t.all isDigit := by
  rw [List.all_append, replicate_zero_all_isDigit, Bool.true_and]

/-- Zeros in front of a text do not change its value (R114). -/
theorem digitsValue_zeros_append (k : Nat) (t : List Byte) :
    digitsValue (List.replicate k 0x30 ++ t) = digitsValue t := by
  rw [digitsValue_append, digitsValue_replicate_zero, Nat.zero_mul, Nat.zero_add]

/-- A text of digits that does not begin with a zero is no smaller than the power of ten of its length (R152). -/
theorem pow_le_digitsValue {b : Byte} {rest : List Byte} (hd : (b :: rest).all isDigit = true) (hb : b ≠ 0x30) :
    10 ^ rest.length ≤ digitsValue (b :: rest) := by
  have hdigit : 0x30 ≤ b.toNat := by
    simp only [List.all_cons, Bool.and_eq_true, isDigit, decide_eq_true_eq] at hd
    exact hd.1.1
  have hne : b.toNat ≠ 0x30 := fun h => hb (BitVec.eq_of_toNat_eq h)
  have hvalue : digitsValue (b :: rest) = (b.toNat - 0x30) * 10 ^ rest.length + digitsValue rest := by
    rw [← List.singleton_append, digitsValue_append]
    simp [digitsValue]
  rw [hvalue]
  exact Nat.le_add_right_of_le (Nat.le_mul_of_pos_left _ (by omega))

/-! ### The limits of a mode (R152, R171) -/

/-- No magnitude that a mode accepts has more than DMAX digits (R152). -/
theorem modeLimit_lt_pow_modeDmax (m : Mode) (neg : Bool) : modeLimit m neg < 10 ^ modeDmax m := by
  obtain ⟨w, g⟩ := m
  cases w <;> cases g <;> cases neg <;> decide

/-- A magnitude that a mode accepts has W bits (R171). -/
theorem modeLimit_lt_two_pow (m : Mode) (neg : Bool) : modeLimit m neg < 2 ^ modeW m := by
  obtain ⟨w, g⟩ := m
  cases w <;> cases g <;> cases neg <;> decide

theorem modeW_le_modePW (m : Mode) : modeW m ≤ modePW m := by
  obtain ⟨w, g⟩ := m
  cases w <;> simp [modeW, modePW, widthBits]

/-! ### The result of a call (R176, R177) -/

/-- The encoding of a magnitude under a sign, as a number: its W-bit two's complement when NEG is set (R176, R177). -/
theorem encodeResult_toNat (m : Mode) (neg : Bool) (acc : Wide) :
    (encodeResult (modeW m) neg acc).toNat
      = if neg then (2 ^ modeW m - acc.toNat % 2 ^ modeW m) % 2 ^ modeW m else acc.toNat % 2 ^ modeW m := by
  rw [encodeResult, BitVec.toNat_setWidth_of_le (modeW_le m)]
  cases neg with
  | false => simp
  | true =>
    have hone : (BitVec.ofBool true).setWidth (modeW m) = 1#(modeW m) :=
      BitVec.eq_of_toNat_eq (by rw [BitVec.toNat_setWidth]; rfl)
    simp only [if_true, hone, BitVec.xor_allOnes, ← BitVec.neg_eq_not_add, BitVec.toNat_neg, BitVec.toNat_setWidth]

/-- At CHECKED with the whole text in ACC, `fin` gives the outcome of the text that the verdict in ERR speaks of. -/
theorem finish_digitOutcome {m : Mode} {ds : List Byte} {u : State} (hmode : u.mode = m) (hp : u.ph = .checked)
    (hverdict : u.err = 0 ↔ ds.all isDigit = true ∧ digitsValue ds ≤ modeLimit m u.neg)
    (hacc : ds.all isDigit = true → u.acc.toNat = digitsValue ds % 2 ^ modePW m) :
    digitOutcome m u.neg ds (finish u) := by
  unfold digitOutcome
  rcases finish_cases u with ⟨-, herr, e⟩ | ⟨hbad, e⟩
  · have hgood := hverdict.mp herr
    have hW : digitsValue ds < 2 ^ modeW m := hgood.2.trans_lt (modeLimit_lt_two_pow m u.neg)
    have hPW : digitsValue ds < 2 ^ modePW m := hW.trans_le (Nat.pow_le_pow_right (by decide) (modeW_le_modePW m))
    rw [if_pos hgood, e]
    refine ⟨rfl, ?_⟩
    rw [encodeResult_toNat, hmode, hacc hgood.1, Nat.mod_eq_of_lt hPW, Nat.mod_eq_of_lt hW]
  · rw [if_neg (mt hverdict.mpr fun h => hbad ⟨hp, h⟩), e]
    exact ⟨rfl, rfl⟩

/-- From `nrm` on, a plan that covers the span, the check and `fin` give the exact outcome of the span (R174, R178). -/
theorem planEffect_digitOutcome {p : List ChunkSize} {s : State} (h : ReadyToPlan s) (hne : p ≠ [])
    (hp : planBytes p = s.sl) :
    digitOutcome s.mode s.neg (spanText s) (finish (checkBound (planEffect p s))) := by
  obtain ⟨-, hc, hv, ha⟩ := planEffect_between (readyToPlan_between h) hne
  obtain ⟨acc, value, chunk, hprogress⟩ := planEffect_progress h hne (Nat.le_of_eq hp)
  have h0 : (planEffect p s).sl = 0 := by rw [planEffect_sl, hp, Nat.sub_self]
  have hverdict := hprogress.check hc hv ha h0
  have hacc := hprogress.accIs ha
  rw [← (hprogress.all_taken hc hv h0).2] at hacc
  rw [← hprogress.neg] at hverdict ⊢
  exact finish_digitOutcome (u := checkBound (planEffect p s)) hprogress.mode rfl hverdict hacc

/-! ### Length normalisation in a call (R153) -/

/-- `nrm` takes '0's off the front of the span and nothing else. -/
theorem spanText_normalise (s : State) : ∃ k, spanText s = List.replicate k 0x30 ++ spanText (normalise s) := by
  refine ⟨leadingZeros s.aw s.imem (s.sl - modeDmax s.mode) s.sp, ?_⟩
  have hle := leadingZeros_le s.aw s.imem (s.sl - modeDmax s.mode) s.sp
  rw [← textAt_leadingZeros]
  exact spanText_advance (by omega)

/-- A length that `nrm` fails leaves a span that is empty, or that is longer than DMAX and does not begin with '0'. -/
theorem spanText_normalise_of_failed {s : State} (hp : (normalise s).ph = .failed) (hne : spanText s ≠ []) :
    ∃ b rest, spanText (normalise s) = b :: rest ∧ b ≠ 0x30 ∧ modeDmax s.mode ≤ rest.length := by
  have hpos : s.sl ≠ 0 := fun h0 => hne (by rw [spanText, h0]; rfl)
  obtain ⟨j, hj, hle, ⟨e, -, -⟩ | ⟨e, hlength⟩⟩ := normalise_cases s
  · rw [e] at hp
    cases hp
  · have hlong : modeDmax s.mode < s.sl - j := by
      rw [advance_sl] at hlength
      have := modeDmax_pos s.mode
      omega
    have hstop : imemByte s.aw s.imem (s.sp + j) ≠ 0x30 := by
      rw [hj]
      exact imemByte_after_leadingZeros (by omega)
    have hfront : spanText (advance j s) = imemByte s.aw s.imem (s.sp + j) :: spanText (advance 1 (advance j s)) := by
      rw [spanText_cons (by rw [advance_sl]; omega), advance_aw, advance_imem, advance_sp,
        imemByte_congr_mod s.imem (Nat.mod_mod _ _)]
    refine ⟨_, _, by rw [e]; exact hfront, hstop, ?_⟩
    rw [spanText, textAt_length, advance_sl, advance_sl]
    omega

/-- A length that `nrm` accepts is at most DMAX (R153). -/
theorem normalise_short {s : State} (hp : (normalise s).ph = .run) : (normalise s).sl ≤ modeDmax s.mode := by
  obtain ⟨j, -, -, ⟨e, -, hshort⟩ | ⟨e, -⟩⟩ := normalise_cases s <;> rw [e] at hp ⊢
  · exact hshort
  · cases hp

theorem plan_ne_nil {n : Nat} (h : 0 < n) : plan n ≠ [] := by
  intro h0
  have hbytes := planBytes_plan n
  rw [h0] at hbytes
  exact absurd hbytes (Nat.ne_of_lt h)

/-- After a failed length `fin` reports the invalid outcome (R178). -/
theorem finish_of_failed {s : State} (hp : s.ph = .failed) :
    finish s = { s with res := 0, valid := false, ph := .done } := by
  rcases finish_cases s with ⟨hp', -, -⟩ | ⟨-, e⟩
  · exact absurd (hp.symm.trans hp') (by decide)
  · exact e

/-! ### The outcome of a call (R191, R194) -/

/-- The outcome of a digit string does not depend on zeros in front of it. -/
theorem digitOutcome_zeros_append (m : Mode) (neg : Bool) (k : Nat) (ds : List Byte) (t : State) :
    digitOutcome m neg (List.replicate k 0x30 ++ ds) t = digitOutcome m neg ds t := by
  rw [digitOutcome, digitOutcome, all_isDigit_zeros_append, digitsValue_zeros_append]

/-- A text whose length `nrm` fails is no digit string within the limit of the mode (R152, R153). -/
theorem not_inRange_of_failed {s : State} (hp : (normalise s).ph = .failed) (hne : spanText s ≠ []) (neg : Bool) :
    ¬ ((spanText s).all isDigit = true ∧ digitsValue (spanText s) ≤ modeLimit s.mode neg) := by
  obtain ⟨k, hzeros⟩ := spanText_normalise s
  obtain ⟨b, rest, hfront, hb, hlong⟩ := spanText_normalise_of_failed hp hne
  rw [hzeros, all_isDigit_zeros_append, digitsValue_zeros_append, hfront]
  rintro ⟨hd, hle⟩
  refine absurd hle (Nat.not_le.mpr ?_)
  calc modeLimit s.mode neg < 10 ^ modeDmax s.mode := modeLimit_lt_pow_modeDmax s.mode neg
    _ ≤ 10 ^ rest.length := Nat.pow_le_pow_right (by decide) hlong
    _ ≤ digitsValue (b :: rest) := pow_le_digitsValue hd hb

/-- After `sgn`, a call that has read nothing yet and whose span is not empty gives the outcome of that span. -/
theorem finish_normalise_digitOutcome {s : State} (hc : s.cv = false) (hv : s.lv = false) (ha : s.av = false)
    (herr : s.err = 0) (hneg : s.neg = true → s.mode.grammar = .signed) (hne : spanText s ≠ []) :
    digitOutcome s.mode s.neg (spanText s) (finish (digitsEffect (normalise s))) := by
  rcases normalise_ph s with ⟨hp, hpos⟩ | hp
  · have hready : ReadyToPlan (normalise s) := ⟨hp, hc, hv, ha, herr, normalise_short hp, hneg⟩
    obtain ⟨k, hzeros⟩ := spanText_normalise s
    rw [hzeros, digitOutcome_zeros_append, digitsEffect, if_pos hp]
    exact planEffect_digitOutcome hready (plan_ne_nil hpos) (planBytes_plan _)
  · have hnot : (normalise s).ph ≠ .run := by simp [hp]
    rw [digitOutcome, if_neg (not_inRange_of_failed hp hne s.neg), digitsEffect, if_neg hnot, finish_of_failed hp]
    exact ⟨rfl, rfl⟩

/-- A call whose text the grammar splits into a sign and a string that is not empty gives the outcome of that string
under that sign (R191, R194). -/
theorem callEffect_digitOutcome {m : Mode} {s : State} {neg : Bool} {ds : List Byte}
    (hsplit : splitSign m.grammar (inputText s) = (neg, ds)) (hne : ds ≠ []) :
    digitOutcome m neg ds (callEffect m s) := by
  obtain ⟨htext, hneg⟩ := consumeSign_splitSign (startCall m s)
  have hinput : splitSign (startCall m s).mode.grammar (spanText (startCall m s)) = (neg, ds) := hsplit
  have hmode : (consumeSign (startCall m s)).mode = m := by rw [consumeSign_frame]; rfl
  rw [hinput] at htext hneg
  rw [startCall_neg, Bool.or_false] at hneg
  have hsigned : neg = true → m.grammar = .signed :=
    fun hn => grammar_of_splitSign_neg (t := inputText s) (by rw [hsplit, hn])
  have hcall := finish_normalise_digitOutcome (s := consumeSign (startCall m s)) (by simp) (by simp) (by simp) (by simp)
    (by rw [hneg, hmode]; exact hsigned) (by rw [htext]; exact hne)
  rwa [hmode, hneg, htext] at hcall

/-! ### Leading-zero invariance (R154) -/

/-- Two strings with one outcome: both digits or both not, and of one value if digits. -/
theorem digitOutcome_unique {m : Mode} {neg : Bool} {ds ds' : List Byte} {t t' : State} (h : digitOutcome m neg ds t)
    (h' : digitOutcome m neg ds' t') (hall : ds'.all isDigit = ds.all isDigit)
    (hvalue : ds.all isDigit = true → digitsValue ds' = digitsValue ds) : t'.valid = t.valid ∧ t'.res = t.res := by
  have hgood : (ds'.all isDigit = true ∧ digitsValue ds' ≤ modeLimit m neg)
      ↔ (ds.all isDigit = true ∧ digitsValue ds ≤ modeLimit m neg) := by
    rw [hall]
    exact and_congr_right fun hd => by rw [hvalue hd]
  unfold digitOutcome at h h'
  rw [if_congr hgood rfl rfl] at h'
  split at h
  · next hin =>
    rw [if_pos hin, hvalue hin.1] at h'
    exact ⟨h'.1.trans h.1.symm, BitVec.eq_of_toNat_eq (h'.2.trans h.2.symm)⟩
  · next hout =>
    rw [if_neg hout] at h'
    exact ⟨h'.1.trans h.1.symm, h'.2.trans h.2.symm⟩

/-- Of a sign and digits the grammar takes the sign, or leaves it in front of the digits as a byte that is none (R151):
in either case what it does to the sign is the same for all strings of digits. -/
theorem splitSign_sign_append (g : Grammar) {sign : List Byte} (h : sign = [] ∨ sign = [0x2B] ∨ sign = [0x2D]) :
    ∃ neg front, (front = [] ∨ front.all isDigit = false)
      ∧ ∀ ds : List Byte, ds.all isDigit = true → splitSign g (sign ++ ds) = (neg, front ++ ds) := by
  rcases h with rfl | rfl | rfl
  · refine ⟨false, [], .inl rfl, fun ds hd => ?_⟩
    cases ds with
    | nil => simp
    | cons b rest =>
      have hb : isDigit b = true := by
        rw [List.all_cons, Bool.and_eq_true] at hd
        exact hd.1
      have hminus : b ≠ 0x2D := by rintro rfl; exact absurd hb (by decide)
      have hplus : b ≠ 0x2B := by rintro rfl; exact absurd hb (by decide)
      rw [List.nil_append, splitSign_cons, if_neg (fun h => hminus h.1), if_neg (fun h => hplus h.1)]
  · cases hallow : allowsPlus g
    · exact ⟨false, [0x2B], .inr (by decide), fun ds _ => by simp [splitSign_cons, hallow]⟩
    · exact ⟨false, [], .inl rfl, fun ds _ => by simp [splitSign_cons, hallow]⟩
  · cases hallow : allowsMinus g
    · exact ⟨false, [0x2D], .inr (by decide), fun ds _ => by simp [splitSign_cons, hallow]⟩
    · exact ⟨true, [], .inl rfl, fun ds _ => by simp [splitSign_cons, hallow]⟩

/-- Settles O26: the grammar does the same to the sign of both texts; what it leaves has one outcome, by the value of the
digits when the sign was taken, and because the sign is no digit when it was not. -/
theorem leadingZerosDoNotMatter : Obligations.LeadingZerosDoNotMatter := by
  intro m s s' sign ds k hs hs' hsign hne hd htext htext'
  obtain ⟨neg, front, hfront, hsplit⟩ := splitSign_sign_append m.grammar hsign
  have hzeros : (List.replicate k 0x30 ++ ds).all isDigit = true := by rw [all_isDigit_zeros_append, hd]
  have hcall : digitOutcome m neg (front ++ ds) (callEffect m s) :=
    callEffect_digitOutcome (by rw [htext, hsplit ds hd]) (by simp [hne])
  have hcall' : digitOutcome m neg (front ++ (List.replicate k 0x30 ++ ds)) (callEffect m s') :=
    callEffect_digitOutcome (by rw [htext', List.append_assoc, hsplit _ hzeros]) (by simp [hne])
  refine ⟨callEffect m s, callEffect m s', by rw [exec_parse, performParse_eq hs],
    by rw [exec_parse, performParse_eq hs'], digitOutcome_unique hcall hcall' (by rw [List.all_append, hzeros, List.all_append, hd]) fun hall => ?_⟩
  rcases hfront with rfl | hfront
  · exact digitsValue_zeros_append k ds
  · rw [List.all_append, hfront] at hall
    cases hall

end Sys2Proof.Proofs

namespace Sys2Proof.Proofs

open Sys2Proof.Machine Sys2Proof.Safety

/-! ### The overflow condition (R172, R173) -/

theorem overflows_iff (s : State) : overflows s = true ↔ modeLimit s.mode s.neg < magnitude s := decide_eq_true_iff

/-- The bit that `chk` ORs into ERR (R172). -/
theorem overflowBit_eq (s : State) :
    (BitVec.ofBool (overflows s)).setWidth 64 = (if modeLimit s.mode s.neg < magnitude s then 1 else 0 : Half) := by
  by_cases h : modeLimit s.mode s.neg < magnitude s
  · rw [(overflows_iff s).mpr h, if_pos h]; rfl
  · rw [Bool.eq_false_of_not_eq_true (mt (overflows_iff s).mp h), if_neg h]; rfl

/-- A number is compared with F * d + r, r a remainder modulo d, by its quotient first and its remainder second (R173). -/
theorem lt_mul_add_iff_div_mod {L F d r : Nat} (hr : r < d) :
    L < F * d + r ↔ L / d < F ∨ (F = L / d ∧ L % d < r) := by
  have hL : L / d * d + L % d = L := Nat.div_add_mod' L d
  have hm : L % d < d := Nat.mod_lt L (Nat.zero_lt_of_lt hr)
  rcases Nat.lt_trichotomy (L / d) F with hlt | heq | hgt
  · have hstep : (L / d + 1) * d ≤ F * d := Nat.mul_le_mul_right d hlt
    rw [Nat.succ_mul] at hstep
    exact iff_of_true (by omega) (.inl hlt)
  · rw [← heq]
    omega
  · have hstep : (F + 1) * d ≤ L / d * d := Nat.mul_le_mul_right d hgt
    rw [Nat.succ_mul] at hstep
    exact iff_of_false (by omega) (by omega)

/-- Settles O35: with LOW a remainder modulo 10^FK the comparison is by quotient and remainder; with FK = 0 and FHI = 0 the
magnitude is LOW. -/
theorem detectorWithoutWideArithmetic : Obligations.DetectorWithoutWideArithmetic := by
  intro s
  refine ⟨fun _ hlow => ?_, fun hk hhi => ?_⟩
  · rw [overflows_iff, magnitude, lt_mul_add_iff_div_mod hlow]
  · have hmag : magnitude s = s.low.toNat := by simp [magnitude, hk, hhi]
    rw [overflows_iff, hmag]

/-! ### The check and the result (R172, R176 to R178) -/

theorem exec_chk_of_legal {s : State} (hp : s.ph = .run) (hc : s.cv = false) (hv : s.lv = false) (ha : s.av = true)
    (h0 : s.sl = 0) : exec .chk s = .next (checkBound s) := by
  rw [exec_chk, performChk, sequenced_of_legal (by simp [hp]) ((chkLegal_iff s).mpr ⟨hp, hc, hv, ha, h0⟩)]

theorem exec_fin_of_legal {s : State} (hp : s.ph = .checked ∨ s.ph = .failed) : exec .fin s = .next (finish s) := by
  rw [exec_fin, performFin_of_legal hp]

/-- Settles O20: a legal `chk` is `checkBound`, whose bit says that the magnitude is above the limit. -/
theorem chkComparesUnboundedMagnitude : Obligations.ChkComparesUnboundedMagnitude := by
  intro s hp hc hv ha h0
  rw [exec_chk_of_legal hp hc hv ha h0, checkBound, overflowBit_eq]
  rfl

/-- Settles O21: a legal `fin` is `finish`, and after a clean check it stores the encoded magnitude. -/
theorem finEncodesTwosComplement : Obligations.FinEncodesTwosComplement := by
  intro s hp herr
  refine ⟨finish s, exec_fin_of_legal (.inl hp), ?_⟩
  rcases finish_cases s with ⟨-, -, e⟩ | ⟨hbad, -⟩
  · rw [e]
    exact ⟨encodeResult_toNat s.mode s.neg s.acc, rfl⟩
  · exact absurd ⟨hp, herr⟩ hbad

/-- Settles O22: neither an error at CHECKED nor a failed length is the one case in which `fin` stores a result. -/
theorem finReportsInvalid : Obligations.FinReportsInvalid := by
  intro s h
  rw [exec_fin_of_legal (h.imp_left And.left)]
  rcases finish_cases s with ⟨hp, herr, -⟩ | ⟨-, e⟩
  · rcases h with ⟨-, hne⟩ | hfailed
    · exact absurd herr hne
    · exact absurd (hp.symm.trans hfailed) (by decide)
  · rw [e]

/-! ### The exactness of the detector (R174, R175, R177) -/

/-- After a fold the detector looks at the operands of that fold, which the modulus of ACC has not touched (R148, R175). -/
theorem overflows_foldValue (k : ChunkSize) (s : State) :
    overflows (foldValue k s)
      = decide (modeLimit s.mode s.neg < s.acc.toNat * 10 ^ chunkBytes k + s.low.toNat) := by
  rw [overflows, magnitude_foldValue, foldValue_mode, foldValue_neg]

/-- Settles O36: both folds give 10^19 modulo 2^64, but their operands are those of 10^19 and of 10^19 + 2^64. -/
theorem detectorSeesThroughWrap : Obligations.DetectorSeesThroughWrap := by
  intro s hp hv hk ha hmode _
  have hfold (acc : Wide) (low : Half) :
      exec .fold4 { s with acc := acc, low := low } = .next (foldValue .b4 { s with acc := acc, low := low }) :=
    exec_fold_of_legal (k := .b4) (s := { s with acc := acc, low := low }) hp hv hk ha
  refine ⟨_, _, hfold 1000000000000000 0, hfold 2844674407370955 1616, ?_, ?_, ?_, ?_⟩
  · simp [foldedAcc, hmode, modePW, chunkBytes]
  · simp [foldedAcc, hmode, modePW, chunkBytes]
  · simp [overflows_foldValue, hmode, modeLimit, modeW, widthBits, chunkBytes]
  · simp [overflows_foldValue, hmode, modeLimit, modeW, widthBits, chunkBytes]

/-- With nothing in flight and the span consumed, the detector's magnitude is the value of the whole text (R174). -/
theorem Progress.magnitude_eq {s u : State} {acc value chunk : List Byte} (p : Progress s u acc value chunk)
    (hc : u.cv = false) (hv : u.lv = false) (ha : u.av = true) (h0 : u.sl = 0)
    (hd : (spanText s).all isDigit = true) : magnitude u = digitsValue (spanText s) := by
  obtain ⟨-, htext⟩ := p.all_taken hc hv h0
  rw [htext] at hd ⊢
  exact p.magnitudeIs ha hv hd

/-- Settles O30: the digits stay on track through every legal order of ops, so where `chk` is legal the magnitude is that
of the whole text. -/
theorem detectorIsExactForEveryLegalSequence : Obligations.DetectorIsExactForEveryLegalSequence := by
  intro ops s t hs hops e ⟨hp, hc, hv, ha, h0⟩ hd
  have hsteps : CallSteps s t := runOps_callSteps (fun i hi => startsCall_of_isDigitOp (hops i hi)) e
  obtain ⟨acc, value, chunk, hprogress⟩ := (callSteps_onTrack hs hsteps).progress hp
  have hmag : magnitude t = digitsValue (spanText s) := hprogress.magnitude_eq hc hv ha h0 hd
  exact ⟨hmag, by rw [overflows_iff, hmag, hprogress.mode, hprogress.neg]⟩

/-- A plan that covers the span, then `chk` and `fin`: no op is out of order, and the effects are those of `parse.m`. -/
theorem runOps_planOps_chk_fin {p : List ChunkSize} {s : State} (h : BetweenChunks false s) (hne : p ≠ [])
    (hp : planBytes p = s.sl) :
    runOps (planOps p ++ [.chk, .fin]) s = .next (finish (checkBound (planEffect p s))) := by
  obtain ⟨hrun, hc, hv, ha⟩ := planEffect_between h hne
  have h0 : (planEffect p s).sl = 0 := by rw [planEffect_sl, hp, Nat.sub_self]
  have hfin : exec .fin (checkBound (planEffect p s)) = .next (finish (checkBound (planEffect p s))) :=
    exec_fin_of_legal (.inl rfl)
  rw [runOps_planOps h (Nat.le_of_eq hp), runOps_cons_of_next (exec_chk_of_legal hrun hc hv ha h0),
    runOps_cons_of_next hfin, runOps]

/-- Settles O29: a plan that covers the span runs to `fin`, and what its effects leave is the exact outcome of the span. -/
theorem everyPlanGivesExactOutcome : Obligations.EveryPlanGivesExactOutcome := fun _ _ hs hne hp =>
  ⟨_, runOps_planOps_chk_fin (readyToPlan_between hs) hne hp, finish_ph _, planEffect_digitOutcome hs hne hp⟩

end Sys2Proof.Proofs

namespace Sys2Proof.Proofs

open Sys2Proof.Machine Sys2Proof.Safety

/-! ### The constants of the modes (R190) -/

/-- The greatest magnitude of a mode has DMAX digits, not fewer (R152). -/
theorem pow_modeDmax_le_modeLimit (m : Mode) (neg : Bool) : 10 ^ (modeDmax m - 1) ≤ modeLimit m neg := by
  obtain ⟨w, g⟩ := m
  cases w <;> cases g <;> cases neg <;> decide

/-- Settles O37: the two tables are finite, and DMAX counts the digits of every limit. -/
theorem modeConstants : Obligations.ModeConstants := by
  refine ⟨by decide, by decide, fun m neg _ => ⟨?_, ?_⟩⟩
  · exact pow_modeDmax_le_modeLimit m neg
  · exact modeLimit_lt_pow_modeDmax m neg

/-! ### The plan (R192) -/

/-- PLAN(n) is its sixteens, then the plan of what they leave. -/
theorem plan_eq_sixteens_append (n : Nat) : plan n = List.replicate (n / 16) .b16 ++ plan (n % 16) := by
  have hbit (i : Nat) (hi : i < 4) : (n % 16).testBit i = n.testBit i := by
    rw [show 16 = 2 ^ 4 from rfl, Nat.testBit_mod_two_pow, decide_eq_true hi, Bool.true_and]
  have hnone : n % 16 / 16 = 0 := Nat.div_eq_of_lt (Nat.mod_lt n (by decide))
  simp [plan, hbit, hnone]

/-- The plans of the rests below 16: falling sizes, no sixteen, at most one of each size. -/
theorem plan_of_lt_sixteen : ∀ r < 16, ((plan r).map chunkBytes).Pairwise (fun a b => b ≤ a)
    ∧ ∀ c : ChunkSize, (plan r).count c ≤ if c = .b16 then 0 else 1 := by
  have h : ∀ r < 16, ((plan r).map chunkBytes).Pairwise (fun a b => b ≤ a)
      ∧ ∀ c ∈ [ChunkSize.b1, .b2, .b4, .b8, .b16], (plan r).count c ≤ if c = .b16 then 0 else 1 := by decide
  intro r hr
  refine ⟨(h r hr).1, fun c => (h r hr).2 c ?_⟩
  cases c <;> decide

/-- A rest below 16 takes at most four chunks, one below 8 at most three. -/
theorem plan_length_le : ∀ r < 16, (plan r).length ≤ if r < 8 then 3 else 4 := by decide

theorem plan_pairwise (n : Nat) : ((plan n).map chunkBytes).Pairwise (fun a b => b ≤ a) := by
  obtain ⟨hrest, -⟩ := plan_of_lt_sixteen (n % 16) (Nat.mod_lt n (by decide))
  rw [plan_eq_sixteens_append, List.map_append, List.map_replicate, List.pairwise_append]
  refine ⟨List.pairwise_replicate_of_refl, hrest, fun a ha b hb => ?_⟩
  obtain ⟨c, -, rfl⟩ := List.mem_map.mp hb
  rw [List.eq_of_mem_replicate ha]
  exact chunkBytes_le c

theorem plan_count (n : Nat) (c : ChunkSize) :
    (plan n).count c = (if c = .b16 then n / 16 else 0) + (plan (n % 16)).count c := by
  rw [plan_eq_sixteens_append n, List.count_append, List.count_replicate, if_congr (beq_iff_eq.trans eq_comm) rfl rfl]

theorem plan_length_of_le {n : Nat} (hn : n ≤ 39) : (plan n).length ≤ 5 := by
  have hrest := plan_length_le (n % 16) (Nat.mod_lt n (by decide))
  rw [plan_eq_sixteens_append, List.length_append, List.length_replicate]
  split at hrest <;> omega

/-- Settles O33: the sixteens come first, and what they leave is below 16, so that its plan is one of sixteen. -/
theorem planIsGreedy : Obligations.PlanIsGreedy := by
  intro n
  obtain ⟨-, hrest⟩ := plan_of_lt_sixteen (n % 16) (Nat.mod_lt n (by decide))
  refine ⟨planBytes_plan n, plan_pairwise n, ?_, fun c hc => ?_, plan_length_of_le⟩
  · have hnone : (plan (n % 16)).count .b16 = 0 := Nat.le_zero.mp (hrest .b16)
    rw [plan_count, if_pos rfl, hnone, Nat.add_zero]
  · have hone := hrest c
    rw [if_neg hc] at hone
    rwa [plan_count, if_neg hc, Nat.zero_add]

/-! ### `parse.m` and its ops (R194) -/

/-- The first three ops of a call: none is out of order. -/
theorem runOps_begin_sgn_nrm {s : State} (h : CanStart s) (m : Mode) :
    runOps [beginOp m, .sgn, .nrm] s = .next (normalise (consumeSign (startCall m s))) := by
  have hbegin : exec (beginOp m) s = .next (startCall m s) := by rw [exec_begin, performBegin_of_canStart h]
  have hsgn : exec .sgn (startCall m s) = .next (consumeSign (startCall m s)) := by
    rw [exec_sgn, performSgn_of_legal rfl]
  have hnrm : exec .nrm (consumeSign (startCall m s)) = .next (normalise (consumeSign (startCall m s))) := by
    rw [exec_nrm, performNrm_of_legal (consumeSign_ph _)]
  rw [runOps_cons_of_next hbegin, runOps_cons_of_next hsgn, runOps_cons_of_next hnrm, runOps]

theorem exec_parse_of_canStart {s : State} (h : CanStart s) (m : Mode) :
    exec (parseOp m) s = .next (callEffect m s) := by
  rw [exec_parse, performParse_eq h]

theorem digitsEffect_of_run {s : State} (hp : s.ph = .run) :
    digitsEffect s = checkBound (planEffect (plan s.sl) s) := if_pos hp

theorem digitsEffect_of_failed {s : State} (hp : s.ph = .failed) : digitsEffect s = s :=
  if_neg (by rw [hp]; decide)

/-- Settles O24: the ops from `begin.m` to `nrm` are in order, and so are those that follow in either phase `nrm` leaves;
their effects are the ones `parse.m` is made of. -/
theorem parseIsItsOpsInOrder : Obligations.ParseIsItsOpsInOrder := by
  intro m s hs
  refine ⟨_, runOps_begin_sgn_nrm hs m, ?_⟩
  rw [exec_parse_of_canStart hs, callEffect]
  rcases normalise_ph (consumeSign (startCall m s)) with ⟨hp, hpos⟩ | hp
  · have hready : BetweenChunks false (normalise (consumeSign (startCall m s))) :=
      ⟨hp, consumeSign_cv _, consumeSign_lv _, consumeSign_av _⟩
    refine .inl ⟨hp, ?_⟩
    rw [digitsEffect_of_run hp, runOps_planOps_chk_fin hready (plan_ne_nil hpos) (planBytes_plan _)]
  · refine .inr ⟨hp, ?_⟩
    rw [digitsEffect_of_failed hp, runOps_cons_of_next (exec_fin_of_legal (.inr hp)), runOps]

end Sys2Proof.Proofs

namespace Sys2Proof.Proofs

open Sys2Proof.Machine Sys2Proof.Safety

/-! ### Signed values and the range of a mode (R171, R191) -/

/-- The number that a magnitude is under a sign (R191). -/
def signedValue (neg : Bool) (v : Nat) : Int := if neg then -(v : Int) else v

@[simp] theorem signedValue_false (v : Nat) : signedValue false v = v := rfl
@[simp] theorem signedValue_true (v : Nat) : signedValue true v = -(v : Int) := rfl

theorem maxValue_eq (m : Mode) : maxValue m = modeLimit m false := by
  obtain ⟨w, g⟩ := m
  cases w <;> cases g <;> rfl

theorem minValue_eq {m : Mode} (h : m.grammar = .signed) : minValue m = -(modeLimit m true : Int) := by
  obtain ⟨w, g⟩ := m
  subst h
  cases w <;> rfl

theorem minValue_nonpos (m : Mode) : minValue m ≤ 0 := by
  obtain ⟨w, g⟩ := m
  cases w <;> cases g <;> decide

/-- A magnitude under a sign is in the range of the mode when it is within the limit for that sign (R171). -/
theorem inRange_signedValue {m : Mode} {neg : Bool} (hneg : neg = true → m.grammar = .signed) (v : Nat) :
    (minValue m ≤ signedValue neg v ∧ signedValue neg v ≤ maxValue m) ↔ v ≤ modeLimit m neg := by
  have hmin := minValue_nonpos m
  have hmax := maxValue_eq m
  cases neg with
  | false =>
    rw [signedValue_false]
    omega
  | true =>
    have hlow := minValue_eq (hneg rfl)
    rw [signedValue_true]
    omega

/-- Within the limit, the encoding of a magnitude under a sign is what the machine computes (R176, R177). -/
theorem encodedValue_signedValue {m : Mode} {neg : Bool} {v : Nat} (h : v ≤ modeLimit m neg) :
    (encodedValue m (signedValue neg v)).toNat = if neg then (2 ^ modeW m - v) % 2 ^ modeW m else v := by
  have hv : v < 2 ^ modeW m := h.trans_lt (modeLimit_lt_two_pow m neg)
  have hwide : 2 ^ modeW m ≤ 2 ^ 128 := Nat.pow_le_pow_right (by decide) (modeW_le m)
  have hvalue : signedValue neg v % 2 ^ modeW m = (if neg then (2 ^ modeW m - v) % 2 ^ modeW m else v : Nat) := by
    cases neg with
    | false => exact Int.emod_eq_of_lt (Int.natCast_nonneg v) (by rw [signedValue_false]; exact_mod_cast hv)
    | true =>
      rw [signedValue_true, if_pos rfl, Int.natCast_mod, Nat.cast_sub hv.le, Nat.cast_pow, Nat.cast_ofNat,
        Int.sub_emod_left]
  have hlt : (if neg then (2 ^ modeW m - v) % 2 ^ modeW m else v) < 2 ^ modeW m := by
    split
    · exact Nat.mod_lt _ (by positivity)
    · exact hv
  rw [encodedValue, ← modeW, hvalue, Int.toNat_natCast, BitVec.toNat_ofNat, Nat.mod_eq_of_lt (hlt.trans_le hwide)]

/-! ### The reference parser (R191, R195) -/

/-- The reference parser in the terms of the machine: the string after the sign is not empty, all digits, and its value
is within the limit for the sign. -/
theorem referenceParse_of_splitSign {m : Mode} {t ds : List Byte} {neg : Bool}
    (hsplit : splitSign m.grammar t = (neg, ds)) :
    referenceParse m t
      = if ds ≠ [] ∧ ds.all isDigit = true ∧ digitsValue ds ≤ modeLimit m neg
        then some (signedValue neg (digitsValue ds)) else none := by
  have hneg : neg = true → m.grammar = .signed := fun h => grammar_of_splitSign_neg (t := t) (by rw [hsplit, h])
  rw [referenceParse, hsplit]
  exact if_congr (and_congr_right fun _ => and_congr_right fun _ => inRange_signedValue hneg _) rfl rfl

/-- The outcome of a digit string is the one that the reference parser asks for. -/
theorem hasOutcome_of_digitOutcome {m : Mode} {t ds : List Byte} {neg : Bool} {u : State}
    (hsplit : splitSign m.grammar t = (neg, ds)) (hne : ds ≠ []) (h : digitOutcome m neg ds u) :
    hasOutcome m (referenceParse m t) u := by
  rw [referenceParse_of_splitSign hsplit]
  unfold digitOutcome at h
  by_cases hin : ds.all isDigit = true ∧ digitsValue ds ≤ modeLimit m neg
  · rw [if_pos hin] at h
    rw [if_pos ⟨hne, hin⟩]
    exact ⟨h.1, BitVec.eq_of_toNat_eq (h.2.trans (encodedValue_signedValue hin.2).symm)⟩
  · rw [if_neg hin] at h
    rw [if_neg (mt And.right hin)]
    exact h

/-! ### A call over any text (R195) -/

/-- `nrm` fails an empty span, and the call ends invalid (R153, R178). -/
theorem finish_normalise_of_empty {s : State} (h : spanText s = []) :
    (finish (digitsEffect (normalise s))).valid = false ∧ (finish (digitsEffect (normalise s))).res = 0 := by
  have hfailed : (normalise s).ph = .failed := by
    refine (normalise_ph s).resolve_left fun ⟨_, hpos⟩ => ?_
    obtain ⟨k, hzeros⟩ := spanText_normalise s
    rw [h, List.nil_eq, List.append_eq_nil_iff] at hzeros
    have hlen : (normalise s).sl = 0 := by simpa [spanText] using congrArg List.length hzeros.2
    omega
  rw [digitsEffect_of_failed hfailed, finish_of_failed hfailed]
  exact ⟨rfl, rfl⟩

/-- A call over a text with nothing after its sign ends invalid (R191). -/
theorem callEffect_of_no_digits {m : Mode} {s : State} (h : (splitSign m.grammar (inputText s)).2 = []) :
    (callEffect m s).valid = false ∧ (callEffect m s).res = 0 :=
  finish_normalise_of_empty ((consumeSign_splitSign (startCall m s)).1.trans h)

/-- A call gives the outcome of the reference parser, whatever the text (R195). -/
theorem callEffect_hasOutcome (m : Mode) (s : State) :
    hasOutcome m (referenceParse m (inputText s)) (callEffect m s) := by
  rcases hsplit : splitSign m.grammar (inputText s) with ⟨neg, ds⟩
  by_cases hds : ds = []
  · rw [referenceParse_of_splitSign hsplit, if_neg (fun h => h.1 hds)]
    exact callEffect_of_no_digits (by rw [hsplit, hds])
  · exact hasOutcome_of_digitOutcome hsplit hds (callEffect_digitOutcome hsplit hds)

theorem callEffect_ph (m : Mode) (s : State) : (callEffect m s).ph = .done := finish_ph _

/-- A call that starts takes no fault: what it leaves is what it leaves to its own host. -/
theorem callEffect_fault (m : Mode) (s : State) : (callEffect m s).fault = s.fault := by
  rw [callEffect_withHost m (s := s) rfl rfl rfl rfl]
  rfl

/-- Settles O23: `parse.m` has the effect of a call, and a call gives the outcome of the reference parser. -/
theorem parseAgreesWithReferenceParser : Obligations.ParseAgreesWithReferenceParser := fun m s hs =>
  ⟨callEffect m s, exec_parse_of_canStart hs m, callEffect_ph m s, callEffect_fault m s, callEffect_hasOutcome m s⟩

end Sys2Proof.Proofs

namespace Sys2Proof.Proofs

open Sys2Proof.Machine Sys2Proof.Safety

/-! ### The decimal text of a number (R212) -/

/-- The digits of a number, the least significant first, written as text. -/
def digitBytes (l : List Nat) : List Byte := l.reverse.map (fun d => BitVec.ofNat 8 (0x30 + d))

theorem digitBytes_cons (d : Nat) (l : List Nat) : digitBytes (d :: l) = digitBytes l ++ [BitVec.ofNat 8 (0x30 + d)] := by
  simp [digitBytes]

/-- A decimal digit is written as a byte that is a digit. -/
theorem isDigit_digitByte {d : Nat} (h : d < 10) : isDigit (BitVec.ofNat 8 (0x30 + d)) = true := by
  rw [isDigit, BitVec.toNat_ofNat, Bool.and_eq_true, decide_eq_true_eq, decide_eq_true_eq]
  omega

theorem digitBytes_all_isDigit {l : List Nat} (h : ∀ d ∈ l, d < 10) : (digitBytes l).all isDigit = true := by
  rw [digitBytes, List.all_map, List.all_reverse, List.all_eq_true]
  exact fun d hd => isDigit_digitByte (h d hd)

/-- Reading the text of digits gives the number they stand for. -/
theorem digitsValue_digitBytes {l : List Nat} (h : ∀ d ∈ l, d < 10) : digitsValue (digitBytes l) = Nat.ofDigits 10 l := by
  induction l with
  | nil => rfl
  | cons d l ih =>
    have hd : d < 10 := h d List.mem_cons_self
    rw [digitBytes_cons, digitsValue_snoc, ih fun e he => h e (List.mem_cons_of_mem d he), Nat.ofDigits_cons,
      BitVec.toNat_ofNat, Nat.mod_eq_of_lt (by omega)]
    omega

/-- The shortest decimal text of a magnitude (R212). -/
def formatNat (n : Nat) : List Byte := if n = 0 then [0x30] else digitBytes (Nat.digits 10 n)

/-- The text of a value is an optional '-' and the text of its magnitude (R212). -/
theorem formatInt_eq (v : Int) : formatInt v = (if v < 0 then [0x2D] else []) ++ formatNat v.natAbs := by
  rw [formatInt, formatNat, if_congr Int.natAbs_eq_zero rfl rfl, digitBytes]

theorem formatNat_all_isDigit (n : Nat) : (formatNat n).all isDigit = true := by
  unfold formatNat
  split
  · decide
  · exact digitBytes_all_isDigit fun _ => Nat.digits_lt_base (by decide)

theorem digitsValue_formatNat (n : Nat) : digitsValue (formatNat n) = n := by
  unfold formatNat
  split
  · next h => rw [h]; rfl
  · rw [digitsValue_digitBytes fun _ => Nat.digits_lt_base (by decide), Nat.ofDigits_digits]

theorem formatNat_ne_nil (n : Nat) : formatNat n ≠ [] := by
  unfold formatNat
  split
  · decide
  · next h => simpa [digitBytes, Nat.digits_ne_nil_iff_ne_zero] using h

/-! ### Formatting and the reference parser (R212) -/

/-- No grammar takes anything off a string of digits. -/
theorem splitSign_of_digits (g : Grammar) {ds : List Byte} (h : ds.all isDigit = true) : splitSign g ds = (false, ds) := by
  obtain ⟨neg, front, -, hsplit⟩ := splitSign_sign_append g (sign := []) (.inl rfl)
  obtain ⟨rfl, rfl⟩ : false = neg ∧ front = [] := by simpa using hsplit [] rfl
  exact hsplit ds h

/-- The grammar splits the text of a value of the mode into its sign and the text of its magnitude: only signed modes
have negative values. -/
theorem splitSign_formatInt {m : Mode} {v : Int} (hmin : minValue m ≤ v) :
    splitSign m.grammar (formatInt v) = (decide (v < 0), formatNat v.natAbs) := by
  rw [formatInt_eq]
  by_cases hv : v < 0
  · have hminus : allowsMinus m.grammar = true := by
      cases hg : m.grammar with
      | signed => rfl
      | plus | noPlus =>
        have hzero : minValue m = 0 := by rw [minValue, hg]
        omega
    rw [if_pos hv, List.singleton_append, splitSign_cons, if_pos ⟨rfl, hminus⟩, decide_eq_true hv]
  · rw [if_neg hv, List.nil_append, splitSign_of_digits _ (formatNat_all_isDigit _), decide_eq_false hv]

theorem signedValue_natAbs (v : Int) : signedValue (decide (v < 0)) v.natAbs = v := by
  by_cases hv : v < 0
  · rw [decide_eq_true hv, signedValue_true]
    omega
  · rw [decide_eq_false hv, signedValue_false]
    omega

/-- The reference parser reads the text of a value of the mode back (R212). -/
theorem referenceParse_formatInt {m : Mode} {v : Int} (hmin : minValue m ≤ v) (hmax : v ≤ maxValue m) :
    referenceParse m (formatInt v) = some v := by
  have hsplit := splitSign_formatInt hmin
  have hneg : decide (v < 0) = true → m.grammar = .signed :=
    fun h => grammar_of_splitSign_neg (t := formatInt v) (by rw [hsplit, h])
  have hlimit : v.natAbs ≤ modeLimit m (decide (v < 0)) := by
    rw [← inRange_signedValue hneg, signedValue_natAbs]
    exact ⟨hmin, hmax⟩
  rw [referenceParse_of_splitSign hsplit, digitsValue_formatNat, signedValue_natAbs,
    if_pos ⟨formatNat_ne_nil _, formatNat_all_isDigit _, hlimit⟩]

/-- Settles O25: `parse.m` gives the outcome of the reference parser, which reads the text of the value back. -/
theorem parseOfFormattedValue : Obligations.ParseOfFormattedValue := by
  intro m v s hs hmin hmax htext
  obtain ⟨t, e, hp, -, houtcome⟩ := parseAgreesWithReferenceParser m s hs
  rw [htext, referenceParse_formatInt hmin hmax] at houtcome
  exact ⟨t, e, hp, houtcome⟩

end Sys2Proof.Proofs

namespace Sys2Proof.Proofs

open Sys2Proof.Machine Sys2Proof.Safety

/-! ### HALT (R227, R228) -/

/-- At HALT no effect of an op inside a call is left but to be ignored. -/
theorem CallStep.eq_of_halt {s t : State} (step : CallStep s t) (hh : s.ph = .halt) : t = s := by
  cases step with
  | ignored => rfl
  | fault _ _ running => exact absurd hh running
  | sign phase | norm phase | load _ phase | decode _ phase | take phase | fold _ phase | check phase =>
    exact absurd (hh.symm.trans phase) (by decide)
  | finish phase =>
    rcases phase with phase | phase <;> exact absurd (hh.symm.trans phase) (by decide)

theorem callSteps_eq_of_halt {s t : State} (steps : CallSteps s t) (hh : s.ph = .halt) : t = s := by
  induction steps with
  | refl => rfl
  | tail _ last ih => rw [ih] at last; exact last.eq_of_halt hh

/-- A fault of its `begin` is all that `parse.m` does (R196). -/
theorem performParse_of_begin_fault {m : Mode} {c : FaultCode} {w : OpWord} {s : State}
    (h : performBegin m w s = raise c w s) : performParse m w s = raise c w s :=
  callSteps_eq_of_halt (h ▸ performParse_callSteps m w s) rfl

theorem exec_of_halt {s : State} (hh : s.ph = .halt) (i : Instr) : exec i s = .next s := by
  obtain ⟨t, e⟩ := exec_next i s
  have ht : t = s := by
    rcases exec_cases e with ⟨-, step⟩ | ⟨-, m, w, steps⟩
    · exact step.eq_of_halt hh
    · rw [performBegin, sequenced_of_halt hh] at steps
      exact callSteps_eq_of_halt steps hh
  rw [e, ht]

/-- Settles O42: a legal word runs an op, which HALT ignores, and a reserved one is ignored likewise. -/
theorem haltIgnoresEveryWord : Obligations.HaltIgnoresEveryWord := by
  intro w s hh
  cases hw : decode w with
  | ok i => rw [presentOp_of_decode hw, exec_of_halt hh]
  | error r => rw [presentOp_of_reject hw, illegalOp, if_pos hh]

/-! ### What the host's actions can do (R46, R50) -/

/-- A host write presents a word, or it writes at most IPTR and ILEN (R50). -/
theorem hostWrite_cases (r : BitVec 4) (v : Nat) (s : State) :
    hostWrite r v s = presentOp (BitVec.ofNat 8 v) s
      ∨ ∃ ptr len, hostWrite r v s = .next { s with iptr := ptr, ilen := len } := by
  unfold hostWrite
  split
  · exact .inl rfl
  · exact .inr ⟨_, _, rfl⟩
  · exact .inr ⟨_, _, rfl⟩
  · exact .inr ⟨_, _, rfl⟩

theorem applyEvent_next (ev : HostEvent) (s : State) : ∃ t, applyEvent ev s = .next t := by
  cases ev with
  | write r v =>
    rcases hostWrite_cases r v s with e | ⟨ptr, len, e⟩
    · exact ⟨_, e.trans (presentOp_eq_afterWord _ s)⟩
    · exact ⟨_, e⟩
  | poke a b => exact ⟨_, rfl⟩
  | reset => exact ⟨_, rfl⟩

/-- With no action of the host to come, a step changes nothing (R251). -/
theorem step_of_no_event {s : State} (h : s.input = []) : step s = .next s := by
  simp only [step, nextEvent, h]

/-- Settles O8: each op answers a next state, and so each action of the host does. -/
theorem everyWordAndStepCompletes : Obligations.EveryWordAndStepCompletes := by
  refine ⟨fun w s => ⟨_, presentOp_eq_afterWord w s⟩, fun s => ?_⟩
  cases hin : s.input with
  | nil => exact ⟨s, step_of_no_event hin⟩
  | cons ev rest => exact step_of_event hin ▸ applyEvent_next ev _

/-- At HALT an action of the host other than reset reaches only what is the host's own. -/
theorem applyEvent_of_halt {ev : HostEvent} {s t : State} (hh : s.ph = .halt) (hev : ev ≠ .reset)
    (e : applyEvent ev s = .next t) : t = { s with iptr := t.iptr, ilen := t.ilen, imem := t.imem } := by
  cases ev with
  | write r v =>
    rcases hostWrite_cases r v s with hw | ⟨ptr, len, hw⟩
    · cases (hw.trans (haltIgnoresEveryWord _ s hh)).symm.trans e
      rfl
    · cases hw.symm.trans e
      rfl
  | poke a b => cases e; rfl
  | reset => exact absurd rfl hev

/-- Settles O43: with or without an action to come, a step at HALT leaves what is not the host's. -/
theorem onlyResetLeavesHalt : Obligations.OnlyResetLeavesHalt := by
  intro s t hh hreset e
  cases hin : s.input with
  | nil =>
    cases (step_of_no_event hin).symm.trans e
    rfl
  | cons ev rest =>
    have hev : ev ≠ .reset := by simpa [hin] using hreset
    exact congrArg (fun u : State => { u with input := t.input })
      (applyEvent_of_halt (s := { s with input := rest }) hh hev ((step_of_event hin).symm.trans e))

end Sys2Proof.Proofs

namespace Sys2Proof.Proofs

open Sys2Proof.Machine Sys2Proof.Safety

/-! ### The legality table, family by family (R223) -/

theorem legalIn_rdOp (n : ChunkSize) (s : State) : legalIn (rdOp n) s ↔ s.ph = .run ∧ s.cv = false := by
  cases n <;> rfl

theorem legalIn_decOp (n : ChunkSize) (s : State) :
    legalIn (decOp n) s ↔ s.ph = .run ∧ s.cv = true ∧ s.cn = n ∧ s.lv = false := by cases n <;> rfl

theorem legalIn_foldOp (k : ChunkSize) (s : State) :
    legalIn (foldOp k) s ↔ s.ph = .run ∧ s.lv = true ∧ s.ln = k ∧ s.av = true := by cases k <;> rfl

theorem legalIn_beginOp (m : Mode) (s : State) : legalIn (beginOp m) s ↔ s.ph = .idle ∨ s.ph = .done := by
  obtain ⟨w, g⟩ := m
  cases w <;> cases g <;> rfl

theorem legalIn_parseOp (m : Mode) (s : State) : legalIn (parseOp m) s ↔ s.ph = .idle ∨ s.ph = .done := by
  obtain ⟨w, g⟩ := m
  cases w <;> cases g <;> rfl

/-! ### An op out of order (R223) -/

/-- Where the condition that its legality computes does not hold, an op raises F_SEQ. -/
theorem sequenced_of_not {w : OpWord} {legal : Bool} {act : State → State} {s : State} {condition : Prop}
    (hiff : legal = true ↔ condition) (hh : s.ph ≠ .halt) (hn : ¬ condition) :
    sequenced w legal act s = raise .seq w s :=
  sequenced_of_illegal hh (Bool.eq_false_iff.mpr (mt hiff.mp hn))

theorem performBegin_of_not_between {s : State} (hh : s.ph ≠ .halt) (hn : ¬ (s.ph = .idle ∨ s.ph = .done)) (m : Mode)
    (w : OpWord) : performBegin m w s = raise .seq w s :=
  sequenced_of_not (beginLegal_iff s) hh hn

theorem exec_of_not_legalIn {i : Instr} {s : State} (hh : s.ph ≠ .halt) (hn : ¬ legalIn i s) :
    exec i s = .next (raise .seq (encode i) s) := by
  rcases instr_cases i with
    rfl | rfl | rfl | rfl | rfl | ⟨n, rfl⟩ | ⟨n, rfl⟩ | ⟨n, rfl⟩ | ⟨m, rfl⟩ | ⟨m, rfl⟩
  · rw [exec_sgn, performSgn, sequenced_of_not (sgnLegal_iff s) hh hn]
  · rw [exec_nrm, performNrm, sequenced_of_not (nrmLegal_iff s) hh hn]
  · rw [exec_take, performTake, sequenced_of_not (takeLegal_iff s) hh hn]
  · rw [exec_chk, performChk, sequenced_of_not (chkLegal_iff s) hh hn]
  · rw [exec_fin, performFin, sequenced_of_not (finLegal_iff s) hh hn]
  · rw [legalIn_rdOp] at hn
    rw [exec_rd, performRd, sequenced_of_not (rdLegal_iff s) hh hn]
  · rw [legalIn_decOp] at hn
    rw [exec_dec, performDec, sequenced_of_not (decLegal_iff n s) hh hn]
  · rw [legalIn_foldOp] at hn
    rw [exec_fold, performFold, sequenced_of_not (foldLegal_iff n s) hh hn]
  · rw [legalIn_beginOp] at hn
    rw [exec_begin, performBegin_of_not_between hh hn]
  · rw [legalIn_parseOp] at hn
    rw [exec_parse, performParse_of_begin_fault (performBegin_of_not_between hh hn m _)]

/-- Settles O38: the row of the table is the condition the op checks first, and in `parse.m` its `begin` checks it. -/
theorem illegalOrderRaisesSeq : Obligations.IllegalOrderRaisesSeq := fun _ _ => exec_of_not_legalIn

/-! ### The faults of an op in order (R221, R224) -/

theorem exec_rd_of_short {n : ChunkSize} {s : State} (hp : s.ph = .run) (hc : s.cv = false) (hn : s.sl < chunkBytes n) :
    exec (rdOp n) s = .next (raise .underrun (encode (rdOp n)) s) := by
  rw [exec_rd, performRd, sequenced_of_legal (by simp [hp]) ((rdLegal_iff s).mpr ⟨hp, hc⟩), if_pos hn]

/-- Settles O39: a legal `rd.n` looks at SL before it reads. -/
theorem shortReadRaisesUnderrun : Obligations.ShortReadRaisesUnderrun := fun _ _ => exec_rd_of_short

theorem performBegin_of_wraps {s : State} (hp : s.ph = .idle ∨ s.ph = .done) (hwrap : 2 ^ s.aw.bits < s.iptr + s.ilen)
    (m : Mode) (w : OpWord) : performBegin m w s = raise .span w s := by
  have hh : s.ph ≠ .halt := by rcases hp with hp | hp <;> simp [hp]
  have hspan : spanWraps s = true := decide_eq_true hwrap
  rw [performBegin, sequenced_of_legal hh ((beginLegal_iff s).mpr hp), if_pos hspan]

theorem exec_begin_of_wraps {s : State} (hp : s.ph = .idle ∨ s.ph = .done) (hwrap : 2 ^ s.aw.bits < s.iptr + s.ilen)
    (m : Mode) : exec (beginOp m) s = .next (raise .span (encode (beginOp m)) s) := by
  rw [exec_begin, performBegin_of_wraps hp hwrap]

theorem exec_parse_of_wraps {s : State} (hp : s.ph = .idle ∨ s.ph = .done) (hwrap : 2 ^ s.aw.bits < s.iptr + s.ilen)
    (m : Mode) : exec (parseOp m) s = .next (raise .span (encode (parseOp m)) s) := by
  rw [exec_parse, performParse_of_begin_fault (performBegin_of_wraps hp hwrap m _)]

/-- Settles O40: `begin.m` compares the span with the top of IMEM, and `parse.m` stops at its `begin`. -/
theorem wrappingSpanRaisesSpan : Obligations.WrappingSpanRaisesSpan := fun m _ hp hwrap =>
  ⟨exec_begin_of_wraps hp hwrap m, exec_parse_of_wraps hp hwrap m⟩

/-! ### Faults are precise (R226) -/

theorem exec_begin_of_canStart {s : State} (h : CanStart s) (m : Mode) :
    exec (beginOp m) s = .next (startCall m s) := by
  rw [exec_begin, performBegin_of_canStart h]

/-- Between calls, either a call may start or the span wraps. -/
theorem canStart_or_wraps {s : State} (hp : s.ph = .idle ∨ s.ph = .done) :
    CanStart s ∨ 2 ^ s.aw.bits < s.iptr + s.ilen := by
  rcases Nat.lt_or_ge (2 ^ s.aw.bits) (s.iptr + s.ilen) with hwrap | hfits
  · exact .inr hwrap
  · exact .inl ⟨hp, hfits⟩

/-- An op in order has its own effect, which does not enter HALT, or it takes one of the two faults on data, which changes
nothing else (R221, R224). -/
theorem exec_of_legalIn {i : Instr} {s : State} (hl : legalIn i s) :
    (∃ t, exec i s = .next t ∧ t.ph ≠ .halt)
      ∨ ∃ c, (c = .underrun ∨ c = .span) ∧ exec i s = .next (raise c (encode i) s) := by
  rcases instr_cases i with
    rfl | rfl | rfl | rfl | rfl | ⟨n, rfl⟩ | ⟨n, rfl⟩ | ⟨n, rfl⟩ | ⟨m, rfl⟩ | ⟨m, rfl⟩
  · exact .inl ⟨consumeSign s, by rw [exec_sgn, performSgn_of_legal hl], by simp⟩
  · refine .inl ⟨normalise s, by rw [exec_nrm, performNrm_of_legal hl], ?_⟩
    rcases normalise_ph s with ⟨hp, -⟩ | hp <;> simp [hp]
  · obtain ⟨hp, hv, ha⟩ := hl
    exact .inl ⟨takeValue s, exec_take_of_legal hp hv ha, by simp [hp]⟩
  · obtain ⟨hp, hc, hv, ha, h0⟩ := hl
    exact .inl ⟨checkBound s, exec_chk_of_legal hp hc hv ha h0, by simp⟩
  · exact .inl ⟨finish s, exec_fin_of_legal hl, by simp⟩
  · obtain ⟨hp, hc⟩ := (legalIn_rdOp n s).mp hl
    rcases Nat.lt_or_ge s.sl (chunkBytes n) with hn | hn
    · exact .inr ⟨.underrun, .inl rfl, exec_rd_of_short hp hc hn⟩
    · exact .inl ⟨loadChunk n s, exec_rd_of_legal hp hc hn, by simp [hp]⟩
  · obtain ⟨hp, hc, hn, hv⟩ := (legalIn_decOp n s).mp hl
    exact .inl ⟨decodeChunk n s, exec_dec_of_legal hp hc hn hv, by simp [hp]⟩
  · obtain ⟨hp, hv, hk, ha⟩ := (legalIn_foldOp n s).mp hl
    exact .inl ⟨foldValue n s, exec_fold_of_legal hp hv hk ha, by simp [hp]⟩
  · have hp := (legalIn_beginOp m s).mp hl
    rcases canStart_or_wraps hp with hs | hwrap
    · exact .inl ⟨startCall m s, exec_begin_of_canStart hs m, by simp⟩
    · exact .inr ⟨.span, .inr rfl, exec_begin_of_wraps hp hwrap m⟩
  · have hp := (legalIn_parseOp m s).mp hl
    rcases canStart_or_wraps hp with hs | hwrap
    · exact .inl ⟨callEffect m s, exec_parse_of_canStart hs m, by simp [callEffect_ph]⟩
    · exact .inr ⟨.span, .inr rfl, exec_parse_of_wraps hp hwrap m⟩

/-- An op that enters HALT has raised a fault under its own word. -/
theorem exec_enters_halt {i : Instr} {s t : State} (hh : s.ph ≠ .halt) (e : exec i s = .next t) (ht : t.ph = .halt) :
    ∃ c, c ≠ .none ∧ t = raise c (encode i) s := by
  by_cases hl : legalIn i s
  · rcases exec_of_legalIn hl with ⟨u, eu, hu⟩ | ⟨c, hc, er⟩
    · cases eu.symm.trans e
      exact absurd ht hu
    · cases er.symm.trans e
      exact ⟨c, by rcases hc with rfl | rfl <;> decide, rfl⟩
  · cases (exec_of_not_legalIn hh hl).symm.trans e
    exact ⟨.seq, by decide, rfl⟩

/-- Settles O41: the word presented is the word of the op it decodes to; a reserved word raises F_ILLOP. -/
theorem faultsArePrecise : Obligations.FaultsArePrecise := by
  intro w s t hh e ht
  cases hw : decode w with
  | ok i =>
    rw [presentOp_of_decode hw] at e
    rw [← encode_of_decode hw]
    exact exec_enters_halt hh e ht
  | error r =>
    rw [presentOp_of_reject hw, illegalOp, if_neg hh] at e
    cases e
    exact ⟨.illop, by decide, rfl⟩

end Sys2Proof.Proofs

namespace Sys2Proof.Proofs

open Sys2Proof.Machine Sys2Proof.Safety

/-! ### Reset by the host (R250, R251) -/

/-- Settles O10: the step is the reset, on the state with the action taken off the input. -/
theorem resetEventRestoresReset : Obligations.ResetEventRestoresReset := by
  intro s rest hin
  have hstep : step s = .next (resetAll { s with input := rest }) := step_of_event hin
  rw [hstep, resetAll, State.resetFor]

/-! ### How many ops a call takes (R253) -/

/-- What a list of ops does after one that answered is what it does from the state that one left. -/
theorem runOps_append_of_next {ops : List Instr} {s u : State} (e : runOps ops s = .next u) (rest : List Instr) :
    runOps (ops ++ rest) s = runOps rest u := by
  induction ops generalizing s with
  | nil => cases e; rfl
  | cons i ops ih =>
    rw [runOps] at e
    split at e
    next t hi =>
      rw [List.cons_append, runOps_cons_of_next hi]
      exact ih e
    all_goals cases e

/-- Each chunk of a plan is three ops (R89). -/
theorem planOps_length (p : List ChunkSize) : (planOps p).length = 3 * p.length := by
  cases p with
  | nil => rfl
  | cons n rest => simp [planOps, fldOps]; omega

theorem modeDmax_le (m : Mode) : modeDmax m ≤ 39 := by
  obtain ⟨w, g⟩ := m
  cases w <;> cases g <;> decide

/-- A plan of a length up to DMAX has at most 5 chunks (R192), so at most 15 ops. -/
theorem planOps_plan_length_le {m : Mode} {n : Nat} (hn : n ≤ modeDmax m) : (planOps (plan n)).length ≤ 15 := by
  have hchunks : (plan n).length ≤ 5 := plan_length_of_le (hn.trans (modeDmax_le m))
  rw [planOps_length]
  omega

@[simp] theorem consumeSign_mode (s : State) : (consumeSign s).mode = s.mode := by rw [consumeSign_frame]

/-- Settles O34: the run of the constituent ops is `parseIsItsOpsInOrder`, and a length that `nrm` accepts is from 1 to
DMAX, so that its plan has at most 15 ops. -/
theorem parseIsBounded : Obligations.ParseIsBounded := by
  have hbound (m : Mode) {n : Nat} (hn : n ≤ modeDmax m) :
      ([beginOp m, Instr.sgn, Instr.nrm] ++ (planOps (plan n) ++ [Instr.chk, Instr.fin])).length ≤ 20 := by
    have hplan := planOps_plan_length_le hn
    simp only [List.length_append, List.length_cons, List.length_nil]
    omega
  refine ⟨fun m n hn => List.append_assoc .. ▸ hbound m hn, fun m s hs => ?_⟩
  obtain ⟨u, hu, hparse⟩ := parseIsItsOpsInOrder m s hs
  obtain rfl : normalise (consumeSign (startCall m s)) = u :=
    Host.Outcome.next.inj ((runOps_begin_sgn_nrm hs m).symm.trans hu)
  rcases hparse with ⟨hp, hrun⟩ | ⟨-, hrun⟩
  · obtain ⟨-, hpos⟩ := (normalise_ph (consumeSign (startCall m s))).resolve_right (by simp [hp])
    have hshort := normalise_short hp
    rw [consumeSign_mode, startCall_mode] at hshort
    exact ⟨_, .inl ⟨_, hpos, hshort, rfl⟩, hbound m hshort, by rw [hrun, runOps_append_of_next hu]⟩
  · have hlength : ([beginOp m, Instr.sgn, Instr.nrm] ++ [Instr.fin]).length ≤ 20 := by simp
    exact ⟨_, .inr rfl, hlength, by rw [hrun, runOps_append_of_next hu]⟩

end Sys2Proof.Proofs
